-- ==== Sys2Proof/Word.lean ====
section
/-! DEFINITION. The word types of the DCM-ADC block, named as the spec names them (00_scope.md R10). -/

namespace Sys2Proof

/-- An 8-bit value: a control-write byte or a classification code (R93). -/
abbrev Byte := BitVec 8

/-- A raw 12-bit ADC value, the spec's *count* (R16). -/
abbrev Count := BitVec 12

/-- A 16-bit cell: a slot of the sample buffer or an SPI word (R25, R92). -/
abbrev Cell16 := BitVec 16

end Sys2Proof
end

