-- ==== Sys2Proof/Config.lean ====
section
/-! DEFINITION. The parameters of 00_scope.md R7: constants the spec fixes; the record `Platform` of those it keeps as
parameters with a value and the record `Params` that adds those it leaves OPEN (held read-only in the state, log 1); the
answers of the environment's oracles (R12); and the opaque constants that stand for what a launch leaves free (log 1,
log 2, log 3). -/

namespace Sys2Proof

namespace Config

/-- `NUM_RAIL` (R7: source). -/
abbrev numRail : Nat := 4
/-- `ADC_RES` (R7). -/
def adcRes : Nat := 4095
/-- `ADC_REF_MV` (R7). -/
def adcRefMv : Nat := 5000
/-- `DCM_PERIOD_MS` (R7). -/
def dcmPeriodMs : Nat := 10
/-- `IN1_NEAR_5V_MV` (R7). -/
def in1Near5vMv : Nat := 4800
/-- `IN1_NEAR_PIN2_MV` (R7). -/
def in1NearPin2Mv : Nat := 3100
/-- `IN1_NEAR_GND_MV` (R7). -/
def in1NearGndMv : Nat := 100
/-- `OUT5_BALANCE_HIGH_MV` (R7). -/
def out5BalanceHighMv : Nat := 2600
/-- `OUT5_BALANCE_LOW_MV` (R7). -/
def out5BalanceLowMv : Nat := 2400
/-- `OUT5_IIC_HIGH_MV` (R7). -/
def out5IicHighMv : Nat := 3700
/-- `OUT5_IIC_LOW_MV` (R7). -/
def out5IicLowMv : Nat := 2800
/-- `OUT5_NEAR_GND_MV` (R7). -/
def out5NearGndMv : Nat := 100
/-- `OUT5_NEWTACHO_LOW2_MV` (R7). -/
def out5NewtachoLow2Mv : Nat := 450
/-- `OUT5_MINITACHO_LOW2_MV` (R7). -/
def out5MinitachoLow2Mv : Nat := 250
/-- `CONNECT_STABLE_MS` (R7). -/
def connectStableMs : Nat := 350
/-- `DISCONNECT_STABLE_MS` (R7). -/
def disconnectStableMs : Nat := 100
/-- `FLOATING_DELAY_MS` (R7). -/
def floatingDelayMs : Nat := 20
/-- `LOW_DELAY_MS` (R7). -/
def lowDelayMs : Nat := 20
/-- `TOUCH_DELAY_MS` (R7). -/
def touchDelayMs : Nat := 20
/-- `COLOR_TIMEOUT_MS` (R7). -/
def colorTimeoutMs : Nat := 500
/-- `TOUCH_TOL` (R7), in counts. -/
def touchTol : Nat := 10
/-- `OUT5_MATCH_TOL` (R7), in counts. -/
def out5MatchTol : Nat := 50

end Config

open Config

/-- A drive the block applies to a pin (R12, R95). -/
inductive Level where
  | float | low | high
deriving DecidableEq, Repr, Inhabited

/-- A drive value of a schedule entry's clock flag or of a raw-pin decode (R95, R96): a level, or `KEEP`. -/
inductive ClockFlag where
  | drive (d : Level)
  | keep
deriving DecidableEq, Repr, Inhabited

/-- A pin role (R12). -/
inductive Role where
  | pin1 | pin2 | pin5 | pin6 | auxA | auxB
deriving DecidableEq, Repr, Inhabited

/-- A physical pin of an input port, the home of one drive cell. `auxA` and `auxB` are the pins of the auxiliary
roles where these do not name one of the other four (R33, log 8). -/
inductive PinCell where
  | pin1 | pin2 | pin5 | pin6 | auxA | auxB
deriving DecidableEq, Repr, Inhabited

/-- A slot of the shared sample buffer (R24). -/
inductive Slot where
  | inPin1 (i : Nat)
  | inPin6 (i : Nat)
  | outPin5 (j : Nat)
  | rail (k : Fin numRail)
deriving DecidableEq, Repr

/-- A schedule entry (R90). `dest = none` is `DISCARD`. -/
structure ScheduleEntry where
  chan : BitVec 16
  dest : Option Slot
  clkA : ClockFlag
  clkB : ClockFlag
deriving DecidableEq, Repr, Inhabited

/-- A cyclic schedule table. Its shape makes the length at least 1 (R90, R121). -/
structure Schedule where
  first : ScheduleEntry
  rest : List ScheduleEntry
deriving DecidableEq, Repr, Inhabited

/-- The table as the list indexed by `S.Ptr` (R111). -/
def Schedule.entries (t : Schedule) : List ScheduleEntry := t.first :: t.rest

/-- The six outcomes of the pin-2 decision tree (R180). -/
inductive Pin2Outcome where
  | iic | color | light | test | touchCandidate | sound
deriving DecidableEq, Repr, Inhabited

/-- A function of a count as plain data: the first row whose bound lies above the count gives the outcome, else
`last` (log 7). -/
structure Pin2Bands where
  rows : List (Nat × Pin2Outcome)
  last : Pin2Outcome
deriving DecidableEq, Repr, Inhabited

/-- `PIN2_TREE : (e5, e6, x1) → outcome` as plain data, one band table for each pair of event bits (R179, log 7). -/
structure Pin2Tree where
  neither : Pin2Bands
  only5 : Pin2Bands
  only6 : Pin2Bands
  both : Pin2Bands
deriving DecidableEq, Repr, Inhabited

/-- `RAWPIN_DECODE : byte → list of (role, d)` as plain data, row `b` for byte `b` (R85, log 7). -/
structure RawpinTable where
  rows : List (List (Role × ClockFlag))
deriving DecidableEq, Repr, Inhabited

/-- The `CODE` table: the numbers of the symbolic classification codes (R93). -/
structure CodeTable where
  typeNxtTouch : Byte
  typeNxtLight : Byte
  typeNxtSound : Byte
  typeNxtColor : Byte
  typeTacho : Byte
  typeMinitacho : Byte
  typeNewtacho : Byte
  typeNxtTest : Byte
  typeNxtIic : Byte
  typeUnknown : Byte
  typeNone : Byte
  typeError : Byte
  connUnknown : Byte
  connNxtColor : Byte
  connNxtDumb : Byte
  connNxtIic : Byte
  connInputDumb : Byte
  connInputUart : Byte
  connOutputDumb : Byte
  connOutputIntelligent : Byte
  connOutputTacho : Byte
  connNone : Byte
  connError : Byte
deriving DecidableEq, Repr, Inhabited

/-- The default numbers of R93 (general knowledge, PRESUMED: log 11). -/
def CodeTable.standard : CodeTable where
  typeNxtTouch := 1
  typeNxtLight := 2
  typeNxtSound := 3
  typeNxtColor := 4
  typeTacho := 7
  typeMinitacho := 8
  typeNewtacho := 9
  typeNxtTest := 101
  typeNxtIic := 123
  typeUnknown := 125
  typeNone := 126
  typeError := 127
  connUnknown := 111
  connNxtColor := 118
  connNxtDumb := 119
  connNxtIic := 120
  connInputDumb := 121
  connInputUart := 122
  connOutputDumb := 123
  connOutputIntelligent := 124
  connOutputTacho := 125
  connNone := 126
  connError := 127

/-- The symbols are distinct within each column (R93). -/
def CodeTable.distinct (c : CodeTable) : Bool :=
  decide ([c.typeNxtTouch, c.typeNxtLight, c.typeNxtSound, c.typeNxtColor, c.typeTacho, c.typeMinitacho,
    c.typeNewtacho, c.typeNxtTest, c.typeNxtIic, c.typeUnknown, c.typeNone, c.typeError].Nodup) &&
  decide ([c.connUnknown, c.connNxtColor, c.connNxtDumb, c.connNxtIic, c.connInputDumb, c.connInputUart,
    c.connOutputDumb, c.connOutputIntelligent, c.connOutputTacho, c.connNone, c.connError].Nodup)

/-- The parameters of R7 that have a value and that the spec keeps parameters (D38, D43, D13, D25; 93 P9 to P11). -/
structure Platform where
  /-- `NUM_IN`. -/
  numIn : Nat
  /-- `NUM_OUT`. -/
  numOut : Nat
  /-- `TIMER_BITS`. -/
  timerBits : Nat
  /-- `PIN2_DETECT_ENABLED`. -/
  pin2Detect : Bool
  /-- `E_CHAR_ENABLE`. -/
  eCharEnable : Byte
  /-- `E_CHAR_DISABLE`. -/
  eCharDisable : Byte
  /-- The `CODE` table. -/
  codes : CodeTable
deriving DecidableEq, Repr, Inhabited

/-- The values of R7: 12 and 4 ports, 16-bit timers, no pin-2 detection, `'1'` and `'0'`, the numbers of R93. -/
def Platform.standard : Platform where
  numIn := 12
  numOut := 4
  timerBits := 16
  pin2Detect := false
  eCharEnable := 0x31
  eCharDisable := 0x30
  codes := CodeTable.standard

/-- Every parameter of R7 that is no constant: those of `Platform` and the OPEN ones. -/
structure Params extends Platform where
  adcCmdBase : BitVec 16
  schedShort : Schedule
  schedLong : Schedule
  auxPinA : PinCell
  auxPinB : PinCell
  ringDepth : Nat
  colorInitCmd : Byte
  colorResultLen : Nat
  rawpinDecode : Option RawpinTable
  pin2Tree : Option Pin2Tree
deriving DecidableEq, Repr, Inhabited

/-- A slot that the block has (R24). -/
def Slot.exists (p : Platform) : Slot → Bool
  | .inPin1 i => decide (i < p.numIn)
  | .inPin6 i => decide (i < p.numIn)
  | .outPin5 j => decide (j < p.numOut)
  | .rail _ => true

/-- The slots a DCM rule reads or a ring push reads: each must be the destination of some entry of each table
(R121). -/
def requiredSlots (p : Platform) : List Slot :=
  (List.range p.numIn).map Slot.inPin1 ++ (List.range p.numIn).map Slot.inPin6 ++
    (List.range p.numOut).map Slot.outPin5

/-- A table that samples every required slot (R121). -/
def Schedule.covers (p : Platform) (t : Schedule) : Bool :=
  (requiredSlots p).all fun x => t.entries.any fun e => decide (e.dest = some x)

/-- A table whose every destination is a slot of the block or `DISCARD` (R121). -/
def Schedule.aims (p : Platform) (t : Schedule) : Bool :=
  t.entries.all fun e => e.dest.all fun x => x.exists p

/-- R121: what the schedule tables must satisfy. That each has an entry holds by the type. -/
def Params.tablesWellFormed (p : Params) : Bool :=
  decide (p.schedShort.entries.length < p.schedLong.entries.length) &&
    (p.schedShort.aims p.toPlatform && p.schedLong.aims p.toPlatform) &&
    (p.schedShort.covers p.toPlatform && p.schedLong.covers p.toPlatform)

/-- What a launch must satisfy: R121, and `RING_DEPTH ≥ 1` (R7; log 18). -/
def Params.wellFormed (p : Params) : Bool := p.tablesWellFormed && decide (1 ≤ p.ringDepth)

/-- The environment's answers to the oracle reads of one input port during one operation (R12, log 3). -/
structure InAnswers where
  pin2 : Bool
  pin5 : Bool
  pin6 : Bool
  ready : Bool
  result : List Byte
deriving DecidableEq, Repr, Inhabited

/-- The environment's answers to the oracle reads of one output port during one operation (R12, log 3). -/
structure OutAnswers where
  pin6 : Bool
deriving DecidableEq, Repr, Inhabited

/-- The environment's answers during one operation (R12, R45, R99). -/
structure Env where
  inp : List InAnswers
  out : List OutAnswers
deriving DecidableEq, Repr, Inhabited

/-- A ring-buffer entry: the pair `(pin1, pin6)` (R36). -/
structure RingEntry where
  pin1 : Count
  pin6 : Count
deriving DecidableEq, Repr, Inhabited

/-- The draws of `RESET` (R320: `Buf`, ring entries, colour results) and of the environment's first standing answers
(log 3): the pins and ready bits, and byte `k` of the colour result for each `k`. -/
structure ResetDraws where
  sample : Slot → Count
  ring : Nat → Nat → RingEntry
  colorRes : Nat → Nat → Byte
  envIn : Nat → InAnswers
  envOut : Nat → OutAnswers
  envResult : Nat → Nat → Byte
deriving Inhabited

namespace Config

/-- A sample table of the least length that R121 allows, so that well-formed parameters are known to exist. No
statement rests on it. -/
def leastSchedule (tail : List ScheduleEntry) : Schedule where
  first := { chan := 0, dest := some (.inPin1 0), clkA := .keep, clkB := .keep }
  rest := (requiredSlots Platform.standard).tail.map
    (fun x => { chan := 0, dest := some x, clkA := .keep, clkB := .keep }) ++ tail

/-- Parameters that satisfy R121, showing that `LaunchParams` has an element. No statement rests on it. -/
def leastParams : Params where
  toPlatform := Platform.standard
  adcCmdBase := 0
  schedShort := leastSchedule []
  schedLong := leastSchedule [{ chan := 0, dest := none, clkA := .keep, clkB := .keep }]
  auxPinA := .auxA
  auxPinB := .auxB
  ringDepth := 1
  colorInitCmd := 0
  colorResultLen := 0
  rawpinDecode := some { rows := [] }
  pin2Tree := some { neither := ⟨[], .iic⟩, only5 := ⟨[], .iic⟩, only6 := ⟨[], .iic⟩, both := ⟨[], .iic⟩ }

end Config

/-- Parameters a launch accepts (R121), those with a value at that value (R7), with a value for every OPEN parameter
(log 1, log 7). -/
structure LaunchParams where
  params : Params := Config.leastParams
  ok : params.wellFormed = true := by decide
  platform : params.toPlatform = Platform.standard := by rfl
  rawpin : params.rawpinDecode.isSome = true := by decide
  tree : params.pin2Tree.isSome = true := by decide
deriving Inhabited

namespace Config

/-- The OPEN parameters of the machine that `State.reset` launches: any well-formed ones (log 1). -/
opaque launchParams : LaunchParams

/-- The draws of the reset that `State.reset` is (R320; log 2, log 3). -/
opaque resetDraws : ResetDraws

end Config

end Sys2Proof
end

