-- ==== Sys2Proof/Syntax.lean ====
section
/-! DEFINITION. What the block is asked to do: requests on its three operation inputs (R80), the operations and state
rules of spec/opcode_table.json (one constructor of `Instr` per row), and their encodings in the table's formats. -/

namespace Sys2Proof

open Config

/-- A logical field of the host's view `Sh` (R43); there are no addresses (R60). -/
inductive HostField where
  | inType (i : Nat)
  | inConn (i : Nat)
  | outType (j : Nat)
  | outConn (j : Nat)
  | sample (slot : Slot)
  | ring (i : Nat) (k : Nat)
  | ringIdx (i : Nat)
  | inUpd (i : Nat)
  | outUpd (j : Nat)
  | colorRes (i : Nat)
deriving DecidableEq, Repr

/-- What arrives at the block's inputs (R80): a strobe vector from the timers, with the answer `SpiExchange` will give
(R99: `TICK_S spi=…`); a control write; a host store to a field of `Sh`; an ioctl (R270). -/
inductive Request where
  | strobe (v : BitVec 2) (spi : Cell16)
  | write (bytes : List Byte)
  | store (field : HostField) (value : Nat)
  | ioctl (code : Nat)
deriving DecidableEq, Repr

/-- The operations, per-port command bytes and state rules of spec/opcode_table.json, one constructor per row. -/
inductive Instr where
  /-- `TICK_S`, with the 16-bit answer of its one `SpiExchange` (R110, R112). -/
  | tickS (spi : Cell16)
  /-- `TICK_D` (R170). -/
  | tickD
  /-- `WRITE_E`: `'e'` and one character per input port (R261). -/
  | writeE (chars : List Byte)
  /-- `E_DISABLE`: the character `'0'` for port `i` (R262). -/
  | eDisable (i : Nat)
  /-- `E_ENABLE`: the character `'1'` for port `i` (R262). -/
  | eEnable (i : Nat)
  /-- `E_NOP`: the character `'-'` for port `i` (R262). -/
  | eNop (i : Nat)
  /-- `E_OTHER`: any other character for port `i` (R83, R262). -/
  | eOther (i : Nat) (c : Byte)
  /-- `WRITE_T`: `'t'` and one connection-class code per input port (R263). -/
  | writeT (codes : List Byte)
  /-- `BARE_COLOR_0D`: legacy colour command for port `i` (R266). -/
  | bareColor0D (i : Nat)
  /-- `BARE_COLOR_0E` (R266). -/
  | bareColor0E (i : Nat)
  /-- `BARE_COLOR_0F` (R266). -/
  | bareColor0F (i : Nat)
  /-- `BARE_COLOR_10` (R266). -/
  | bareColor10 (i : Nat)
  /-- `BARE_COLOR_11` (R266). -/
  | bareColor11 (i : Nat)
  /-- `BARE_RAWPIN`: legacy raw-pin byte `b` for port `i` (R267). -/
  | bareRawpin (i : Nat) (b : Byte)
  /-- `CLRUPD_IN` (R268). -/
  | clrupdIn (i : Nat)
  /-- `CLRUPD_OUT` (R268). -/
  | clrupdOut (j : Nat)
  /-- `IN_INIT` (R175). -/
  | inInit (i : Nat)
  /-- `IN_FLOATING_DELAY` (R176). -/
  | inFloatingDelay (i : Nat)
  /-- `IN_FLOATING` (R177). -/
  | inFloating (i : Nat)
  /-- `IN_CONNECTION` (R178). -/
  | inConnection (i : Nat)
  /-- `IN_PIN2_LOW` (R179, R180). -/
  | inPin2Low (i : Nat)
  /-- `IN_NXT_TOUCH_CHECK` (R181). -/
  | inNxtTouchCheck (i : Nat)
  /-- `IN_NXT_COLOR_INIT` (R182). -/
  | inNxtColorInit (i : Nat)
  /-- `IN_NXT_COLOR_WAIT` (R183). -/
  | inNxtColorWait (i : Nat)
  /-- `IN_NXT_COLOR_BUSY` (R184). -/
  | inNxtColorBusy (i : Nat)
  /-- `IN_PIN1_LOADED` (R185). -/
  | inPin1Loaded (i : Nat)
  /-- `IN_PIN6_HIGH` (R186). -/
  | inPin6High (i : Nat)
  /-- `IN_PIN5_LOW` (R187). -/
  | inPin5Low (i : Nat)
  /-- `IN_CONNECTED_WAITING_FOR_PIN2_HIGH` (R188). -/
  | inWaitPin2High (i : Nat)
  /-- `IN_CONNECTED_WAITING_FOR_PIN1_TO_FLOAT` (R189). -/
  | inWaitPin1ToFloat (i : Nat)
  /-- `IN_CONNECTED_WAITING_FOR_PIN6_LOW` (R190). -/
  | inWaitPin6Low (i : Nat)
  /-- `IN_CONNECTED_WAITING_FOR_PIN5_HIGH` (R191). -/
  | inWaitPin5High (i : Nat)
  /-- `IN_DISABLED` (R192). -/
  | inDisabled (i : Nat)
  /-- `IN_RESERVED`: a state code 17 to 31 (R193). -/
  | inReserved (i : Nat) (code : BitVec 5)
  /-- `OUT_INIT` (R221). -/
  | outInit (j : Nat)
  /-- `OUT_FLOATING_DELAY` (R222). -/
  | outFloatingDelay (j : Nat)
  /-- `OUT_FLOATING` (R223). -/
  | outFloating (j : Nat)
  /-- `OUT_WAITING_FOR_PIN6_LOW` (R224). -/
  | outWaitPin6Low (j : Nat)
  /-- `OUT_CONNECTION` (R225). -/
  | outConnection (j : Nat)
  /-- `OUT_WAITING_FOR_PIN5_LOW` (R226). -/
  | outWaitPin5Low (j : Nat)
  /-- `OUT_CONNECTED_WAITING_FOR_PORT_OPEN` (R227). -/
  | outWaitPortOpen (j : Nat)
  /-- `OUT_RESERVED`: state code 7 (R228). -/
  | outReserved (j : Nat)
deriving DecidableEq, Repr

/-- The encoding formats of spec/opcode_table.json. -/
inductive Format where
  | strobe | hostWrite | echar | bareByte | hostStore | inState | outState
deriving DecidableEq, Repr

/-- An encoded row: the table's format, its bits, and the position (port or field) the format takes them at. -/
inductive Encoding where
  | strobe (v : BitVec 2) (spi : Cell16)
  | hostWrite (bytes : List Byte)
  | echar (i : Nat) (c : Byte)
  | bareByte (i : Nat) (b : Byte)
  | hostStore (field : HostField) (value : Nat)
  | inState (i : Nat) (code : BitVec 5)
  | outState (j : Nat) (code : BitVec 3)
deriving DecidableEq, Repr

/-- The format of an encoding. -/
def Encoding.format : Encoding → Format
  | .strobe _ _ => .strobe
  | .hostWrite _ => .hostWrite
  | .echar _ _ => .echar
  | .bareByte _ _ => .bareByte
  | .hostStore _ _ => .hostStore
  | .inState _ _ => .inState
  | .outState _ _ => .outState

end Sys2Proof
end

