-- ==== Sys2Proof/WellFormed.lean ====
section
/-! DEFINITION. Which terms of `Instr` stand for a row of spec/opcode_table.json: the checks on operands that the types
do not make. -/

namespace Sys2Proof

open Config

/-- The colour command codes 0x0D to 0x11 (R85). -/
def isColorCommand (b : Byte) : Bool := decide (0x0D ≤ b.toNat) && decide (b.toNat ≤ 0x11)

/-- The first bytes that select `'e'` and `'t'` (R81). -/
def selectsCommand (b : Byte) : Bool := decide (b = 0x65) || decide (b = 0x74)

/-- A byte of the `BARE_RAWPIN` row: outside 0x0D..0x11, and at position 0 also outside 0x65, 0x74 (R85, R267). -/
def isRawpinByte (i : Nat) (b : Byte) : Bool :=
  !isColorCommand b && !(decide (i = 0) && selectsCommand b)

/-- The check on an instruction's operands: a port the block has, a length or byte that the row has. Where a platform
gives two `'e'` characters one value, the first of disable, enable, `'-'` has the word (R83). -/
def Instr.wellFormed (p : Platform) : Instr → Bool
  | .tickS _ => true
  | .tickD => true
  | .writeE chars => decide (chars.length = p.numIn)
  | .eDisable i => decide (i < p.numIn)
  | .eEnable i => decide (i < p.numIn) && decide (p.eCharEnable ≠ p.eCharDisable)
  | .eNop i => decide (i < p.numIn) && decide (0x2D ≠ p.eCharDisable) && decide (0x2D ≠ p.eCharEnable)
  | .eOther i c => decide (i < p.numIn) && decide (c ≠ p.eCharDisable) && decide (c ≠ p.eCharEnable) && decide (c ≠ 0x2D)
  | .writeT codes => decide (codes.length = p.numIn)
  | .bareColor0D i => decide (i < p.numIn)
  | .bareColor0E i => decide (i < p.numIn)
  | .bareColor0F i => decide (i < p.numIn)
  | .bareColor10 i => decide (i < p.numIn)
  | .bareColor11 i => decide (i < p.numIn)
  | .bareRawpin i b => decide (i < p.numIn) && isRawpinByte i b
  | .clrupdIn i => decide (i < p.numIn)
  | .clrupdOut j => decide (j < p.numOut)
  | .inInit i => decide (i < p.numIn)
  | .inFloatingDelay i => decide (i < p.numIn)
  | .inFloating i => decide (i < p.numIn)
  | .inConnection i => decide (i < p.numIn)
  | .inPin2Low i => decide (i < p.numIn)
  | .inNxtTouchCheck i => decide (i < p.numIn)
  | .inNxtColorInit i => decide (i < p.numIn)
  | .inNxtColorWait i => decide (i < p.numIn)
  | .inNxtColorBusy i => decide (i < p.numIn)
  | .inPin1Loaded i => decide (i < p.numIn)
  | .inPin6High i => decide (i < p.numIn)
  | .inPin5Low i => decide (i < p.numIn)
  | .inWaitPin2High i => decide (i < p.numIn)
  | .inWaitPin1ToFloat i => decide (i < p.numIn)
  | .inWaitPin6Low i => decide (i < p.numIn)
  | .inWaitPin5High i => decide (i < p.numIn)
  | .inDisabled i => decide (i < p.numIn)
  | .inReserved i code => decide (i < p.numIn) && decide (17 ≤ code.toNat)
  | .outInit j => decide (j < p.numOut)
  | .outFloatingDelay j => decide (j < p.numOut)
  | .outFloating j => decide (j < p.numOut)
  | .outWaitPin6Low j => decide (j < p.numOut)
  | .outConnection j => decide (j < p.numOut)
  | .outWaitPin5Low j => decide (j < p.numOut)
  | .outWaitPortOpen j => decide (j < p.numOut)
  | .outReserved j => decide (j < p.numOut)

/-- The instruction stands for a row of the opcode table. -/
abbrev Instr.WellFormed (p : Platform) (i : Instr) : Prop := i.wellFormed p = true

end Sys2Proof
end

