-- ==== Sys2Proof/Decode.lean ====
section
/-! DEFINITION. Decoding and encoding (30_encoding.md): state codes, drive codes, the rows of the opcode table in their
formats, control writes as byte strings, requests, and the words the host asks about. -/

namespace Sys2Proof

open Config

/-! ## State codes (R86, R87) -/

/-- The 17 input states (R86). -/
inductive InState where
  | init | floatingDelay | floating | connection | pin2Low | nxtTouchCheck | nxtColorInit | nxtColorWait
  | nxtColorBusy | pin1Loaded | pin6High | pin5Low | waitPin2High | waitPin1ToFloat | waitPin6Low | waitPin5High
  | disabled
deriving DecidableEq, Repr

/-- The code of an input state (R86). -/
def InState.code : InState → BitVec 5
  | .init => 0
  | .floatingDelay => 1
  | .floating => 2
  | .connection => 3
  | .pin2Low => 4
  | .nxtTouchCheck => 5
  | .nxtColorInit => 6
  | .nxtColorWait => 7
  | .nxtColorBusy => 8
  | .pin1Loaded => 9
  | .pin6High => 10
  | .pin5Low => 11
  | .waitPin2High => 12
  | .waitPin1ToFloat => 13
  | .waitPin6Low => 14
  | .waitPin5High => 15
  | .disabled => 16

/-- The input state a code names; `none` for the reserved codes 17 to 31 (R86, R94). -/
def inStateOf (code : BitVec 5) : Option InState :=
  match code.toNat with
  | 0 => some .init
  | 1 => some .floatingDelay
  | 2 => some .floating
  | 3 => some .connection
  | 4 => some .pin2Low
  | 5 => some .nxtTouchCheck
  | 6 => some .nxtColorInit
  | 7 => some .nxtColorWait
  | 8 => some .nxtColorBusy
  | 9 => some .pin1Loaded
  | 10 => some .pin6High
  | 11 => some .pin5Low
  | 12 => some .waitPin2High
  | 13 => some .waitPin1ToFloat
  | 14 => some .waitPin6Low
  | 15 => some .waitPin5High
  | 16 => some .disabled
  | _ => none

/-- The 7 output states (R87). -/
inductive OutState where
  | init | floatingDelay | floating | waitPin6Low | connection | waitPin5Low | waitPortOpen
deriving DecidableEq, Repr

/-- The code of an output state (R87). -/
def OutState.code : OutState → BitVec 3
  | .init => 0
  | .floatingDelay => 1
  | .floating => 2
  | .waitPin6Low => 3
  | .connection => 4
  | .waitPin5Low => 5
  | .waitPortOpen => 6

/-- The output state a code names; `none` for the reserved code 7 (R87, R94). -/
def outStateOf (code : BitVec 3) : Option OutState :=
  match code.toNat with
  | 0 => some .init
  | 1 => some .floatingDelay
  | 2 => some .floating
  | 3 => some .waitPin6Low
  | 4 => some .connection
  | 5 => some .waitPin5Low
  | 6 => some .waitPortOpen
  | _ => none

/-! ## Drive codes (R95) -/

/-- The 2-bit code of a drive (R95). -/
def Level.code : Level → BitVec 2
  | .float => 0b00
  | .low => 0b01
  | .high => 0b10

/-- The 2-bit code of a drive value, `KEEP` being `11` (R95). -/
def ClockFlag.code : ClockFlag → BitVec 2
  | .drive d => d.code
  | .keep => 0b11

/-- The drive value of a 2-bit code (R95). -/
def clockFlagOf (c : BitVec 2) : ClockFlag :=
  match c.toNat with
  | 0 => .drive .float
  | 1 => .drive .low
  | 2 => .drive .high
  | _ => .keep

/-! ## Rows of the opcode table -/

/-- Why bits of a format are no row of the opcode table. -/
inductive Reject where
  /-- The strobe vector `00` is no operation (R80). -/
  | noOperation
  /-- The strobe vector `11` is two operations, not one (R80). -/
  | bothStrobes
  /-- An empty control write (R81). -/
  | emptyWrite
  /-- An `'e'` or `'t'` write of the wrong length, ignored whole (R82, R84). -/
  | wrongLength
  /-- A control write of bare bytes is one row for each byte, not one row (R85). -/
  | bareBytes
  /-- At position 0 the bytes 0x65 and 0x74 select a command and are no bare byte (R267). -/
  | notBare
  /-- A host store to a field other than an update flag of the block, or of a value other than 0 (R268). -/
  | hostStore
  /-- A port the block does not have (R7, R260). -/
  | noSuchPort
  /-- An ioctl of the test/raw-pin interface (R270). -/
  | ioctl
deriving DecidableEq, Repr

/-- The character `c` for port `i` of an `'e'` write (R83). -/
def decodeEChar (p : Platform) (i : Nat) (c : Byte) : Instr :=
  if c = p.eCharDisable then .eDisable i
  else if c = p.eCharEnable then .eEnable i
  else if c = 0x2D then .eNop i
  else .eOther i c

/-- The byte `b` for port `i` of a bare write (R85). -/
def decodeBareByte (i : Nat) (b : Byte) : Instr :=
  if b = 0x0D then .bareColor0D i
  else if b = 0x0E then .bareColor0E i
  else if b = 0x0F then .bareColor0F i
  else if b = 0x10 then .bareColor10 i
  else if b = 0x11 then .bareColor11 i
  else .bareRawpin i b

/-- The state rule the code in `In[i].State` dispatches to (R172). -/
def decodeInState (i : Nat) (code : BitVec 5) : Instr :=
  match inStateOf code with
  | some .init => .inInit i
  | some .floatingDelay => .inFloatingDelay i
  | some .floating => .inFloating i
  | some .connection => .inConnection i
  | some .pin2Low => .inPin2Low i
  | some .nxtTouchCheck => .inNxtTouchCheck i
  | some .nxtColorInit => .inNxtColorInit i
  | some .nxtColorWait => .inNxtColorWait i
  | some .nxtColorBusy => .inNxtColorBusy i
  | some .pin1Loaded => .inPin1Loaded i
  | some .pin6High => .inPin6High i
  | some .pin5Low => .inPin5Low i
  | some .waitPin2High => .inWaitPin2High i
  | some .waitPin1ToFloat => .inWaitPin1ToFloat i
  | some .waitPin6Low => .inWaitPin6Low i
  | some .waitPin5High => .inWaitPin5High i
  | some .disabled => .inDisabled i
  | none => .inReserved i code

/-- The state rule the code in `Out[j].State` dispatches to (R220). -/
def decodeOutState (j : Nat) (code : BitVec 3) : Instr :=
  match outStateOf code with
  | some .init => .outInit j
  | some .floatingDelay => .outFloatingDelay j
  | some .floating => .outFloating j
  | some .waitPin6Low => .outWaitPin6Low j
  | some .connection => .outConnection j
  | some .waitPin5Low => .outWaitPin5Low j
  | some .waitPortOpen => .outWaitPortOpen j
  | none => .outReserved j

/-- The host store of `value` to `field`: only a 0 to an update flag of the block is an operation (R268). -/
def decodeStore (p : Platform) (field : HostField) (value : Nat) : Except Reject Instr :=
  match field, value with
  | .inUpd i, 0 => if i < p.numIn then .ok (.clrupdIn i) else .error .hostStore
  | .outUpd j, 0 => if j < p.numOut then .ok (.clrupdOut j) else .error .hostStore
  | _, _ => .error .hostStore

/-- The row a control write as a whole encodes, if it is one (R81, R82, R84). -/
def decodeHostWrite (p : Platform) : List Byte → Except Reject Instr
  | [] => .error .emptyWrite
  | b :: rest =>
    if b = 0x65 then
      if rest.length = p.numIn then .ok (.writeE rest) else .error .wrongLength
    else if b = 0x74 then
      if rest.length = p.numIn then .ok (.writeT rest) else .error .wrongLength
    else .error .bareBytes

/-- The strobe vector (R80). -/
def decodeStrobe (v : BitVec 2) (spi : Cell16) : Except Reject Instr :=
  match v.toNat with
  | 0 => .error .noOperation
  | 1 => .ok (.tickS spi)
  | 2 => .ok .tickD
  | _ => .error .bothStrobes

/-- The decoder: the row of the opcode table that an encoding is, total on every encoding. -/
def decode (p : Platform) : Encoding → Except Reject Instr
  | .strobe v spi => decodeStrobe v spi
  | .hostWrite bytes => decodeHostWrite p bytes
  | .echar i c => if i < p.numIn then .ok (decodeEChar p i c) else .error .noSuchPort
  | .bareByte i b =>
    if p.numIn ≤ i then .error .noSuchPort
    else if i = 0 ∧ selectsCommand b then .error .notBare
    else .ok (decodeBareByte i b)
  | .hostStore field value => decodeStore p field value
  | .inState i code => if i < p.numIn then .ok (decodeInState i code) else .error .noSuchPort
  | .outState j code => if j < p.numOut then .ok (decodeOutState j code) else .error .noSuchPort

/-- The encoder: the bits of a row, from the same tables of 30_encoding.md. -/
def encode (p : Platform) : Instr → Encoding
  | .tickS spi => .strobe 0b01 spi
  | .tickD => .strobe 0b10 0
  | .writeE chars => .hostWrite (0x65 :: chars)
  | .eDisable i => .echar i p.eCharDisable
  | .eEnable i => .echar i p.eCharEnable
  | .eNop i => .echar i 0x2D
  | .eOther i c => .echar i c
  | .writeT codes => .hostWrite (0x74 :: codes)
  | .bareColor0D i => .bareByte i 0x0D
  | .bareColor0E i => .bareByte i 0x0E
  | .bareColor0F i => .bareByte i 0x0F
  | .bareColor10 i => .bareByte i 0x10
  | .bareColor11 i => .bareByte i 0x11
  | .bareRawpin i b => .bareByte i b
  | .clrupdIn i => .hostStore (.inUpd i) 0
  | .clrupdOut j => .hostStore (.outUpd j) 0
  | .inInit i => .inState i 0b00000
  | .inFloatingDelay i => .inState i 0b00001
  | .inFloating i => .inState i 0b00010
  | .inConnection i => .inState i 0b00011
  | .inPin2Low i => .inState i 0b00100
  | .inNxtTouchCheck i => .inState i 0b00101
  | .inNxtColorInit i => .inState i 0b00110
  | .inNxtColorWait i => .inState i 0b00111
  | .inNxtColorBusy i => .inState i 0b01000
  | .inPin1Loaded i => .inState i 0b01001
  | .inPin6High i => .inState i 0b01010
  | .inPin5Low i => .inState i 0b01011
  | .inWaitPin2High i => .inState i 0b01100
  | .inWaitPin1ToFloat i => .inState i 0b01101
  | .inWaitPin6Low i => .inState i 0b01110
  | .inWaitPin5High i => .inState i 0b01111
  | .inDisabled i => .inState i 0b10000
  | .inReserved i code => .inState i code
  | .outInit j => .outState j 0b000
  | .outFloatingDelay j => .outState j 0b001
  | .outFloating j => .outState j 0b010
  | .outWaitPin6Low j => .outState j 0b011
  | .outConnection j => .outState j 0b100
  | .outWaitPin5Low j => .outState j 0b101
  | .outWaitPortOpen j => .outState j 0b110
  | .outReserved j => .outState j 0b111

/-! ## Requests -/

/-- What a request comes to: the rows it runs, in order, as one atomic operation (R66); or a rejection by name. -/
inductive Decoded where
  | operations (is : List Instr)
  | rejected (r : Reject)
deriving DecidableEq, Repr

/-- The rows of a bare write: byte `i` for port `i`, bytes past `NUM_IN` ignored (R85, R265). That they run in ascending port
order is the model's choice, DESIGN CHOICE (log 19). -/
def bareInstrs (p : Platform) (bytes : List Byte) : List Instr :=
  (List.range p.numIn).filterMap fun i => (bytes[i]?).map (decodeBareByte i)

/-- A control write (R81): `'e'`, `'t'`, bare bytes, or ignored. -/
def decodeWrite (p : Platform) (bytes : List Byte) : List Instr :=
  match decodeHostWrite p bytes with
  | .ok i => [i]
  | .error .bareBytes => bareInstrs p bytes
  | .error _ => []

/-- A request on the block's inputs (R80). Strobes seen together are taken sampler first (log 10). -/
def decodeRequest (p : Platform) : Request → Decoded
  | .strobe v spi =>
    match v.toNat with
    | 0 => .operations []
    | 1 => .operations [.tickS spi]
    | 2 => .operations [.tickD]
    | _ => .operations [.tickS spi, .tickD]
  | .write bytes => .operations (decodeWrite p bytes)
  | .store field value =>
    match decodeStore p field value with
    | .ok i => .operations [i]
    | .error r => .rejected r
  | .ioctl _ => .rejected .ioctl

/-! ## Pseudo-operations (R100), as the byte strings they expand to -/

/-- An `'e'` write with `c` at position `i` and `'-'` elsewhere. -/
def eWriteAt (p : Platform) (i : Nat) (c : Byte) : List Byte :=
  0x65 :: (List.replicate p.numIn (0x2D : Byte)).set i c

/-- `DISABLE i`. -/
def pseudoDisable (p : Platform) (i : Nat) : List Byte := eWriteAt p i p.eCharDisable

/-- `ENABLE i`. -/
def pseudoEnable (p : Platform) (i : Nat) : List Byte := eWriteAt p i p.eCharEnable

/-- `FORCE i, code`, given the current `Sh.InConn`. -/
def pseudoForce (conns : List Byte) (i : Nat) (code : Byte) : List Byte := 0x74 :: conns.set i code

/-! ## The words of spec/opcode_table.json (log 9) -/

/-- The first `n` bytes of a word, bits 7..0 first. -/
def bytesOfWord : Nat → Nat → List Byte
  | 0, _ => []
  | n + 1, w => BitVec.ofNat 8 w :: bytesOfWord n (w / 256)

/-- The encoding that a word of the opcode table stands for. One byte: a strobe vector (0x01, 0x02), a named `'e'`
character of R7's values or `'-'` for port 0, or a bare byte for port 0. More bytes: a control write. The operand bits the
table does not give (the SPI answer, the port) are zeros (log 9). -/
def tableEncoding (nbits w : Nat) : Encoding :=
  if nbits ≤ 8 then
    let b : Byte := BitVec.ofNat 8 w
    if b = 0x01 ∨ b = 0x02 then .strobe (BitVec.ofNat 2 w) 0
    else if b = Platform.standard.eCharDisable ∨ b = Platform.standard.eCharEnable ∨ b = 0x2D then .echar 0 b
    else .bareByte 0 b
  else .hostWrite (bytesOfWord ((nbits + 7) / 8) w)

/-- The instruction the decoder reads from a word of the opcode table, under the values of R7. -/
def decodeTableWord (nbits w : Nat) : Option Instr :=
  match decode Platform.standard (tableEncoding nbits w) with
  | .ok i => some i
  | .error _ => none

/-- The request that brings an encoding to the block: a strobe, a store, or the control write that carries the byte at
its position. A state code is brought by no request; a DCM strobe runs it where `State` holds it (R172, R220). -/
def carrier (p : Platform) : Encoding → Request
  | .strobe v spi => .strobe v spi
  | .hostWrite bytes => .write bytes
  | .echar i c => .write (eWriteAt p i c)
  | .bareByte i b => .write (List.replicate i 0x00 ++ [b])
  | .hostStore field value => .store field value
  | .inState _ _ => .strobe 0b10 0
  | .outState _ _ => .strobe 0b10 0

end Sys2Proof
end

