-- ==== Sys2Proof/Machine/State.lean ====
section
/-! DEFINITION. The state of the DCM-ADC block (10_state.md) as plain data, why a step can stop, and `RESET` (R320). -/

namespace Sys2Proof.Machine

open Sys2Proof Config

/-- The block raises no exception and no operation has a fault outcome (R290): there is no fault. -/
inductive Fault where
deriving DecidableEq, Repr

/-- Why a step has no meaning (R295). Every refusal is safe: the run stops where the spec speaks of none. -/
inductive Refusal where
  /-- Raised by `exec` for an instruction without a meaning. No arm does so. Safe. -/
  | notModelled (mnemonic : String)
  /-- Raised by a raw-pin byte for a disabled port where `RAWPIN_DECODE` has no value (R267, R295 (a)). Safe. -/
  | rawpinDecodeAbsent
  /-- Raised by an ioctl of the test/raw-pin interface (R270, R295 (b)). Safe. -/
  | ioctlRefused
  /-- Raised by a host store other than a clear of an update flag (R268, R295 (c)). Safe. -/
  | hostStoreRefused
  /-- Raised by a launch whose schedule tables fail R121 (R295 (d)). Safe. -/
  | scheduleTablesIllFormed
  /-- Raised by a launch whose `RING_DEPTH` is 0, outside the range of R7 (log 18). Safe. -/
  | ringDepthZero
  /-- Raised by a `PIN2_LOW` rule where `PIN2_TREE` has no value (R179, R295 (e)). Safe. -/
  | pin2TreeAbsent
  /-- Raised by a sampler tick whose pointer lies past its table, against the invariant of R23 (log 6). Safe. -/
  | schedulePointerOutside
  /-- Raised by a row for a port the block does not have; no request and no dispatch comes to one (log 12). Safe. -/
  | portOutside
deriving DecidableEq, Repr

/-- The active schedule table (R22). -/
inductive TableSel where
  | short | long
deriving DecidableEq, Repr, Inhabited

/-- SHORT = 0, LONG = 1 (R22). -/
def TableSel.code : TableSel → BitVec 1
  | .short => 0
  | .long => 1

/-- The sampler's registers (R22, R23). -/
structure Sampler where
  sel : TableSel
  ptr : Nat
deriving DecidableEq, Repr, Inhabited

/-- The shared sample buffer (R24): 16-bit cells by slot. -/
structure SampleBuf where
  inPin1 : List Cell16
  inPin6 : List Cell16
  outPin5 : List Cell16
  rail : Vector Cell16 numRail
deriving DecidableEq, Repr, Inhabited

/-- The drive cells of an input port's physical pins (R33, log 8). -/
structure Drives where
  pin1 : Level
  pin2 : Level
  pin5 : Level
  pin6 : Level
  auxA : Level
  auxB : Level
deriving DecidableEq, Repr, Inhabited

/-- The drive cells of an output port (R41). -/
structure OutDrives where
  pin5 : Level
  pin6 : Level
deriving DecidableEq, Repr, Inhabited

/-- The record `In[i]` (R27 to R36). `timer` counts DCM ticks and saturates at `2^TIMER_BITS - 1` (R10, R14, R30). -/
structure InPort where
  state : BitVec 5
  oldState : BitVec 5
  event : BitVec 4
  timer : Nat
  value : Count
  connected : Bool
  drv : Drives
  fsmEnabled : Bool
  colorActive : Bool
  sessionOpen : Bool
  ring : List RingEntry
  ringIdx : Nat
deriving DecidableEq, Repr, Inhabited

/-- The record `Out[j]` (R37 to R41), its `timer` as an input port's (R14, R39). -/
structure OutPort where
  state : BitVec 3
  oldState : BitVec 3
  event : BitVec 2
  connEvent : BitVec 2
  timer : Nat
  value5Float : Count
  value5Low : Count
  connected : Bool
  drv : OutDrives
deriving DecidableEq, Repr, Inhabited

/-- Port `i`'s fields of the shared structure: `Sh.InType`, `Sh.InConn`, `Sh.InUpd`, `Sh.InColorRes` (R43, R44). -/
structure InShared where
  devType : Byte
  connClass : Byte
  upd : Bool
  colorRes : List Byte
deriving DecidableEq, Repr, Inhabited

/-- Port `j`'s fields of the shared structure: `Sh.OutType`, `Sh.OutConn`, `Sh.OutUpd` (R43, R44). -/
structure OutShared where
  devType : Byte
  connClass : Byte
  upd : Bool
deriving DecidableEq, Repr, Inhabited

/-- A pin of the block, as `Drive` names it (R12). Output ports have the roles PIN5 and PIN6 (R41). -/
inductive PinRef where
  | inp (i : Nat) (role : Role)
  | outPin5 (j : Nat)
  | outPin6 (j : Nat)
deriving DecidableEq, Repr

/-- An oracle call that has a side effect (R65; log 5). -/
inductive OracleCall where
  | spiExchange (w : Cell16)
  | drive (pin : PinRef) (d : Level)
  | colorStart (i : Nat) (cmd : Byte)
  | colorStop (i : Nat)
deriving DecidableEq, Repr

/-- A request with the answers the environment gives while it is served (log 3, log 4). -/
structure Arrival where
  env : Env
  request : Request
deriving DecidableEq, Repr

/-- The state: the records of the ports are lists with one place for each port (R7, log 12). `cfg` is read only (log 1);
`env`, `pending` and `calls` are the model's own (log 3, log 4, log 5). -/
structure State where
  cfg : Params
  samp : Sampler
  buf : SampleBuf
  inp : List InPort
  out : List OutPort
  shIn : List InShared
  shOut : List OutShared
  env : Env
  pending : List Arrival
  calls : List OracleCall
deriving DecidableEq, Repr

/-- A buffer slot after reset: a 12-bit draw, bits 15..12 zero (R25, R320). -/
def resetSlot (d : ResetDraws) (x : Slot) : Cell16 := (d.sample x).setWidth 16

/-- `In[i]` after reset (R320). -/
def resetInPort (p : Params) (d : ResetDraws) (i : Nat) : InPort where
  state := InState.init.code
  oldState := InState.init.code
  event := 0
  timer := 0
  value := 0
  connected := false
  drv := { pin1 := .float, pin2 := .float, pin5 := .float, pin6 := .float, auxA := .float, auxB := .float }
  fsmEnabled := true
  colorActive := false
  sessionOpen := false
  ring := (List.range p.ringDepth).map (d.ring i)
  ringIdx := 0

/-- `Out[j]` after reset (R320). -/
def resetOutPort : OutPort where
  state := OutState.init.code
  oldState := OutState.init.code
  event := 0
  connEvent := 0
  timer := 0
  value5Float := 0
  value5Low := 0
  connected := false
  drv := { pin5 := .float, pin6 := .float }

/-- The standing answers after reset: any, colour results of `COLOR_RESULT_LEN` bytes (R12, log 3). -/
def resetEnv (p : Params) (d : ResetDraws) : Env where
  inp := (List.range p.numIn).map fun i => { d.envIn i with result := (List.range p.colorResultLen).map (d.envResult i) }
  out := (List.range p.numOut).map d.envOut

/-- `RESET` with the parameters and draws given (R320). It calls no oracle. -/
def State.resetWith (p : Params) (d : ResetDraws) : State where
  cfg := p
  samp := { sel := .short, ptr := 0 }
  buf :=
    { inPin1 := (List.range p.numIn).map fun i => resetSlot d (.inPin1 i)
      inPin6 := (List.range p.numIn).map fun i => resetSlot d (.inPin6 i)
      outPin5 := (List.range p.numOut).map fun j => resetSlot d (.outPin5 j)
      rail := Vector.ofFn fun k => resetSlot d (.rail k) }
  inp := (List.range p.numIn).map (resetInPort p d)
  out := List.replicate p.numOut resetOutPort
  shIn := (List.range p.numIn).map fun i =>
    { devType := p.codes.typeNone, connClass := p.codes.connNone, upd := false,
      colorRes := (List.range p.colorResultLen).map (d.colorRes i) }
  shOut := List.replicate p.numOut { devType := p.codes.typeNone, connClass := p.codes.connNone, upd := false }
  env := resetEnv p d
  pending := []
  calls := []

/-- The parameters of the machine right after reset: those with a value at the value of R7, the OPEN ones those of an
accepted launch (log 1, log 11). -/
def resetParams : Params := { Config.launchParams.params with toPlatform := Platform.standard }

/-- The machine right after reset (R320). -/
def State.reset : State := State.resetWith resetParams Config.resetDraws

end Sys2Proof.Machine
end

