-- ==== Sys2Proof/Machine/Ops.lean ====
section
/-! DEFINITION. The named operations over registers, buffer, shared structure and pins; every meaning reads and writes
the state through these. The block takes no trap (R290, R299, R300): there is no exception entry and no return. -/

namespace Sys2Proof.Machine

open Sys2Proof Config

/-! ## Access by port

The places of a list are the ports of the block. A place past the end reads as the default record, and a write there makes
the list as long as it takes; rows for a port that the block does not have are refused (`onIn`, `onOut`), so neither
happens in a launched block (log 12). -/

/-- The place `i` of a list of ports. -/
def portAt {α : Type} [Inhabited α] (l : List α) (i : Nat) : α := l.getD i default

/-- Write the place `i` of a list of ports. -/
def putPort {α : Type} [Inhabited α] : List α → Nat → α → List α
  | [], 0, v => [v]
  | [], i + 1, v => default :: putPort [] i v
  | _ :: l, 0, v => v :: l
  | x :: l, i + 1, v => x :: putPort l i v

/-- `In[i]`. -/
def State.inAt (s : State) (i : Nat) : InPort := portAt s.inp i
/-- `Out[j]`. -/
def State.outAt (s : State) (j : Nat) : OutPort := portAt s.out j
/-- The fields of `Sh` for input port `i`. -/
def State.shInAt (s : State) (i : Nat) : InShared := portAt s.shIn i
/-- The fields of `Sh` for output port `j`. -/
def State.shOutAt (s : State) (j : Nat) : OutShared := portAt s.shOut j
/-- The environment's answers for input port `i`. -/
def State.inAnswers (s : State) (i : Nat) : InAnswers := portAt s.env.inp i
/-- The environment's answers for output port `j`. -/
def State.outAnswers (s : State) (j : Nat) : OutAnswers := portAt s.env.out j

/-- Write `In[i]`. -/
def State.setIn (s : State) (i : Nat) (p : InPort) : State := { s with inp := putPort s.inp i p }
/-- Write `Out[j]`. -/
def State.setOut (s : State) (j : Nat) (p : OutPort) : State := { s with out := putPort s.out j p }
/-- Write the fields of `Sh` for input port `i`. -/
def State.setShIn (s : State) (i : Nat) (p : InShared) : State := { s with shIn := putPort s.shIn i p }
/-- Write the fields of `Sh` for output port `j`. -/
def State.setShOut (s : State) (j : Nat) (p : OutShared) : State := { s with shOut := putPort s.shOut j p }

/-! ## The sample buffer -/

/-- Read a slot (R24). -/
def SampleBuf.read (b : SampleBuf) : Slot → Cell16
  | .inPin1 i => portAt b.inPin1 i
  | .inPin6 i => portAt b.inPin6 i
  | .outPin5 j => portAt b.outPin5 j
  | .rail k => b.rail.get k

/-- One 16-bit store to a slot (R64). -/
def SampleBuf.write (b : SampleBuf) (x : Slot) (v : Cell16) : SampleBuf :=
  match x with
  | .inPin1 i => { b with inPin1 := putPort b.inPin1 i v }
  | .inPin6 i => { b with inPin6 := putPort b.inPin6 i v }
  | .outPin5 j => { b with outPin5 := putPort b.outPin5 j v }
  | .rail k => { b with rail := b.rail.set k.val v k.isLt }

/-- `Buf[slot]`. -/
def State.bufAt (s : State) (x : Slot) : Cell16 := s.buf.read x

/-- `Buf[slot] <- v`. -/
def State.setBuf (s : State) (x : Slot) (v : Cell16) : State := { s with buf := s.buf.write x v }

/-- Write the sampler's registers. -/
def State.setSamp (s : State) (p : Sampler) : State := { s with samp := p }

/-! ## Oracle calls and pins -/

/-- Record side-effecting oracle calls, in order (R65, log 5). -/
def State.addCalls (s : State) (cs : List OracleCall) : State := { s with calls := s.calls ++ cs }

/-- The physical pin a role names; the auxiliary roles are parameters and may share another role's pin (R33). -/
def cellOf (cfg : Params) : Role → PinCell
  | .pin1 => .pin1
  | .pin2 => .pin2
  | .pin5 => .pin5
  | .pin6 => .pin6
  | .auxA => cfg.auxPinA
  | .auxB => cfg.auxPinB

/-- The drive of a physical pin. -/
def Drives.read (d : Drives) : PinCell → Level
  | .pin1 => d.pin1
  | .pin2 => d.pin2
  | .pin5 => d.pin5
  | .pin6 => d.pin6
  | .auxA => d.auxA
  | .auxB => d.auxB

/-- Write the drive of a physical pin. -/
def Drives.write (d : Drives) (c : PinCell) (l : Level) : Drives :=
  match c with
  | .pin1 => { d with pin1 := l }
  | .pin2 => { d with pin2 := l }
  | .pin5 => { d with pin5 := l }
  | .pin6 => { d with pin6 := l }
  | .auxA => { d with auxA := l }
  | .auxB => { d with auxB := l }

/-- `In[i].Drv[role]` (R33). -/
def State.drvAt (s : State) (i : Nat) (role : Role) : Level := (s.inAt i).drv.read (cellOf s.cfg role)

/-! ## What an operation on one port reads and writes

A state rule, a host command byte and the sampler's clocking of a port run on the view of the port: the record, the port's
fields of `Sh`, and the calls made. That they reach nothing else of the state is so by construction. -/

/-- What an input state rule may write, and the oracle calls it has made so far. -/
structure InView where
  port : InPort
  sh : InShared
  calls : List OracleCall

/-- What an input state rule reads besides its port: the port's number, the parameters, `Buf[InPin1[i]]` and the
environment's answers. -/
structure InCtx where
  idx : Nat
  cfg : Params
  sample : Cell16
  ans : InAnswers

/-- What an output state rule may write, and the oracle calls it has made so far. -/
structure OutView where
  port : OutPort
  sh : OutShared
  calls : List OracleCall

/-- What an output state rule reads besides its port: the port's number, the parameters, `Buf[OutPin5[j]]` and the
environment's answers. -/
structure OutCtx where
  idx : Nat
  cfg : Params
  sample : Cell16
  ans : OutAnswers

/-- The view of input port `i`. -/
def State.viewIn (s : State) (i : Nat) : InView := { port := s.inAt i, sh := s.shInAt i, calls := [] }

/-- What a rule of input port `i` reads besides its view. -/
def State.ctxIn (s : State) (i : Nat) : InCtx :=
  { idx := i, cfg := s.cfg, sample := s.bufAt (.inPin1 i), ans := s.inAnswers i }

/-- Write back the view of input port `i`. -/
def State.putIn (s : State) (i : Nat) (v : InView) : State :=
  ((s.setIn i v.port).setShIn i v.sh).addCalls v.calls

/-- The view of output port `j`. -/
def State.viewOut (s : State) (j : Nat) : OutView := { port := s.outAt j, sh := s.shOutAt j, calls := [] }

/-- What a rule of output port `j` reads besides its view. -/
def State.ctxOut (s : State) (j : Nat) : OutCtx :=
  { idx := j, cfg := s.cfg, sample := s.bufAt (.outPin5 j), ans := s.outAnswers j }

/-- Write back the view of output port `j`. -/
def State.putOut (s : State) (j : Nat) (v : OutView) : State :=
  ((s.setOut j v.port).setShOut j v.sh).addCalls v.calls

/-- Run `f` on the view of input port `i`. -/
def State.runIn (s : State) (i : Nat) (f : InCtx → InView → InView) : State :=
  s.putIn i (f (s.ctxIn i) (s.viewIn i))

/-- Run `f` on the view of output port `j`. -/
def State.runOut (s : State) (j : Nat) (f : OutCtx → OutView → OutView) : State :=
  s.putOut j (f (s.ctxOut j) (s.viewOut j))

/-- A row for input port `i`: `o` where the block has the port (log 12). -/
def onIn (i : Nat) (s : State) (o : Host.Outcome State Fault Refusal) : Host.Outcome State Fault Refusal :=
  if i < s.cfg.numIn then o else .refused .portOutside

/-- A row for output port `j`: `o` where the block has the port (log 12). -/
def onOut (j : Nat) (s : State) (o : Host.Outcome State Fault Refusal) : Host.Outcome State Fault Refusal :=
  if j < s.cfg.numOut then o else .refused .portOutside

/-- `In[i].State <- st`. -/
def InView.goto (v : InView) (st : InState) : InView := { v with port := { v.port with state := st.code } }

/-- `Out[j].State <- st`. -/
def OutView.goto (v : OutView) (st : OutState) : OutView := { v with port := { v.port with state := st.code } }

/-- `Sh.InType[i] <- t; Sh.InConn[i] <- c`. -/
def InView.classify (v : InView) (t c : Byte) : InView := { v with sh := { v.sh with devType := t, connClass := c } }

/-- `Sh.OutType[j] <- t; Sh.OutConn[j] <- c`. -/
def OutView.classify (v : OutView) (t c : Byte) : OutView :=
  { v with sh := { v.sh with devType := t, connClass := c } }

/-- `Drive(IN i, role, d)` in an operation on port `i` (R12). -/
def InView.drive (c : InCtx) (v : InView) (role : Role) (d : Level) : InView :=
  { v with
    port := { v.port with drv := v.port.drv.write (cellOf c.cfg role) d }
    calls := v.calls ++ [.drive (.inp c.idx role) d] }

/-- `if d ≠ KEEP then Drive(IN i, role, d)` (R115, R267). -/
def InView.flag (c : InCtx) (v : InView) (role : Role) (d : ClockFlag) : InView :=
  match d with
  | .drive l => v.drive c role l
  | .keep => v

/-- `Drive(OUT j, PIN5, d)` in a rule of port `j`. -/
def OutView.drivePin5 (c : OutCtx) (v : OutView) (d : Level) : OutView :=
  { v with
    port := { v.port with drv := { v.port.drv with pin5 := d } }
    calls := v.calls ++ [.drive (.outPin5 c.idx) d] }

/-- `Drive(OUT j, PIN6, d)` in a rule of port `j`. -/
def OutView.drivePin6 (c : OutCtx) (v : OutView) (d : Level) : OutView :=
  { v with
    port := { v.port with drv := { v.port.drv with pin6 := d } }
    calls := v.calls ++ [.drive (.outPin6 c.idx) d] }

/-- `ColorStart(i, cmd); In[i].SessionOpen <- 1` (R182, R266). -/
def InView.openSession (c : InCtx) (v : InView) (cmd : Byte) : InView :=
  { v with
    port := { v.port with sessionOpen := true }
    calls := v.calls ++ [.colorStart c.idx cmd] }

/-- `ColorStop(i); In[i].SessionOpen <- 0` (R175, R183, R184). -/
def InView.closeSession (c : InCtx) (v : InView) : InView :=
  { v with
    port := { v.port with sessionOpen := false }
    calls := v.calls ++ [.colorStop c.idx] }

/-! ## Sequencing -/

/-- Go on from a next state; keep a stop. -/
def andThen (o : Host.Outcome State Fault Refusal) (f : State → Host.Outcome State Fault Refusal) :
    Host.Outcome State Fault Refusal :=
  match o with
  | .next s => f s
  | .fault r => .fault r
  | .refused r => .refused r

/-- Run `f` for each element in order, as one transition: a stop of any is the stop of the whole (R66, R295). -/
def forEach {α : Type} (f : α → State → Host.Outcome State Fault Refusal) :
    List α → State → Host.Outcome State Fault Refusal
  | [], s => .next s
  | a :: rest, s => andThen (f a s) (forEach f rest)

/-! ## Launch and the host's observations -/

/-- A launch: `RESET` with the given parameters and draws, refused where the schedule tables fail R121 (R295 (d)) and
where `RING_DEPTH` is 0 (R7; log 18). -/
def launch (p : Params) (d : ResetDraws) : Host.Outcome State Fault Refusal :=
  if p.tablesWellFormed = false then .refused .scheduleTablesIllFormed
  else if p.ringDepth = 0 then .refused .ringDepthZero
  else .next (State.resetWith p d)

/-- A value of a logical field. -/
inductive HostValue where
  | code (b : Byte)
  | cell (v : Cell16)
  | pair (e : RingEntry)
  | index (n : Nat)
  | flag (b : Bool)
  | bytes (l : List Byte)
deriving DecidableEq, Repr

/-- The field exists: its port or slot is one of the block's. -/
def fieldExists (p : Platform) : HostField → Bool
  | .inType i => decide (i < p.numIn)
  | .inConn i => decide (i < p.numIn)
  | .outType j => decide (j < p.numOut)
  | .outConn j => decide (j < p.numOut)
  | .sample x => x.exists p
  | .ring i _ => decide (i < p.numIn)
  | .ringIdx i => decide (i < p.numIn)
  | .inUpd i => decide (i < p.numIn)
  | .outUpd j => decide (j < p.numOut)
  | .colorRes i => decide (i < p.numIn)

/-- What a field of `Sh` holds; `none` at a ring position at or past `RING_DEPTH`. -/
def State.fieldAt (s : State) : HostField → Option HostValue
  | .inType i => some (.code (s.shInAt i).devType)
  | .inConn i => some (.code (s.shInAt i).connClass)
  | .outType j => some (.code (s.shOutAt j).devType)
  | .outConn j => some (.code (s.shOutAt j).connClass)
  | .sample x => some (.cell (s.bufAt x))
  | .ring i k => ((s.inAt i).ring[k]?).map HostValue.pair
  | .ringIdx i => some (.index (s.inAt i).ringIdx)
  | .inUpd i => some (.flag (s.shInAt i).upd)
  | .outUpd j => some (.flag (s.shOutAt j).upd)
  | .colorRes i => some (.bytes (s.shInAt i).colorRes)

/-- A host read of a field of `Sh` between two operations; it changes nothing (R269). `none`: no such field. -/
def State.hostRead (s : State) (f : HostField) : Option HostValue :=
  if fieldExists s.cfg.toPlatform f then s.fieldAt f else none

/-- The byte view of a 16-bit cell, little-endian (R63). -/
def cellBytes (v : Cell16) : List Byte := [v.setWidth 8, (v >>> 8).setWidth 8]

/-- Take the next request: its answers become the standing ones and the call record starts empty (log 3, log 4, log 5). -/
def State.accept (s : State) (a : Arrival) (rest : List Arrival) : State :=
  { s with env := a.env, pending := rest, calls := [] }

/-- The refusal that a rejected request comes to (R295). -/
def refusalOf : Reject → Refusal
  | .ioctl => .ioctlRefused
  | _ => .hostStoreRefused

end Sys2Proof.Machine
end

