-- ==== Sys2Proof/Machine/Operands.lean ====
section
/-! DEFINITION. The operands of the rules: thresholds in counts (R8), delays in ticks (R9), comparators (R140 to R142),
samples, the pin-2 tree and the raw-pin decode, and the output band tables (R229, R230). -/

namespace Sys2Proof.Machine

open Sys2Proof Config

/-! ## Conversions -/

/-- `VtoC(mv) = floor(mv * ADC_RES / ADC_REF_MV)` (R8). -/
def vToC (mv : Nat) : Nat := mv * adcRes / adcRefMv

/-- `TICKS(ms) = ms / DCM_PERIOD_MS` (R9). -/
def ticksOf (ms : Nat) : Nat := ms / dcmPeriodMs

/-- `T_IN1_NEAR_5V` (R8). -/
def tIn1Near5v : Nat := vToC in1Near5vMv
/-- `T_IN1_NEAR_PIN2` (R8). -/
def tIn1NearPin2 : Nat := vToC in1NearPin2Mv
/-- `T_IN1_NEAR_GND` (R8). -/
def tIn1NearGnd : Nat := vToC in1NearGndMv
/-- `T_OUT5_BAL_HIGH` (R8). -/
def tOut5BalHigh : Nat := vToC out5BalanceHighMv
/-- `T_OUT5_BAL_LOW` (R8). -/
def tOut5BalLow : Nat := vToC out5BalanceLowMv
/-- `T_OUT5_IIC_HIGH` (R8). -/
def tOut5IicHigh : Nat := vToC out5IicHighMv
/-- `T_OUT5_IIC_LOW` (R8). -/
def tOut5IicLow : Nat := vToC out5IicLowMv
/-- `T_OUT5_NEAR_GND` (R8). -/
def tOut5NearGnd : Nat := vToC out5NearGndMv
/-- `T_OUT5_NEWTACHO_LOW2` (R8). -/
def tOut5NewtachoLow2 : Nat := vToC out5NewtachoLow2Mv
/-- `T_OUT5_MINITACHO_LOW2` (R8). -/
def tOut5MinitachoLow2 : Nat := vToC out5MinitachoLow2Mv

/-- `CONNECT_TICKS` (R9). -/
def connectTicks : Nat := ticksOf connectStableMs
/-- `DISCONNECT_TICKS` (R9). -/
def disconnectTicks : Nat := ticksOf disconnectStableMs
/-- `FLOAT_TICKS` (R9). -/
def floatTicks : Nat := ticksOf floatingDelayMs
/-- `LOW_TICKS` (R9). -/
def lowTicks : Nat := ticksOf lowDelayMs
/-- `TOUCH_TICKS` (R9). -/
def touchTicks : Nat := ticksOf touchDelayMs
/-- `COLOR_TIMEOUT_TICKS` (R9). -/
def colorTimeoutTicks : Nat := ticksOf colorTimeoutMs

/-! ## Comparators -/

/-- `below(x, T)` (R140). -/
def below (x t : Nat) : Bool := decide (x < t)

/-- `above(x, T)` (R140). -/
def above (x t : Nat) : Bool := decide (x > t)

/-- `inband(x, lo, hi)` over the integers (R10, R13, R141). -/
def inband (x lo hi : Int) : Bool := decide (lo ≤ x) && decide (x < hi)

/-- `near(x, ref, tol)`, with no wrap (R142). -/
def near (x ref tol : Nat) : Bool := inband x ((ref : Int) - tol) (ref + tol)

/-! ## Samples -/

/-- `v[11:0]`, the sample of a 16-bit word (R92, R114). -/
def sample12 (v : Cell16) : Count := v.setWidth 12

/-- `zext_16(v)` (R114). -/
def zext16 (v : Count) : Cell16 := v.setWidth 16

/-- `x1 = Buf[InPin1[i]][11:0]`. -/
def InCtx.x1 (c : InCtx) : Count := sample12 c.sample

/-- `x5 = Buf[OutPin5[j]][11:0]`. -/
def OutCtx.x5 (c : OutCtx) : Count := sample12 c.sample

/-- The table of R111. -/
def State.table (s : State) : Schedule :=
  match s.samp.sel with
  | .short => s.cfg.schedShort
  | .long => s.cfg.schedLong

/-! ## Parameters given as data (log 7) -/

/-- The outcome of a band table at a count. -/
def bandsEval : List (Nat × Pin2Outcome) → Pin2Outcome → Nat → Pin2Outcome
  | [], last, _ => last
  | (bound, o) :: rest, last, x => if x < bound then o else bandsEval rest last x

/-- `PIN2_TREE(e5, e6, x1)` (R179). -/
def pin2TreeEval (t : Pin2Tree) (e5 e6 : Bool) (x1 : Count) : Pin2Outcome :=
  let b := match e5, e6 with
    | false, false => t.neither
    | true, false => t.only5
    | false, true => t.only6
    | true, true => t.both
  bandsEval b.rows b.last x1.toNat

/-- `RAWPIN_DECODE(b)` (R85, R267). -/
def rawpinEval (t : RawpinTable) (b : Byte) : List (Role × ClockFlag) := t.rows.getD b.toNat []

/-! ## Output band tables -/

/-- `FLOAT_BANDS(v, e6)`, rows top to bottom (R229). -/
def floatBands (c : CodeTable) (v : Nat) (e6 : Bool) : Byte × Byte :=
  if inband v tOut5IicLow tOut5IicHigh then (c.typeUnknown, c.connOutputIntelligent)
  else if below v tOut5NearGnd then (c.typeError, c.connError)
  else if below v tOut5BalLow && e6 && decide (v ≥ tOut5NewtachoLow2) then (c.typeNewtacho, c.connOutputTacho)
  else if below v tOut5BalLow && e6 && decide (v ≥ tOut5MinitachoLow2) then (c.typeMinitacho, c.connOutputTacho)
  else if below v tOut5BalLow && e6 then (c.typeTacho, c.connOutputTacho)
  else if below v tOut5BalLow then (c.typeUnknown, c.connOutputDumb)
  else (c.typeError, c.connError)

/-- `LOW_BANDS(v)`, rows top to bottom (R230). -/
def lowBands (c : CodeTable) (v : Nat) : Byte × Byte :=
  if below v tOut5BalLow && decide (v ≥ tOut5NewtachoLow2) then (c.typeNewtacho, c.connOutputTacho)
  else if below v tOut5BalLow && decide (v ≥ tOut5MinitachoLow2) then (c.typeMinitacho, c.connOutputTacho)
  else if below v tOut5BalLow then (c.typeTacho, c.connOutputTacho)
  else (c.typeError, c.connError)

end Sys2Proof.Machine
end

