-- ==== Sys2Proof/Machine/Flags.lean ====
section
/-! DEFINITION. The event words (R150, R151), the debounce and delay updates (R152, R153), the firing test (R154) and
the transition reset (R155). -/

namespace Sys2Proof.Machine

open Sys2Proof Config

/-- A bit of an event word as its weight. -/
def eventBit {n : Nat} (b : Bool) (weight : BitVec n) : BitVec n := if b then weight else 0

/-- `EV_IN(i)` (R150). -/
def evIn (c : InCtx) : BitVec 4 :=
  eventBit (below c.x1.toNat tIn1Near5v) 1 ||| eventBit (c.cfg.pin2Detect && !c.ans.pin2) 2 |||
    eventBit (!c.ans.pin5) 4 ||| eventBit c.ans.pin6 8

/-- `EV_OUT(j)` (R151). -/
def evOut (c : OutCtx) : BitVec 2 :=
  eventBit (!inband c.x5.toNat tOut5BalLow tOut5BalHigh) 1 ||| eventBit (!c.ans.pin6) 2

/-- Input event bits (R88). -/
def evValue (e : BitVec 4) : Bool := e.getLsbD 0
/-- `EV_PIN2` (R88). -/
def evPin2 (e : BitVec 4) : Bool := e.getLsbD 1
/-- `EV_PIN5` (R88). -/
def evPin5 (e : BitVec 4) : Bool := e.getLsbD 2
/-- `EV_PIN6` (R88). -/
def evPin6 (e : BitVec 4) : Bool := e.getLsbD 3
/-- `EV6_LOW` (R89). -/
def ev6Low (e : BitVec 2) : Bool := e.getLsbD 1

/-- `sat_inc(t)` (R14). -/
def satInc (p : Platform) (t : Nat) : Nat := min (t + 1) (2 ^ p.timerBits - 1)

/-- The debounce update on `(Event, Timer)` with the event function's value `e` (R152). -/
def debounce {n : Nat} (p : Platform) (e event : BitVec n) (timer : Nat) : BitVec n × Nat :=
  if e ≠ event then (e, 0) else (event, satInc p timer)

/-- The firing test's threshold part: `Timer >= N` (R154). -/
def reached (timer n : Nat) : Bool := decide (n ≤ timer)

/-- The timer update that a state rule runs first (42_input_dcm.md, head). -/
inductive TimerMode where
  | none | deb | dly
deriving DecidableEq, Repr

/-- The mode update of an input rule (R152, R153). -/
def InView.tick (m : TimerMode) (c : InCtx) (v : InView) : InView :=
  match m with
  | .none => v
  | .deb =>
    let r := debounce c.cfg.toPlatform (evIn c) v.port.event v.port.timer
    { v with port := { v.port with event := r.1, timer := r.2 } }
  | .dly => { v with port := { v.port with timer := satInc c.cfg.toPlatform v.port.timer } }

/-- The mode update of an output rule (R152, R153). -/
def OutView.tick (m : TimerMode) (c : OutCtx) (v : OutView) : OutView :=
  match m with
  | .none => v
  | .deb =>
    let r := debounce c.cfg.toPlatform (evOut c) v.port.event v.port.timer
    { v with port := { v.port with event := r.1, timer := r.2 } }
  | .dly => { v with port := { v.port with timer := satInc c.cfg.toPlatform v.port.timer } }

/-- The transition reset of an input rule that started in code `s0` (R155). -/
def InView.settle (s0 : BitVec 5) (v : InView) : InView :=
  if v.port.state ≠ s0 then { v with port := { v.port with timer := 0 } } else v

/-- The transition reset of an output rule that started in code `s0` (R155). -/
def OutView.settle (s0 : BitVec 3) (v : OutView) : OutView :=
  if v.port.state ≠ s0 then { v with port := { v.port with timer := 0 } } else v

/-- An input state rule: mode update, pseudocode, transition reset (R170). -/
def inRule (m : TimerMode) (body : InCtx → InView → InView) (c : InCtx) (v : InView) : InView :=
  (body c (v.tick m c)).settle v.port.state

/-- An output state rule: mode update, pseudocode, transition reset (R220). -/
def outRule (m : TimerMode) (body : OutCtx → OutView → OutView) (c : OutCtx) (v : OutView) : OutView :=
  (body c (v.tick m c)).settle v.port.state

end Sys2Proof.Machine
end

