-- ==== Sys2Proof/Machine/InputDcm.lean ====
section
/-! DEFINITION. The state rules of the input ports (42_input_dcm.md R175 to R193). Each body is the rule's pseudocode on
the view of its port; `inRule` puts the mode update before it and the transition reset after it. -/

namespace Sys2Proof.Machine

open Sys2Proof Config

/-- `INIT` (R175). R175 floats the pins of a set of roles; that the calls come in the order in which it lists them is the
model's choice, DESIGN CHOICE (log 20). -/
def inInitBody (c : InCtx) (v : InView) : InView :=
  let v := if v.port.sessionOpen then v.closeSession c else v
  let v := { v with port := { v.port with colorActive := false } }
  let v := v.drive c .pin1 .float
  let v := v.drive c .pin2 .float
  let v := v.drive c .pin5 .float
  let v := v.drive c .pin6 .float
  let v := v.drive c .auxA .float
  let v := v.drive c .auxB .float
  let v := v.classify c.cfg.codes.typeNone c.cfg.codes.connNone
  let v := { v with port := { v.port with connected := false, event := 0, timer := 0 } }
  v.goto .floatingDelay

/-- `FLOATING_DELAY` (R176). -/
def inFloatingDelayBody (_ : InCtx) (v : InView) : InView :=
  if reached v.port.timer floatTicks then v.goto .floating else v

/-- `FLOATING` (R177). -/
def inFloatingBody (_ : InCtx) (v : InView) : InView :=
  if v.port.event ≠ 0 ∧ reached v.port.timer connectTicks then v.goto .connection else v

/-- `CONNECTION` (R178). -/
def inConnectionBody (_ : InCtx) (v : InView) : InView :=
  if evPin2 v.port.event then v.goto .pin2Low
  else if evValue v.port.event then v.goto .pin1Loaded
  else if evPin6 v.port.event then v.goto .pin6High
  else if evPin5 v.port.event then v.goto .pin5Low
  else v.goto .init

/-- The effect of an outcome of `PIN2_TREE` (R180). -/
def pin2Effect (c : InCtx) (o : Pin2Outcome) (v : InView) : InView :=
  let k := c.cfg.codes
  match o with
  | .iic => (v.classify k.typeNxtIic k.connNxtIic).goto .waitPin2High
  | .color => (v.classify k.typeNxtColor k.connNxtColor).goto .nxtColorInit
  | .light => (v.classify k.typeNxtLight k.connNxtDumb).goto .waitPin2High
  | .test => (v.classify k.typeNxtTest k.connNxtDumb).goto .waitPin2High
  | .touchCandidate => v.goto .nxtTouchCheck
  | .sound => (v.classify k.typeNxtSound k.connNxtDumb).goto .waitPin2High

/-- `PIN2_LOW` with the tree `t` (R179). -/
def inPin2LowBody (t : Pin2Tree) (c : InCtx) (v : InView) : InView :=
  let v := { v with port := { v.port with value := c.x1, connected := true } }
  pin2Effect c (pin2TreeEval t (evPin5 v.port.event) (evPin6 v.port.event) c.x1) v

/-- `NXT_TOUCH_CHECK` (R181). -/
def inNxtTouchCheckBody (c : InCtx) (v : InView) : InView :=
  let k := c.cfg.codes
  if reached v.port.timer touchTicks then
    let v :=
      if near c.x1.toNat v.port.value.toNat touchTol then v.classify k.typeNxtTouch k.connNxtDumb
      else v.classify k.typeNxtSound k.connNxtDumb
    v.goto .waitPin2High
  else v

/-- `NXT_COLOR_INIT` (R182). -/
def inNxtColorInitBody (c : InCtx) (v : InView) : InView :=
  (v.openSession c c.cfg.colorInitCmd).goto .nxtColorWait

/-- `NXT_COLOR_WAIT` (R183): ready is tested before the timeout. -/
def inNxtColorWaitBody (c : InCtx) (v : InView) : InView :=
  if c.ans.ready then v.goto .nxtColorBusy
  else if reached v.port.timer colorTimeoutTicks then (v.closeSession c).goto .waitPin2High
  else v

/-- `NXT_COLOR_BUSY` (R184). -/
def inNxtColorBusyBody (c : InCtx) (v : InView) : InView :=
  let v := { v with sh := { v.sh with colorRes := c.ans.result } }
  let v := v.closeSession c
  let v := { v with port := { v.port with colorActive := true } }
  v.goto .waitPin2High

/-- `PIN1_LOADED` (R185). -/
def inPin1LoadedBody (c : InCtx) (v : InView) : InView :=
  let k := c.cfg.codes
  let v := { v with port := { v.port with value := c.x1, connected := true } }
  let v :=
    if above c.x1.toNat tIn1NearPin2 then v.classify k.typeError k.connError
    else if below c.x1.toNat tIn1NearGnd then v.classify k.typeUnknown k.connInputUart
    else v.classify k.typeUnknown k.connInputDumb
  v.goto .waitPin1ToFloat

/-- `PIN6_HIGH` (R186). -/
def inPin6HighBody (c : InCtx) (v : InView) : InView :=
  let v := { v with port := { v.port with connected := true } }
  (v.classify c.cfg.codes.typeNxtIic c.cfg.codes.connNxtIic).goto .waitPin6Low

/-- `PIN5_LOW` (R187). -/
def inPin5LowBody (c : InCtx) (v : InView) : InView :=
  let v := { v with port := { v.port with connected := true } }
  (v.classify c.cfg.codes.typeError c.cfg.codes.connError).goto .waitPin5High

/-- `CONNECTED_WAITING_FOR_PIN2_HIGH` (R188). -/
def inWaitPin2HighBody (c : InCtx) (v : InView) : InView :=
  if c.cfg.pin2Detect ∧ evPin2 v.port.event = false ∧ reached v.port.timer disconnectTicks then v.goto .init else v

/-- `CONNECTED_WAITING_FOR_PIN1_TO_FLOAT` (R189). -/
def inWaitPin1ToFloatBody (_ : InCtx) (v : InView) : InView :=
  if evValue v.port.event = false ∧ reached v.port.timer disconnectTicks then v.goto .init else v

/-- `CONNECTED_WAITING_FOR_PIN6_LOW` (R190). -/
def inWaitPin6LowBody (_ : InCtx) (v : InView) : InView :=
  if evPin6 v.port.event = false ∧ reached v.port.timer disconnectTicks then v.goto .init else v

/-- `CONNECTED_WAITING_FOR_PIN5_HIGH` (R191). -/
def inWaitPin5HighBody (_ : InCtx) (v : InView) : InView :=
  if evPin5 v.port.event = false ∧ reached v.port.timer disconnectTicks then v.goto .init else v

/-- `DISABLED` (R192). -/
def inDisabledBody (_ : InCtx) (v : InView) : InView :=
  { v with port := { v.port with connected := true, timer := 0 } }

/-- `IN_INIT` (R175). -/
def execInInit (i : Nat) (s : State) : Host.Outcome State Fault Refusal :=
  onIn i s (.next (s.runIn i (inRule .none inInitBody)))

/-- `IN_FLOATING_DELAY` (R176). -/
def execInFloatingDelay (i : Nat) (s : State) : Host.Outcome State Fault Refusal :=
  onIn i s (.next (s.runIn i (inRule .dly inFloatingDelayBody)))

/-- `IN_FLOATING` (R177). -/
def execInFloating (i : Nat) (s : State) : Host.Outcome State Fault Refusal :=
  onIn i s (.next (s.runIn i (inRule .deb inFloatingBody)))

/-- `IN_CONNECTION` (R178). -/
def execInConnection (i : Nat) (s : State) : Host.Outcome State Fault Refusal :=
  onIn i s (.next (s.runIn i (inRule .none inConnectionBody)))

/-- `IN_PIN2_LOW` (R179), refused where `PIN2_TREE` has no value (R295 (e), log 7). -/
def execInPin2Low (i : Nat) (s : State) : Host.Outcome State Fault Refusal :=
  onIn i s <|
    match s.cfg.pin2Tree with
    | some t => .next (s.runIn i (inRule .none (inPin2LowBody t)))
    | none => .refused .pin2TreeAbsent

/-- `IN_NXT_TOUCH_CHECK` (R181). -/
def execInNxtTouchCheck (i : Nat) (s : State) : Host.Outcome State Fault Refusal :=
  onIn i s (.next (s.runIn i (inRule .dly inNxtTouchCheckBody)))

/-- `IN_NXT_COLOR_INIT` (R182). -/
def execInNxtColorInit (i : Nat) (s : State) : Host.Outcome State Fault Refusal :=
  onIn i s (.next (s.runIn i (inRule .none inNxtColorInitBody)))

/-- `IN_NXT_COLOR_WAIT` (R183). -/
def execInNxtColorWait (i : Nat) (s : State) : Host.Outcome State Fault Refusal :=
  onIn i s (.next (s.runIn i (inRule .dly inNxtColorWaitBody)))

/-- `IN_NXT_COLOR_BUSY` (R184). -/
def execInNxtColorBusy (i : Nat) (s : State) : Host.Outcome State Fault Refusal :=
  onIn i s (.next (s.runIn i (inRule .none inNxtColorBusyBody)))

/-- `IN_PIN1_LOADED` (R185). -/
def execInPin1Loaded (i : Nat) (s : State) : Host.Outcome State Fault Refusal :=
  onIn i s (.next (s.runIn i (inRule .none inPin1LoadedBody)))

/-- `IN_PIN6_HIGH` (R186). -/
def execInPin6High (i : Nat) (s : State) : Host.Outcome State Fault Refusal :=
  onIn i s (.next (s.runIn i (inRule .none inPin6HighBody)))

/-- `IN_PIN5_LOW` (R187). -/
def execInPin5Low (i : Nat) (s : State) : Host.Outcome State Fault Refusal :=
  onIn i s (.next (s.runIn i (inRule .none inPin5LowBody)))

/-- `IN_CONNECTED_WAITING_FOR_PIN2_HIGH` (R188). -/
def execInWaitPin2High (i : Nat) (s : State) : Host.Outcome State Fault Refusal :=
  onIn i s (.next (s.runIn i (inRule .deb inWaitPin2HighBody)))

/-- `IN_CONNECTED_WAITING_FOR_PIN1_TO_FLOAT` (R189). -/
def execInWaitPin1ToFloat (i : Nat) (s : State) : Host.Outcome State Fault Refusal :=
  onIn i s (.next (s.runIn i (inRule .deb inWaitPin1ToFloatBody)))

/-- `IN_CONNECTED_WAITING_FOR_PIN6_LOW` (R190). -/
def execInWaitPin6Low (i : Nat) (s : State) : Host.Outcome State Fault Refusal :=
  onIn i s (.next (s.runIn i (inRule .deb inWaitPin6LowBody)))

/-- `IN_CONNECTED_WAITING_FOR_PIN5_HIGH` (R191). -/
def execInWaitPin5High (i : Nat) (s : State) : Host.Outcome State Fault Refusal :=
  onIn i s (.next (s.runIn i (inRule .deb inWaitPin5HighBody)))

/-- `IN_DISABLED` (R192). -/
def execInDisabled (i : Nat) (s : State) : Host.Outcome State Fault Refusal :=
  onIn i s (.next (s.runIn i (inRule .none inDisabledBody)))

/-- `IN_RESERVED`: a reserved code runs the `INIT` rule unchanged, whichever code it is (R94, R193). -/
def execInReserved (i : Nat) (_code : BitVec 5) (s : State) : Host.Outcome State Fault Refusal :=
  onIn i s (.next (s.runIn i (inRule .none inInitBody)))

end Sys2Proof.Machine
end

