-- ==== Sys2Proof/Machine/OutputDcm.lean ====
section
/-! DEFINITION. The state rules of the output ports (43_output_dcm.md R221 to R228), in the manner of the input rules. -/

namespace Sys2Proof.Machine

open Sys2Proof Config

/-- `INIT` (R221). -/
def outInitBody (c : OutCtx) (v : OutView) : OutView :=
  let v := v.drivePin5 c .float
  let v := v.drivePin6 c .float
  let v := v.classify c.cfg.codes.typeNone c.cfg.codes.connNone
  let v := { v with port := { v.port with connected := false, event := 0, connEvent := 0, timer := 0 } }
  v.goto .floatingDelay

/-- `FLOATING_DELAY` (R222). -/
def outFloatingDelayBody (_ : OutCtx) (v : OutView) : OutView :=
  if reached v.port.timer floatTicks then v.goto .floating else v

/-- `FLOATING` (R223). -/
def outFloatingBody (c : OutCtx) (v : OutView) : OutView :=
  let v := { v with port := { v.port with value5Float := c.x5 } }
  if v.port.event ≠ 0 ∧ reached v.port.timer connectTicks then
    let v := { v with port := { v.port with connEvent := v.port.event } }
    (v.drivePin5 c .low).goto .waitPin6Low
  else v

/-- `WAITING_FOR_PIN6_LOW` (R224). -/
def outWaitPin6LowBody (c : OutCtx) (v : OutView) : OutView :=
  if reached v.port.timer lowTicks then
    ({ v with port := { v.port with value5Low := c.x5 } } : OutView).goto .connection
  else v

/-- Write a classification and go on to wait for the port to open, pin 5 floated (R225, R226). -/
def outConnected (c : OutCtx) (tc : Byte × Byte) (v : OutView) : OutView :=
  let v := v.classify tc.1 tc.2
  let v := { v with port := { v.port with connected := true } }
  (v.drivePin5 c .float).goto .waitPortOpen

/-- `CONNECTION` (R225). -/
def outConnectionBody (c : OutCtx) (v : OutView) : OutView :=
  let x := v.port.value5Float.toNat
  if inband x tOut5BalLow tOut5BalHigh then (v.drivePin5 c .float).goto .init
  else if near x v.port.value5Low.toNat out5MatchTol then
    outConnected c (floatBands c.cfg.codes x (ev6Low v.port.connEvent)) v
  else v.goto .waitPin5Low

/-- `WAITING_FOR_PIN5_LOW` (R226). -/
def outWaitPin5LowBody (c : OutCtx) (v : OutView) : OutView :=
  if reached v.port.timer lowTicks then
    outConnected c (lowBands c.cfg.codes c.x5.toNat) { v with port := { v.port with value5Low := c.x5 } }
  else v

/-- `CONNECTED_WAITING_FOR_PORT_OPEN` (R227). -/
def outWaitPortOpenBody (_ : OutCtx) (v : OutView) : OutView :=
  if v.port.event ≠ v.port.connEvent ∧ reached v.port.timer disconnectTicks then v.goto .init else v

/-- `OUT_INIT` (R221). -/
def execOutInit (j : Nat) (s : State) : Host.Outcome State Fault Refusal :=
  onOut j s (.next (s.runOut j (outRule .none outInitBody)))

/-- `OUT_FLOATING_DELAY` (R222). -/
def execOutFloatingDelay (j : Nat) (s : State) : Host.Outcome State Fault Refusal :=
  onOut j s (.next (s.runOut j (outRule .dly outFloatingDelayBody)))

/-- `OUT_FLOATING` (R223). -/
def execOutFloating (j : Nat) (s : State) : Host.Outcome State Fault Refusal :=
  onOut j s (.next (s.runOut j (outRule .deb outFloatingBody)))

/-- `OUT_WAITING_FOR_PIN6_LOW` (R224). -/
def execOutWaitPin6Low (j : Nat) (s : State) : Host.Outcome State Fault Refusal :=
  onOut j s (.next (s.runOut j (outRule .dly outWaitPin6LowBody)))

/-- `OUT_CONNECTION` (R225). -/
def execOutConnection (j : Nat) (s : State) : Host.Outcome State Fault Refusal :=
  onOut j s (.next (s.runOut j (outRule .none outConnectionBody)))

/-- `OUT_WAITING_FOR_PIN5_LOW` (R226). -/
def execOutWaitPin5Low (j : Nat) (s : State) : Host.Outcome State Fault Refusal :=
  onOut j s (.next (s.runOut j (outRule .dly outWaitPin5LowBody)))

/-- `OUT_CONNECTED_WAITING_FOR_PORT_OPEN` (R227). -/
def execOutWaitPortOpen (j : Nat) (s : State) : Host.Outcome State Fault Refusal :=
  onOut j s (.next (s.runOut j (outRule .deb outWaitPortOpenBody)))

/-- `OUT_RESERVED`: code 7 runs the `INIT` rule unchanged (R94, R228). -/
def execOutReserved (j : Nat) (s : State) : Host.Outcome State Fault Refusal :=
  onOut j s (.next (s.runOut j (outRule .none outInitBody)))

end Sys2Proof.Machine
end

