-- ==== Sys2Proof/Machine/DcmTick.lean ====
section
/-! DEFINITION. The DCM tick `TICK_D` (R170 to R172, R220): every input port stepped once, then every output port. -/

namespace Sys2Proof.Machine

open Sys2Proof Config

/-- The FSM override before dispatch (R171). -/
def fsmOverride (p : InPort) : InPort :=
  if p.fsmEnabled = false ∧ p.state ≠ InState.disabled.code then { p with state := InState.disabled.code }
  else if p.fsmEnabled = true ∧ p.state = InState.disabled.code then { p with state := InState.init.code }
  else p

/-- The start of `STEP_IN(i)`: `OldState <- State`, then the override (R170, R171). -/
def beginIn (i : Nat) (s : State) : State :=
  s.setIn i (fsmOverride { s.inAt i with oldState := (s.inAt i).state })

/-- The start of `STEP_OUT(j)`: `OldState <- State` (R220). -/
def beginOut (j : Nat) (s : State) : State :=
  s.setOut j { s.outAt j with oldState := (s.outAt j).state }

/-- Run the rule of the state that `In[i].State` holds (R172). -/
def dispatchIn (i : Nat) (s : State) : Host.Outcome State Fault Refusal :=
  match inStateOf (s.inAt i).state with
  | some .init => execInInit i s
  | some .floatingDelay => execInFloatingDelay i s
  | some .floating => execInFloating i s
  | some .connection => execInConnection i s
  | some .pin2Low => execInPin2Low i s
  | some .nxtTouchCheck => execInNxtTouchCheck i s
  | some .nxtColorInit => execInNxtColorInit i s
  | some .nxtColorWait => execInNxtColorWait i s
  | some .nxtColorBusy => execInNxtColorBusy i s
  | some .pin1Loaded => execInPin1Loaded i s
  | some .pin6High => execInPin6High i s
  | some .pin5Low => execInPin5Low i s
  | some .waitPin2High => execInWaitPin2High i s
  | some .waitPin1ToFloat => execInWaitPin1ToFloat i s
  | some .waitPin6Low => execInWaitPin6Low i s
  | some .waitPin5High => execInWaitPin5High i s
  | some .disabled => execInDisabled i s
  | none => execInReserved i (s.inAt i).state s

/-- Run the rule of the state that `Out[j].State` holds (R220). -/
def dispatchOut (j : Nat) (s : State) : Host.Outcome State Fault Refusal :=
  match outStateOf (s.outAt j).state with
  | some .init => execOutInit j s
  | some .floatingDelay => execOutFloatingDelay j s
  | some .floating => execOutFloating j s
  | some .waitPin6Low => execOutWaitPin6Low j s
  | some .connection => execOutConnection j s
  | some .waitPin5Low => execOutWaitPin5Low j s
  | some .waitPortOpen => execOutWaitPortOpen j s
  | none => execOutReserved j s

/-- `STEP_IN(i)` (R170). -/
def stepIn (i : Nat) (s : State) : Host.Outcome State Fault Refusal := dispatchIn i (beginIn i s)

/-- `STEP_OUT(j)` (R220). -/
def stepOut (j : Nat) (s : State) : Host.Outcome State Fault Refusal := dispatchOut j (beginOut j s)

/-- `TICK_D` (R170). -/
def execTickD (s : State) : Host.Outcome State Fault Refusal :=
  andThen (forEach stepIn (List.range s.cfg.numIn) s) (forEach stepOut (List.range s.cfg.numOut))

end Sys2Proof.Machine
end

