-- ==== Sys2Proof/Machine/HostCommands.lean ====
section
/-! DEFINITION. The host's control commands (44_host_commands.md R260 to R268). Output ports are addressed by no command
but `CLRUPD_OUT` (R260). -/

namespace Sys2Proof.Machine

open Sys2Proof Config

/-! ## `'e'` (R261, R262) -/

/-- The disabling branch of R262. -/
def disableView (c : InCtx) (v : InView) : InView :=
  let v := { v with port := { v.port with fsmEnabled := false } }
  let v := v.classify c.cfg.codes.typeNone c.cfg.codes.connNone
  let v := { v with port := { v.port with event := 0, timer := 0 } }
  v.goto .disabled

/-- The enabling branch of R262. -/
def enableView (v : InView) : InView :=
  let v := { v with port := { v.port with fsmEnabled := true, timer := 0 } }
  v.goto .init

/-- The per-port effect of an `'e'` character (R262). -/
def eCharView (ch : Byte) (c : InCtx) (v : InView) : InView :=
  if ch = c.cfg.eCharDisable ∧ v.port.fsmEnabled = true then disableView c v
  else if ch = c.cfg.eCharEnable ∧ v.port.fsmEnabled = false then enableView v
  else v

/-- `E_DISABLE` (R262). -/
def execEDisable (i : Nat) (s : State) : Host.Outcome State Fault Refusal :=
  onIn i s (.next (if (s.inAt i).fsmEnabled then s.runIn i disableView else s))

/-- `E_ENABLE` (R262). -/
def execEEnable (i : Nat) (s : State) : Host.Outcome State Fault Refusal :=
  onIn i s (.next (if (s.inAt i).fsmEnabled then s else s.runIn i fun _ v => enableView v))

/-- `E_NOP`: no effect (R83, R262). -/
def execENop (i : Nat) (s : State) : Host.Outcome State Fault Refusal := onIn i s (.next s)

/-- `E_OTHER`: no effect (R83, R97, R262). -/
def execEOther (i : Nat) (_c : Byte) (s : State) : Host.Outcome State Fault Refusal := onIn i s (.next s)

/-- `WRITE_E`: R262 for each port in order; a wrong length is ignored whole (R82, R261). -/
def execWriteE (chars : List Byte) (s : State) : Host.Outcome State Fault Refusal :=
  .next (if chars.length = s.cfg.numIn then
      (List.range s.cfg.numIn).foldl (fun s i => s.runIn i (eCharView (chars.getD i 0x2D))) s
    else s)

/-! ## `'t'` (R263, R264) -/

/-- The per-port effect of a `'t'` code (R264). -/
def forceView (k : Byte) (_ : InCtx) (v : InView) : InView :=
  if v.port.fsmEnabled then v else { v with sh := { v.sh with connClass := k } }

/-- `WRITE_T`: R264 for each port; a wrong length is ignored whole (R84, R263). -/
def execWriteT (codes : List Byte) (s : State) : Host.Outcome State Fault Refusal :=
  .next (if codes.length = s.cfg.numIn then
      (List.range s.cfg.numIn).foldl (fun s i => s.runIn i (forceView (codes.getD i 0))) s
    else s)

/-! ## Bare bytes (R265 to R267) -/

/-- A colour command byte: `ColorStart(i, b)` on a disabled port, nothing on an enabled one (R265, R266). -/
def bareColor (b : Byte) (i : Nat) (s : State) : Host.Outcome State Fault Refusal :=
  onIn i s (.next (if (s.inAt i).fsmEnabled then s else s.runIn i fun c v => v.openSession c b))

/-- The drives of a decoded raw-pin byte, in order (R267). -/
def driveView (ds : List (Role × ClockFlag)) (c : InCtx) (v : InView) : InView :=
  ds.foldl (fun v rd => v.flag c rd.1 rd.2) v

/-- `BARE_COLOR_0D` (R266). -/
def execBareColor0D (i : Nat) (s : State) : Host.Outcome State Fault Refusal := bareColor 0x0D i s

/-- `BARE_COLOR_0E` (R266). -/
def execBareColor0E (i : Nat) (s : State) : Host.Outcome State Fault Refusal := bareColor 0x0E i s

/-- `BARE_COLOR_0F` (R266). -/
def execBareColor0F (i : Nat) (s : State) : Host.Outcome State Fault Refusal := bareColor 0x0F i s

/-- `BARE_COLOR_10` (R266). -/
def execBareColor10 (i : Nat) (s : State) : Host.Outcome State Fault Refusal := bareColor 0x10 i s

/-- `BARE_COLOR_11` (R266). -/
def execBareColor11 (i : Nat) (s : State) : Host.Outcome State Fault Refusal := bareColor 0x11 i s

/-- `BARE_RAWPIN` (R267): no effect on an enabled port (R265); on a disabled one the drives that `RAWPIN_DECODE` gives,
refused where it has no value (R295 (a), log 7). -/
def execBareRawpin (i : Nat) (b : Byte) (s : State) : Host.Outcome State Fault Refusal :=
  onIn i s <|
    if (s.inAt i).fsmEnabled then .next s
    else
      match s.cfg.rawpinDecode with
      | some t => .next (s.runIn i (driveView (rawpinEval t b)))
      | none => .refused .rawpinDecodeAbsent

/-! ## Update-flag clear (R268) -/

/-- `CLRUPD_IN` (R268). -/
def execClrupdIn (i : Nat) (s : State) : Host.Outcome State Fault Refusal :=
  onIn i s (.next (s.setShIn i { s.shInAt i with upd := false }))

/-- `CLRUPD_OUT` (R268). -/
def execClrupdOut (j : Nat) (s : State) : Host.Outcome State Fault Refusal :=
  onOut j s (.next (s.setShOut j { s.shOutAt j with upd := false }))

end Sys2Proof.Machine
end

