-- ==== Sys2Proof/Machine/Sampler.lean ====
section
/-! DEFINITION. The sampler tick `TICK_S` (40_sampler.md). -/

namespace Sys2Proof.Machine

open Sys2Proof Config

/-- Steps 2 and 3: one exchange, mask, store or discard (R112, R114). -/
def sampleStore (e : ScheduleEntry) (spi : Cell16) (s : State) : State :=
  let s1 := s.addCalls [.spiExchange (s.cfg.adcCmdBase ||| e.chan)]
  match e.dest with
  | some x => s1.setBuf x (zext16 (sample12 spi))
  | none => s1

/-- Step 4 for one port: the two clock flags, where the port is colour-active (R115). -/
def clockView (e : ScheduleEntry) (c : InCtx) (v : InView) : InView :=
  if v.port.colorActive then (v.flag c .auxA e.clkA).flag c .auxB e.clkB else v

/-- Step 4: auxiliary clocking, under the long table only (R115). -/
def auxClock (e : ScheduleEntry) (s : State) : State :=
  match s.samp.sel with
  | .short => s
  | .long => (List.range s.cfg.numIn).foldl (fun s i => s.runIn i (clockView e)) s

/-- Some input port is colour-active (R117). -/
def anyColorActive (s : State) : Bool := (List.range s.cfg.numIn).any fun i => (s.inAt i).colorActive

/-- The entry pushed to port `i`'s ring (R118). -/
def ringEntry (s : State) (i : Nat) : RingEntry :=
  { pin1 := sample12 (s.bufAt (.inPin1 i)), pin6 := sample12 (s.bufAt (.inPin6 i)) }

/-- Step 5c for one input port: set the update flag, push `e`, advance the ring index (R118). -/
def publishView (e : RingEntry) (c : InCtx) (v : InView) : InView :=
  { v with
    port := { v.port with
      ring := v.port.ring.set v.port.ringIdx e
      ringIdx := (v.port.ringIdx + 1) % c.cfg.ringDepth }
    sh := { v.sh with upd := true } }

/-- Step 5c for one output port: set the update flag (R118). -/
def publishOut (s : State) (j : Nat) : State := s.setShOut j { s.shOutAt j with upd := true }

/-- Steps 5b and 5c at the end of a full cycle: pointer, table, publication (R117, R118). -/
def endOfCycle (s : State) : State :=
  let s1 := s.setSamp { sel := if anyColorActive s then .long else .short, ptr := 0 }
  let s2 := (List.range s.cfg.numIn).foldl (fun s i => s.runIn i (publishView (ringEntry s i))) s1
  (List.range s.cfg.numOut).foldl publishOut s2

/-- Step 5: advance the pointer, and end the cycle at the length of the table it ran on (R116, R117). -/
def advance (len : Nat) (s : State) : State :=
  let s1 := s.setSamp { s.samp with ptr := s.samp.ptr + 1 }
  if s1.samp.ptr = len then endOfCycle s1 else s1

/-- `TICK_S` on the entry `e` of the active table (R119). -/
def samplerTick (e : ScheduleEntry) (spi : Cell16) (s : State) : State :=
  advance s.table.entries.length (auxClock e (sampleStore e spi s))

/-- `TICK_S` (R110). The refusal is met by no state that keeps the invariant of R23 (log 6). -/
def execTickS (spi : Cell16) (s : State) : Host.Outcome State Fault Refusal :=
  match s.table.entries[s.samp.ptr]? with
  | some e => .next (samplerTick e spi s)
  | none => .refused .schedulePointerOutside

end Sys2Proof.Machine
end

