-- ==== Sys2Proof/Machine/Dispatch.lean ====
section
/-! DEFINITION. The dispatch from an instruction to its meaning, one arm per row of spec/opcode_table.json. -/

namespace Sys2Proof.Machine

open Sys2Proof

/-- The meaning of an instruction in a state. -/
def exec (i : Instr) (s : State) : Host.Outcome State Fault Refusal :=
  match i with
  | .tickS spi => Sys2Proof.Machine.execTickS spi s
  | .tickD => Sys2Proof.Machine.execTickD s
  | .writeE chars => Sys2Proof.Machine.execWriteE chars s
  | .eDisable k => Sys2Proof.Machine.execEDisable k s
  | .eEnable k => Sys2Proof.Machine.execEEnable k s
  | .eNop k => Sys2Proof.Machine.execENop k s
  | .eOther k c => Sys2Proof.Machine.execEOther k c s
  | .writeT codes => Sys2Proof.Machine.execWriteT codes s
  | .bareColor0D k => Sys2Proof.Machine.execBareColor0D k s
  | .bareColor0E k => Sys2Proof.Machine.execBareColor0E k s
  | .bareColor0F k => Sys2Proof.Machine.execBareColor0F k s
  | .bareColor10 k => Sys2Proof.Machine.execBareColor10 k s
  | .bareColor11 k => Sys2Proof.Machine.execBareColor11 k s
  | .bareRawpin k b => Sys2Proof.Machine.execBareRawpin k b s
  | .clrupdIn k => Sys2Proof.Machine.execClrupdIn k s
  | .clrupdOut j => Sys2Proof.Machine.execClrupdOut j s
  | .inInit k => Sys2Proof.Machine.execInInit k s
  | .inFloatingDelay k => Sys2Proof.Machine.execInFloatingDelay k s
  | .inFloating k => Sys2Proof.Machine.execInFloating k s
  | .inConnection k => Sys2Proof.Machine.execInConnection k s
  | .inPin2Low k => Sys2Proof.Machine.execInPin2Low k s
  | .inNxtTouchCheck k => Sys2Proof.Machine.execInNxtTouchCheck k s
  | .inNxtColorInit k => Sys2Proof.Machine.execInNxtColorInit k s
  | .inNxtColorWait k => Sys2Proof.Machine.execInNxtColorWait k s
  | .inNxtColorBusy k => Sys2Proof.Machine.execInNxtColorBusy k s
  | .inPin1Loaded k => Sys2Proof.Machine.execInPin1Loaded k s
  | .inPin6High k => Sys2Proof.Machine.execInPin6High k s
  | .inPin5Low k => Sys2Proof.Machine.execInPin5Low k s
  | .inWaitPin2High k => Sys2Proof.Machine.execInWaitPin2High k s
  | .inWaitPin1ToFloat k => Sys2Proof.Machine.execInWaitPin1ToFloat k s
  | .inWaitPin6Low k => Sys2Proof.Machine.execInWaitPin6Low k s
  | .inWaitPin5High k => Sys2Proof.Machine.execInWaitPin5High k s
  | .inDisabled k => Sys2Proof.Machine.execInDisabled k s
  | .inReserved k code => Sys2Proof.Machine.execInReserved k code s
  | .outInit j => Sys2Proof.Machine.execOutInit j s
  | .outFloatingDelay j => Sys2Proof.Machine.execOutFloatingDelay j s
  | .outFloating j => Sys2Proof.Machine.execOutFloating j s
  | .outWaitPin6Low j => Sys2Proof.Machine.execOutWaitPin6Low j s
  | .outConnection j => Sys2Proof.Machine.execOutConnection j s
  | .outWaitPin5Low j => Sys2Proof.Machine.execOutWaitPin5Low j s
  | .outWaitPortOpen j => Sys2Proof.Machine.execOutWaitPortOpen j s
  | .outReserved j => Sys2Proof.Machine.execOutReserved j s

end Sys2Proof.Machine
end

