-- ==== Sys2Proof/Machine/Step.lean ====
section
/-! DEFINITION. One step of the block (R66): serve the next request as one atomic transition. -/

namespace Sys2Proof.Machine

open Sys2Proof

/-- With no request the block holds its state (R80: `strobe = 0b00`; R310). A request that comes to operations runs them
in order, as one transition; a rejected one is refused (R295). -/
def step (s : State) : Host.Outcome State Fault Refusal :=
  match s.pending with
  | [] => .next s
  | a :: rest =>
    match decodeRequest s.cfg.toPlatform a.request with
    | .operations is => forEach exec is (s.accept a rest)
    | .rejected r => .refused (refusalOf r)

/-- `s` with the request that carries a word of the opcode table as the next one, under the standing answers (log 4,
log 9). -/
def State.withFetchWord (s : State) (nbits w : Nat) : State :=
  { s with pending := { env := s.env, request := carrier s.cfg.toPlatform (tableEncoding nbits w) } :: s.pending }

end Sys2Proof.Machine
end

