-- ==== Sys2Proof/Safety.lean ====
section
/-! DEFINITION. The terms that statements are made in: what a state rule leaves unchanged, what it means that an
instruction completes, runs of one kind of tick, and the invariants of the block. -/

namespace Sys2Proof.Machine

open Sys2Proof Config

/-! ## Frames -/

/-- From `s` to `t` nothing changed but `In[i]`, port `i`'s fields of `Sh`, and the call record. -/
structure SameButIn (i : Nat) (s t : State) : Prop where
  cfg : t.cfg = s.cfg
  samp : t.samp = s.samp
  buf : ∀ x, t.bufAt x = s.bufAt x
  inp : ∀ k, k ≠ i → t.inAt k = s.inAt k
  shIn : ∀ k, k ≠ i → t.shInAt k = s.shInAt k
  out : ∀ j, t.outAt j = s.outAt j
  shOut : ∀ j, t.shOutAt j = s.shOutAt j
  env : t.env = s.env
  pending : t.pending = s.pending

/-- From `s` to `t` nothing changed but `Out[j]`, port `j`'s fields of `Sh`, and the call record. -/
structure SameButOut (j : Nat) (s t : State) : Prop where
  cfg : t.cfg = s.cfg
  samp : t.samp = s.samp
  buf : ∀ x, t.bufAt x = s.bufAt x
  inp : ∀ i, t.inAt i = s.inAt i
  shIn : ∀ i, t.shInAt i = s.shInAt i
  out : ∀ k, k ≠ j → t.outAt k = s.outAt k
  shOut : ∀ k, k ≠ j → t.shOutAt k = s.shOutAt k
  env : t.env = s.env
  pending : t.pending = s.pending

/-- The parameters, the environment's answers and the waiting requests are as before. -/
structure SameInputs (s t : State) : Prop where
  cfg : t.cfg = s.cfg
  env : t.env = s.env
  pending : t.pending = s.pending

/-- `ins` completes in `s`: it answers a next state in which `In[i]` is `p`, port `i`'s fields of `Sh` are `h`, exactly
the calls `cs` were made, and nothing else changed. -/
def CompletesIn (ins : Instr) (i : Nat) (s : State) (p : InPort) (h : InShared) (cs : List OracleCall) : Prop :=
  ∃ t, exec ins s = .next t ∧ t.inAt i = p ∧ t.shInAt i = h ∧ t.calls = s.calls ++ cs ∧ SameButIn i s t

/-- The same for a rule of output port `j`. -/
def CompletesOut (ins : Instr) (j : Nat) (s : State) (p : OutPort) (h : OutShared) (cs : List OracleCall) :
    Prop :=
  ∃ t, exec ins s = .next t ∧ t.outAt j = p ∧ t.shOutAt j = h ∧ t.calls = s.calls ++ cs ∧ SameButOut j s t

/-- `min(t + 1, 2^TIMER_BITS - 1)`, the saturating increment as R14 writes it, in a state's terms. -/
def tickUp (p : Params) (t : Nat) : Nat := min (t + 1) (2 ^ p.timerBits - 1)

/-! ## Runs of one kind of tick -/

/-- `TICK_D*n` (R100), under the standing answers. -/
def ticksD : Nat → State → Host.Outcome State Fault Refusal
  | 0, s => .next s
  | n + 1, s => andThen (exec .tickD s) (ticksD n)

/-- A sampler tick for each answer of the list, in order. -/
def ticksS : List Cell16 → State → Host.Outcome State Fault Refusal
  | [], s => .next s
  | r :: rs, s => andThen (exec (.tickS r) s) (ticksS rs)

/-- `n` steps of the machine, each serving the next waiting request. -/
def runSteps : Nat → State → Host.Outcome State Fault Refusal
  | 0, s => .next s
  | n + 1, s => andThen (step s) (runSteps n)

/-! ## Invariants -/

/-- Every answer to `ColorResult` has `COLOR_RESULT_LEN` bytes (R12; log 14). -/
def answersFit (p : Params) (e : Env) : Prop := ∀ i < p.numIn, (portAt e.inp i).result.length = p.colorResultLen

/-- The lists of the ports' records and slots have one place for each port of the block (R7; log 12). -/
structure Shaped (s : State) : Prop where
  inp : s.inp.length = s.cfg.numIn
  out : s.out.length = s.cfg.numOut
  shIn : s.shIn.length = s.cfg.numIn
  shOut : s.shOut.length = s.cfg.numOut
  inPin1 : s.buf.inPin1.length = s.cfg.numIn
  inPin6 : s.buf.inPin6.length = s.cfg.numIn
  outPin5 : s.buf.outPin5.length = s.cfg.numOut

/-- The invariant of the block: the parameters are as R121 and R7 ask; the lists fit the ports; the schedule pointer lies
in its table (R23); every slot holds a 12-bit count (R25); timers keep their width (R30, R39); rings keep their depth and
index (R36); state codes are listed ones (R94, R231); a port is `DISABLED` exactly while its FSM is disabled (R302);
colour results keep their length (R43); the environment keeps its contract (R12). -/
structure Inv (s : State) : Prop where
  cfg : s.cfg.wellFormed = true
  shaped : Shaped s
  ptr : s.samp.ptr < s.table.entries.length
  buf : ∀ x, (s.bufAt x).toNat < 4096
  inTimer : ∀ i < s.cfg.numIn, (s.inAt i).timer < 2 ^ s.cfg.timerBits
  outTimer : ∀ j < s.cfg.numOut, (s.outAt j).timer < 2 ^ s.cfg.timerBits
  ring : ∀ i < s.cfg.numIn, (s.inAt i).ring.length = s.cfg.ringDepth
  ringIdx : ∀ i < s.cfg.numIn, (s.inAt i).ringIdx < s.cfg.ringDepth
  inState : ∀ i < s.cfg.numIn, (s.inAt i).state.toNat ≤ 16
  inOldState : ∀ i < s.cfg.numIn, (s.inAt i).oldState.toNat ≤ 16
  outState : ∀ j < s.cfg.numOut, (s.outAt j).state.toNat ≤ 6
  outOldState : ∀ j < s.cfg.numOut, (s.outAt j).oldState.toNat ≤ 6
  manual : ∀ i < s.cfg.numIn, (s.inAt i).fsmEnabled = false ↔ (s.inAt i).state = 16#5
  colorRes : ∀ i < s.cfg.numIn, (s.shInAt i).colorRes.length = s.cfg.colorResultLen
  env : answersFit s.cfg s.env
  pending : ∀ a ∈ s.pending, answersFit s.cfg a.env

/-- A session is open only in `INIT` (about to stop it), in the colour states that wait for it, or on a port under host
control (R35, R182, R306). -/
structure SessionInv (s : State) : Prop where
  manual : ∀ i < s.cfg.numIn, (s.inAt i).fsmEnabled = false ↔ (s.inAt i).state = 16#5
  opened : ∀ i < s.cfg.numIn, (s.inAt i).sessionOpen = true → (s.inAt i).state ∈ [0#5, 7#5, 8#5, 16#5]

/-- With pin-2 detection disabled: only the states that R194 lists are held, no event word has the pin-2 bit, no port is
colour-active and the short table is selected (R194). -/
structure PlatformInv (s : State) : Prop where
  detect : s.cfg.pin2Detect = false
  sel : s.samp.sel = .short
  states : ∀ i < s.cfg.numIn, (s.inAt i).state ∈ [0#5, 1#5, 2#5, 3#5, 9#5, 10#5, 11#5, 13#5, 14#5, 15#5, 16#5]
  event : ∀ i < s.cfg.numIn, (s.inAt i).event.getLsbD 1 = false
  color : ∀ i < s.cfg.numIn, (s.inAt i).colorActive = false

/-- The next DCM tick needs no pin-2 tree that is not there: there is one, or no enabled port is in `PIN2_LOW`
(R179, R295 (e)). -/
def TreeReady (s : State) : Prop :=
  s.cfg.pin2Tree.isSome = true ∨ ∀ i < s.cfg.numIn, (s.inAt i).fsmEnabled = true → (s.inAt i).state ≠ 4#5

/-- No DCM tick ever needs a pin-2 tree that is not there: there is one, or pin-2 detection is disabled and no enabled port
is in `PIN2_LOW`, or in `CONNECTION` with the pin-2 bit latched. That is the platform's case (R178, R194). -/
def TreeNeverMissed (s : State) : Prop :=
  s.cfg.pin2Tree.isSome = true ∨
    (s.cfg.pin2Detect = false ∧ ∀ i < s.cfg.numIn, (s.inAt i).fsmEnabled = true →
      (s.inAt i).state ≠ 4#5 ∧ ((s.inAt i).state = 3#5 → (s.inAt i).event.getLsbD 1 = false))

/-- A safe run of `n` steps: it meets no refusal (the block has no fault, R290). -/
def SafeFor (n : Nat) (s : State) : Prop := ∃ t, runSteps n s = .next t

end Sys2Proof.Machine
end

