-- ==== Sys2Proof/Certificates/Slice0/Obligations.lean ====
section
/-! DEFINITION. The statements for the provers, in the order of the spec's files. Codes, thresholds and tick counts are
written as the spec's numbers. -/

open Sys2Proof Sys2Proof.Config Sys2Proof.Machine

/-! ## Parameters, encodings and requests -/

/-- R8, R9: the two conversions, and the thresholds in counts and the delays in ticks that they give. -/
def Obligations.ThresholdsAndTicks : Prop :=
  (∀ mv, vToC mv = mv * 4095 / 5000) ∧ (∀ ms, ticksOf ms = ms / 10) ∧
  tIn1Near5v = 3931 ∧ tIn1NearPin2 = 2538 ∧ tIn1NearGnd = 81 ∧ tOut5BalHigh = 2129 ∧ tOut5BalLow = 1965 ∧
  tOut5IicHigh = 3030 ∧ tOut5IicLow = 2293 ∧ tOut5NearGnd = 81 ∧ tOut5NewtachoLow2 = 368 ∧
  tOut5MinitachoLow2 = 204 ∧ connectTicks = 35 ∧ disconnectTicks = 10 ∧ floatTicks = 2 ∧ lowTicks = 2 ∧
  touchTicks = 2 ∧ colorTimeoutTicks = 50

/-- Sample words of the opcode table, one or more for each format, decode to their rows under the values of R7. -/
def Obligations.SampleEncodingsDecode : Prop :=
  let p := Platform.standard
  decode p (.strobe 0b01 0xF456) = .ok (.tickS 0xF456) ∧ decode p (.strobe 0b10 0) = .ok .tickD ∧
  decode p (.hostWrite [0x65, 0x30, 0x2D, 0x2D, 0x2D, 0x2D, 0x2D, 0x2D, 0x2D, 0x2D, 0x2D, 0x2D, 0x31]) =
    .ok (.writeE [0x30, 0x2D, 0x2D, 0x2D, 0x2D, 0x2D, 0x2D, 0x2D, 0x2D, 0x2D, 0x2D, 0x31]) ∧
  decode p (.hostWrite [0x74, 0x7E, 0x7E, 0x7A, 0, 0, 0, 0, 0, 0, 0, 0, 0]) =
    .ok (.writeT [0x7E, 0x7E, 0x7A, 0, 0, 0, 0, 0, 0, 0, 0, 0]) ∧
  decode p (.echar 4 0x30) = .ok (.eDisable 4) ∧ decode p (.echar 4 0x31) = .ok (.eEnable 4) ∧
  decode p (.echar 4 0x58) = .ok (.eOther 4 0x58) ∧ decode p (.bareByte 0 0x0D) = .ok (.bareColor0D 0) ∧
  decode p (.bareByte 1 0x65) = .ok (.bareRawpin 1 0x65) ∧ decode p (.hostStore (.inUpd 3) 0) = .ok (.clrupdIn 3) ∧
  decode p (.inState 2 0b01001) = .ok (.inPin1Loaded 2) ∧ decode p (.inState 2 0b10100) = .ok (.inReserved 2 20) ∧
  decode p (.outState 1 0b100) = .ok (.outConnection 1) ∧ decodeTableWord 8 0x01 = some (.tickS 0) ∧
  decodeTableWord 8 0x2D = some (.eNop 0)

/-- Decoding the encoding of a well-formed instruction gives it back, with every operand, whatever the platform's port
counts and `'e'` characters. -/
def Obligations.DecodeInvertsEncode : Prop :=
  ∀ (p : Platform) (i : Instr), i.WellFormed p → decode p (encode p i) = .ok i

/-- What the decoder accepts is a well-formed row, and its encoding is a word that decodes to the same row. -/
def Obligations.DecodedRowsAreWellFormed : Prop :=
  ∀ (p : Platform) (e : Encoding) (i : Instr), decode p e = .ok i →
    i.WellFormed p ∧ (encode p i).format = e.format ∧ decode p (encode p i) = .ok i

/-- R80, R81, R82, R84, R85, R268: what a request comes to. A strobe vector is no operation, `TICK_S` or `TICK_D`; a store
of 0 to an update flag of the block is its `CLRUPD`; and every byte string decodes: `'e'` and `'t'` writes of
`1 + NUM_IN` bytes to their row, of another length to nothing, the empty string to nothing, any other string to one row
for each of its first `NUM_IN` bytes. That these rows stand in ascending port order is the model's choice (log 19). -/
def Obligations.EveryRequestDecodes : Prop :=
  ∀ p : Platform,
    (∀ spi : Cell16, decodeRequest p (.strobe 0b00 spi) = .operations [] ∧
      decodeRequest p (.strobe 0b01 spi) = .operations [.tickS spi] ∧
      decodeRequest p (.strobe 0b10 spi) = .operations [.tickD]) ∧
    (∀ i < p.numIn, decodeRequest p (.store (.inUpd i) 0) = .operations [.clrupdIn i]) ∧
    (∀ j < p.numOut, decodeRequest p (.store (.outUpd j) 0) = .operations [.clrupdOut j]) ∧
    decodeRequest p (.write []) = .operations [] ∧
    ∀ (b : Byte) (rest : List Byte), decodeRequest p (.write (b :: rest)) = .operations
      (if b = 0x65 then (if rest.length = p.numIn then [Instr.writeE rest] else [])
       else if b = 0x74 then (if rest.length = p.numIn then [Instr.writeT rest] else [])
       else (List.range (min p.numIn (rest.length + 1))).map fun i =>
          let x := (b :: rest).getD i 0
          if x = 0x0D then Instr.bareColor0D i
          else if x = 0x0E then Instr.bareColor0E i
          else if x = 0x0F then Instr.bareColor0F i
          else if x = 0x10 then Instr.bareColor10 i
          else if x = 0x11 then Instr.bareColor11 i
          else Instr.bareRawpin i x)

/-- A step runs the instructions that the next request decodes to, after taking the request: its answers become the
standing ones, the call record starts empty, the request is gone. A request that decodes to none (R80, R81, R82, R84,
R294) is taken and changes nothing else. With no request nothing changes (R310). A request of several rows is a bare write
or both strobes, and the order of its rows is the model's (log 19, log 10). -/
def Obligations.StepRunsDecodedInstruction : Prop :=
  (∀ s : State, s.pending = [] → step s = .next s) ∧
  (∀ (s : State) (a : Arrival) (rest : List Arrival), s.pending = a :: rest →
    decodeRequest s.cfg.toPlatform a.request = .operations [] →
    step s = .next { s with env := a.env, pending := rest, calls := [] }) ∧
  (∀ (s : State) (a : Arrival) (rest : List Arrival) (i : Instr), s.pending = a :: rest →
    decodeRequest s.cfg.toPlatform a.request = .operations [i] →
    step s = exec i { s with env := a.env, pending := rest, calls := [] }) ∧
  (∀ (s : State) (a : Arrival) (rest : List Arrival) (i : Instr) (is : List Instr), s.pending = a :: rest →
    decodeRequest s.cfg.toPlatform a.request = .operations (i :: is) →
    step s = andThen (exec i { s with env := a.env, pending := rest, calls := [] }) (forEach exec is))

/-- R268, R270, R295 (b), (c): a host store to any field but an update flag of the block, and every ioctl, is refused. That a
store to the flag of a port the block does not have is refused so is the model's choice (log 12, log 13). -/
def Obligations.OtherHostStoresAndIoctlsRefused : Prop :=
  (∀ (s : State) (a : Arrival) (rest : List Arrival) (f : HostField) (v : Nat), s.pending = a :: rest →
    a.request = .store f v → (∀ i < s.cfg.numIn, f ≠ .inUpd i) → (∀ j < s.cfg.numOut, f ≠ .outUpd j) →
    step s = .refused .hostStoreRefused) ∧
  (∀ (s : State) (a : Arrival) (rest : List Arrival) (n : Nat), s.pending = a :: rest → a.request = .ioctl n →
    step s = .refused .ioctlRefused)

/-! ## Sampler -/

/-- R114, R116, R117: on the entry `e` that the pointer names, `TICK_S` completes; the answer's low 12 bits, and nothing
else, reach the destination slot; the pointer advances or, at the table's end, returns to 0 with the table chosen by the
colour-active ports. -/
def Obligations.SamplerStoresAndAdvances : Prop :=
  ∀ (s : State) (r : Cell16) (e : ScheduleEntry), s.table.entries[s.samp.ptr]? = some e →
    ∃ t, exec (.tickS r) s = .next t ∧ SameInputs s t ∧
      (∀ x, t.bufAt x = if e.dest = some x then r &&& 0x0FFF else s.bufAt x) ∧
      (s.samp.ptr + 1 ≠ s.table.entries.length → t.samp = { sel := s.samp.sel, ptr := s.samp.ptr + 1 }) ∧
      (s.samp.ptr + 1 = s.table.entries.length → t.samp.ptr = 0 ∧
        (t.samp.sel = .long ↔ ∃ i < s.cfg.numIn, (s.inAt i).colorActive = true))

/-- What stops by name because the block does not have it. The model's own refusals: a sampler tick whose pointer lies
past its table, which R23 rules out (log 6), and a row for a port at or past `NUM_IN` or `NUM_OUT`, which no request
decodes to and no dispatch reaches (log 12). -/
def Obligations.MissingEntriesAndPortsStop : Prop :=
  (∀ (s : State) (r : Cell16), s.table.entries.length ≤ s.samp.ptr →
    exec (.tickS r) s = .refused .schedulePointerOutside) ∧
  (∀ (s : State) (i : Nat), s.cfg.numIn ≤ i →
    (∀ ins ∈ [Instr.eDisable i, .eEnable i, .eNop i, .bareColor0D i, .bareColor0E i, .bareColor0F i, .bareColor10 i,
      .bareColor11 i, .clrupdIn i, .inInit i, .inFloatingDelay i, .inFloating i, .inConnection i, .inPin2Low i,
      .inNxtTouchCheck i, .inNxtColorInit i, .inNxtColorWait i, .inNxtColorBusy i, .inPin1Loaded i, .inPin6High i,
      .inPin5Low i, .inWaitPin2High i, .inWaitPin1ToFloat i, .inWaitPin6Low i, .inWaitPin5High i, .inDisabled i],
      exec ins s = .refused .portOutside) ∧
    (∀ b, exec (.eOther i b) s = .refused .portOutside ∧ exec (.bareRawpin i b) s = .refused .portOutside) ∧
    ∀ code, exec (.inReserved i code) s = .refused .portOutside) ∧
  (∀ (s : State) (j : Nat), s.cfg.numOut ≤ j →
    ∀ ins ∈ [Instr.clrupdOut j, .outInit j, .outFloatingDelay j, .outFloating j, .outWaitPin6Low j, .outConnection j,
      .outWaitPin5Low j, .outWaitPortOpen j, .outReserved j], exec ins s = .refused .portOutside)

/-- R91, R112, R115: the calls of a sampler tick are one exchange of the command word, then, under the long table, the
two clock flags of each colour-active port in port order. -/
def Obligations.SamplerCalls : Prop :=
  ∀ (s t : State) (r : Cell16) (e : ScheduleEntry), s.table.entries[s.samp.ptr]? = some e →
    exec (.tickS r) s = .next t →
    t.calls = s.calls ++ [OracleCall.spiExchange (s.cfg.adcCmdBase ||| e.chan)] ++
      (if s.samp.sel = .short then []
       else (List.range s.cfg.numIn).flatMap fun i =>
        if (s.inAt i).colorActive then
          (match e.clkA with | .drive d => [OracleCall.drive (.inp i .auxA) d] | .keep => []) ++
          (match e.clkB with | .drive d => [OracleCall.drive (.inp i .auxB) d] | .keep => [])
        else [])

/-- R33, R115: what the auxiliary clocking leaves on the pins: role B holds its flag where it has one; role A holds its flag
where it has one and role B does not name the same pin with a flag of its own; every other cell, and every port that is
not clocked, is as before. The clauses on shared pins rest on the model's reading of R33 (log 8, DEDUCED). -/
def Obligations.SamplerAuxiliaryClocking : Prop :=
  ∀ (s t : State) (r : Cell16) (e : ScheduleEntry) (i : Nat), i < s.cfg.numIn → s.table.entries[s.samp.ptr]? = some e →
    exec (.tickS r) s = .next t →
    (s.samp.sel = .short ∨ (s.inAt i).colorActive = false → (t.inAt i).drv = (s.inAt i).drv) ∧
    (s.samp.sel = .long → (s.inAt i).colorActive = true →
      (∀ d, e.clkB = .drive d → t.drvAt i .auxB = d) ∧
      (∀ d, e.clkA = .drive d → e.clkB = .keep ∨ s.cfg.auxPinA ≠ s.cfg.auxPinB → t.drvAt i .auxA = d) ∧
      (∀ c, (e.clkA = .keep ∨ c ≠ s.cfg.auxPinA) → (e.clkB = .keep ∨ c ≠ s.cfg.auxPinB) →
        (t.inAt i).drv.read c = (s.inAt i).drv.read c))

/-- R118: the tick that completes a cycle sets every update flag and pushes each input port's pin-1 and pin-6 slots, as
this tick left them, then advances the index modulo the depth; any other tick leaves flags and rings alone. -/
def Obligations.SamplerPublication : Prop :=
  ∀ (s t : State) (r : Cell16), exec (.tickS r) s = .next t →
    (s.samp.ptr + 1 = s.table.entries.length →
      (∀ i < s.cfg.numIn, (t.shInAt i).upd = true) ∧ (∀ j < s.cfg.numOut, (t.shOutAt j).upd = true) ∧
      ∀ i < s.cfg.numIn, (t.inAt i).ring = (s.inAt i).ring.set (s.inAt i).ringIdx
            { pin1 := (t.bufAt (.inPin1 i)).setWidth 12, pin6 := (t.bufAt (.inPin6 i)).setWidth 12 } ∧
          (t.inAt i).ringIdx = ((s.inAt i).ringIdx + 1) % s.cfg.ringDepth) ∧
    (s.samp.ptr + 1 ≠ s.table.entries.length →
      (∀ i, (t.shInAt i).upd = (s.shInAt i).upd) ∧ (∀ j, (t.shOutAt j).upd = (s.shOutAt j).upd) ∧
      ∀ i, (t.inAt i).ring = (s.inAt i).ring ∧ (t.inAt i).ringIdx = (s.inAt i).ringIdx)

/-- R307: a sampler tick leaves every other field of the ports and of `Sh` as it was. -/
def Obligations.SamplerFrame : Prop :=
  ∀ (s t : State) (r : Cell16), exec (.tickS r) s = .next t →
    (∀ i, t.inAt i = { s.inAt i with
      drv := (t.inAt i).drv, ring := (t.inAt i).ring, ringIdx := (t.inAt i).ringIdx }) ∧
    (∀ j, t.outAt j = s.outAt j) ∧
    (∀ i, t.shInAt i = { s.shInAt i with upd := (t.shInAt i).upd }) ∧
    (∀ j, t.shOutAt j = { s.shOutAt j with upd := (t.shOutAt j).upd })

/-- R114, R117, R118, R122: a full cycle from position 0 takes one tick for each entry, ends at position 0 with every
update flag set, and leaves in every slot that some entry names the answer to the last such entry's exchange. -/
def Obligations.FullCycleRefreshesSlots : Prop :=
  ∀ (s : State) (rs : List Cell16), s.samp.ptr = 0 → rs.length = s.table.entries.length →
    ∃ t, ticksS rs s = .next t ∧ t.samp.ptr = 0 ∧ (∀ i < s.cfg.numIn, (t.shInAt i).upd = true) ∧
      (∀ j < s.cfg.numOut, (t.shOutAt j).upd = true) ∧
      ∀ x : Slot, (∃ e ∈ s.table.entries, e.dest = some x) →
        ∃ (n : Nat) (e : ScheduleEntry) (r : Cell16), s.table.entries[n]? = some e ∧ e.dest = some x ∧
          rs[n]? = some r ∧ t.bufAt x = r &&& 0x0FFF ∧
          ∀ (m : Nat) (e' : ScheduleEntry), n < m → s.table.entries[m]? = some e' → e'.dest ≠ some x

/-! ## Comparators and event words -/

/-- R13, R140, R141, R142: the comparators, over the integers; bands and tolerances are half-open; and the corner values of a
tolerance of 10 that R143 derives. -/
def Obligations.ComparatorsAreHalfOpen : Prop :=
  (∀ x t : Nat, (below x t = true ↔ x < t) ∧ (above x t = true ↔ t < x)) ∧
  (∀ x lo hi : Int, inband x lo hi = true ↔ lo ≤ x ∧ x < hi) ∧
  (∀ x ref tol : Nat, near x ref tol = true ↔ (ref : Int) - tol ≤ x ∧ (x : Int) < ref + tol) ∧
  (∀ ref : Nat, 11 ≤ ref → near (ref - 10) ref 10 = true ∧ near (ref + 9) ref 10 = true ∧
    near (ref + 10) ref 10 = false ∧ near (ref - 11) ref 10 = false)

/-- R88, R89, R150, R151: the event words, bit by bit. -/
def Obligations.EventWords : Prop :=
  (∀ (s : State) (i : Nat),
    (evIn (s.ctxIn i)).getLsbD 0 = decide ((s.bufAt (.inPin1 i)).toNat % 4096 < 3931) ∧
    (evIn (s.ctxIn i)).getLsbD 1 = (s.cfg.pin2Detect && !(s.inAnswers i).pin2) ∧
    (evIn (s.ctxIn i)).getLsbD 2 = !(s.inAnswers i).pin5 ∧
    (evIn (s.ctxIn i)).getLsbD 3 = (s.inAnswers i).pin6) ∧
  (∀ (s : State) (j : Nat),
    (evOut (s.ctxOut j)).getLsbD 0 = decide ¬(1965 ≤ (s.bufAt (.outPin5 j)).toNat % 4096 ∧
      (s.bufAt (.outPin5 j)).toNat % 4096 < 2129) ∧
    (evOut (s.ctxOut j)).getLsbD 1 = !(s.outAnswers j).pin6)

/-! ## Input state rules -/

/-- R175, R193: `INIT`, and a reserved code, stop an open session, float every pin, clear classification, event and timer
and go to `FLOATING_DELAY`. The order of the six drives is the model's choice (log 20), and which pins share a drive cell its
reading of R33 (log 8). -/
def Obligations.InInitClearsPort : Prop :=
  ∀ (s : State) (i : Nat) (ins : Instr), i < s.cfg.numIn →
    (ins = .inInit i ∧ (s.inAt i).state = 0 ∨
      ins = .inReserved i (s.inAt i).state ∧ 17 ≤ (s.inAt i).state.toNat) →
    ∃ t, exec ins s = .next t ∧ SameButIn i s t ∧
      t.inAt i = { s.inAt i with
        state := 1, event := 0, timer := 0, connected := false, colorActive := false, sessionOpen := false,
        drv := (t.inAt i).drv } ∧
      (∀ role, t.drvAt i role = .float) ∧
      (∀ c, (∀ role, cellOf s.cfg role ≠ c) → (t.inAt i).drv.read c = (s.inAt i).drv.read c) ∧
      t.shInAt i = { s.shInAt i with devType := s.cfg.codes.typeNone, connClass := s.cfg.codes.connNone } ∧
      t.calls = s.calls ++ (if (s.inAt i).sessionOpen then [OracleCall.colorStop i] else []) ++
        ([Role.pin1, .pin2, .pin5, .pin6, .auxA, .auxB].map fun role => OracleCall.drive (.inp i role) .float)

/-- R153, R154, R155, R176, R222: `FLOATING_DELAY` of an input and of an output port. -/
def Obligations.FloatingDelayWaits : Prop :=
  (∀ (s : State) (i : Nat), i < s.cfg.numIn → (s.inAt i).state = 1 →
    CompletesIn (.inFloatingDelay i) i s
      (if 2 ≤ tickUp s.cfg (s.inAt i).timer then { s.inAt i with state := 2, timer := 0 }
       else { s.inAt i with timer := tickUp s.cfg (s.inAt i).timer }) (s.shInAt i) []) ∧
  (∀ (s : State) (j : Nat), j < s.cfg.numOut → (s.outAt j).state = 1 →
    CompletesOut (.outFloatingDelay j) j s
      (if 2 ≤ tickUp s.cfg (s.outAt j).timer then { s.outAt j with state := 2, timer := 0 }
       else { s.outAt j with timer := tickUp s.cfg (s.outAt j).timer }) (s.shOutAt j) [])

/-- R152, R154, R155, R177: `FLOATING` of an input port: a changed event word restarts the count; an unchanged nonzero
one fires at 35. -/
def Obligations.InFloatingDebounces : Prop :=
  ∀ (s : State) (i : Nat), i < s.cfg.numIn → (s.inAt i).state = 2 →
    (evIn (s.ctxIn i) ≠ (s.inAt i).event →
      CompletesIn (.inFloating i) i s { s.inAt i with event := evIn (s.ctxIn i), timer := 0 } (s.shInAt i) []) ∧
    (evIn (s.ctxIn i) = (s.inAt i).event →
      CompletesIn (.inFloating i) i s
        (if (s.inAt i).event ≠ 0 ∧ 35 ≤ tickUp s.cfg (s.inAt i).timer then { s.inAt i with state := 3, timer := 0 }
         else { s.inAt i with timer := tickUp s.cfg (s.inAt i).timer }) (s.shInAt i) [])

/-- R155, R178: `CONNECTION` dispatches on the first set bit in the order pin 2, pin 1, pin 6, pin 5. -/
def Obligations.InConnectionPriority : Prop :=
  ∀ (s : State) (i : Nat), i < s.cfg.numIn → (s.inAt i).state = 3 →
    CompletesIn (.inConnection i) i s
      { s.inAt i with
        timer := 0
        state :=
          if (s.inAt i).event.getLsbD 1 then 4
          else if (s.inAt i).event.getLsbD 0 then 9
          else if (s.inAt i).event.getLsbD 3 then 10
          else if (s.inAt i).event.getLsbD 2 then 11
          else 0 } (s.shInAt i) []

/-- R155, R179, R180: `PIN2_LOW` latches pin 1, connects, and takes the effect of the tree's outcome. That the tree is a plain
table of bounds is the model's choice (log 7). -/
def Obligations.InPin2LowOutcomes : Prop :=
  ∀ (s : State) (i : Nat) (tree : Pin2Tree), i < s.cfg.numIn → (s.inAt i).state = 4 → s.cfg.pin2Tree = some tree →
    let x1 : Count := (s.bufAt (.inPin1 i)).setWidth 12
    let p : InPort := { s.inAt i with value := x1, connected := true, timer := 0 }
    let k := s.cfg.codes
    match pin2TreeEval tree ((s.inAt i).event.getLsbD 2) ((s.inAt i).event.getLsbD 3) x1 with
    | .iic => CompletesIn (.inPin2Low i) i s { p with state := 12 }
        { s.shInAt i with devType := k.typeNxtIic, connClass := k.connNxtIic } []
    | .color => CompletesIn (.inPin2Low i) i s { p with state := 6 }
        { s.shInAt i with devType := k.typeNxtColor, connClass := k.connNxtColor } []
    | .light => CompletesIn (.inPin2Low i) i s { p with state := 12 }
        { s.shInAt i with devType := k.typeNxtLight, connClass := k.connNxtDumb } []
    | .test => CompletesIn (.inPin2Low i) i s { p with state := 12 }
        { s.shInAt i with devType := k.typeNxtTest, connClass := k.connNxtDumb } []
    | .touchCandidate => CompletesIn (.inPin2Low i) i s { p with state := 5 } (s.shInAt i) []
    | .sound => CompletesIn (.inPin2Low i) i s { p with state := 12 }
        { s.shInAt i with devType := k.typeNxtSound, connClass := k.connNxtDumb } []

/-- R142, R155, R181: `NXT_TOUCH_CHECK` waits 2 ticks, then re-reads pin 1 against the latched value within the half-open
tolerance of 10. -/
def Obligations.InTouchCheck : Prop :=
  ∀ (s : State) (i : Nat), i < s.cfg.numIn → (s.inAt i).state = 5 →
    let x1 : Int := ((s.bufAt (.inPin1 i)).toNat % 4096 : Nat)
    let ref : Int := ((s.inAt i).value.toNat : Nat)
    (tickUp s.cfg (s.inAt i).timer < 2 → CompletesIn (.inNxtTouchCheck i) i s
      { s.inAt i with timer := tickUp s.cfg (s.inAt i).timer } (s.shInAt i) []) ∧
    (2 ≤ tickUp s.cfg (s.inAt i).timer → CompletesIn (.inNxtTouchCheck i) i s
      { s.inAt i with timer := 0, state := 12 }
      { s.shInAt i with
        connClass := s.cfg.codes.connNxtDumb
        devType := if ref - 10 ≤ x1 ∧ x1 < ref + 10 then s.cfg.codes.typeNxtTouch else s.cfg.codes.typeNxtSound } [])

/-- R155, R182, R184: `NXT_COLOR_INIT` starts a session; `NXT_COLOR_BUSY` copies the result, stops the session and marks
the port colour-active. -/
def Obligations.InColorSession : Prop :=
  (∀ (s : State) (i : Nat), i < s.cfg.numIn → (s.inAt i).state = 6 →
    CompletesIn (.inNxtColorInit i) i s { s.inAt i with sessionOpen := true, state := 7, timer := 0 } (s.shInAt i)
      [.colorStart i s.cfg.colorInitCmd]) ∧
  (∀ (s : State) (i : Nat), i < s.cfg.numIn → (s.inAt i).state = 8 →
    CompletesIn (.inNxtColorBusy i) i s
      { s.inAt i with sessionOpen := false, colorActive := true, state := 12, timer := 0 }
      { s.shInAt i with colorRes := (s.inAnswers i).result } [.colorStop i])

/-- R153, R155, R183: `NXT_COLOR_WAIT`: a ready answer wins; else the 50th tick stops the session and moves on. -/
def Obligations.InColorWait : Prop :=
  ∀ (s : State) (i : Nat), i < s.cfg.numIn → (s.inAt i).state = 7 →
    ((s.inAnswers i).ready = true →
      CompletesIn (.inNxtColorWait i) i s { s.inAt i with state := 8, timer := 0 } (s.shInAt i) []) ∧
    ((s.inAnswers i).ready = false → 50 ≤ tickUp s.cfg (s.inAt i).timer →
      CompletesIn (.inNxtColorWait i) i s { s.inAt i with sessionOpen := false, state := 12, timer := 0 } (s.shInAt i)
        [.colorStop i]) ∧
    ((s.inAnswers i).ready = false → tickUp s.cfg (s.inAt i).timer < 50 →
      CompletesIn (.inNxtColorWait i) i s
        { s.inAt i with timer := tickUp s.cfg (s.inAt i).timer } (s.shInAt i) [])

/-- R155, R185: `PIN1_LOADED` latches pin 1, connects and classifies by the two thresholds. -/
def Obligations.InPin1LoadedBands : Prop :=
  ∀ (s : State) (i : Nat), i < s.cfg.numIn → (s.inAt i).state = 9 →
    let x1 := (s.bufAt (.inPin1 i)).toNat % 4096
    let k := s.cfg.codes
    CompletesIn (.inPin1Loaded i) i s
      { s.inAt i with
        value := (s.bufAt (.inPin1 i)).setWidth 12, connected := true, state := 13, timer := 0 }
      { s.shInAt i with
        devType := if 2538 < x1 then k.typeError else k.typeUnknown
        connClass := if 2538 < x1 then k.connError else if x1 < 81 then k.connInputUart else k.connInputDumb } []

/-- R155, R186, R187: `PIN6_HIGH` is an IIC sensor, `PIN5_LOW` an error. -/
def Obligations.InPin6HighAndPin5Low : Prop :=
  (∀ (s : State) (i : Nat), i < s.cfg.numIn → (s.inAt i).state = 10 →
    CompletesIn (.inPin6High i) i s { s.inAt i with connected := true, state := 14, timer := 0 }
      { s.shInAt i with devType := s.cfg.codes.typeNxtIic, connClass := s.cfg.codes.connNxtIic } []) ∧
  (∀ (s : State) (i : Nat), i < s.cfg.numIn → (s.inAt i).state = 11 →
    CompletesIn (.inPin5Low i) i s { s.inAt i with connected := true, state := 15, timer := 0 }
      { s.shInAt i with devType := s.cfg.codes.typeError, connClass := s.cfg.codes.connError } [])

/-- R152, R154, R155, R188: `CONNECTED_WAITING_FOR_PIN2_HIGH` leaves only with detection enabled, pin 2 released and the
event word unchanged for 10 ticks. -/
def Obligations.InWaitPin2High : Prop :=
  ∀ (s : State) (i : Nat), i < s.cfg.numIn → (s.inAt i).state = 12 →
    (evIn (s.ctxIn i) ≠ (s.inAt i).event →
      CompletesIn (.inWaitPin2High i) i s { s.inAt i with event := evIn (s.ctxIn i), timer := 0 } (s.shInAt i) []) ∧
    (evIn (s.ctxIn i) = (s.inAt i).event →
      CompletesIn (.inWaitPin2High i) i s
        (if s.cfg.pin2Detect = true ∧ (s.inAt i).event.getLsbD 1 = false ∧ 10 ≤ tickUp s.cfg (s.inAt i).timer then
          { s.inAt i with state := 0, timer := 0 }
         else { s.inAt i with timer := tickUp s.cfg (s.inAt i).timer }) (s.shInAt i) [])

/-- R152, R154, R155, R189, R190, R191: the three waits for release of pin 1, pin 6 and pin 5. -/
def Obligations.InWaitForRelease : Prop :=
  ∀ (s : State) (i : Nat), i < s.cfg.numIn →
    ∀ w ∈ [(Instr.inWaitPin1ToFloat i, (13 : BitVec 5), 0), (Instr.inWaitPin6Low i, 14, 3),
      (Instr.inWaitPin5High i, 15, 2)],
    (s.inAt i).state = w.2.1 →
    (evIn (s.ctxIn i) ≠ (s.inAt i).event →
      CompletesIn w.1 i s { s.inAt i with event := evIn (s.ctxIn i), timer := 0 } (s.shInAt i) []) ∧
    (evIn (s.ctxIn i) = (s.inAt i).event →
      CompletesIn w.1 i s
        (if (s.inAt i).event.getLsbD w.2.2 = false ∧ 10 ≤ tickUp s.cfg (s.inAt i).timer then
          { s.inAt i with state := 0, timer := 0 }
         else { s.inAt i with timer := tickUp s.cfg (s.inAt i).timer }) (s.shInAt i) [])

/-- R192: `DISABLED` forces `Connected` and clears the timer. -/
def Obligations.InDisabledForcesConnected : Prop :=
  ∀ (s : State) (i : Nat), i < s.cfg.numIn → (s.inAt i).state = 16 →
    CompletesIn (.inDisabled i) i s { s.inAt i with connected := true, timer := 0 } (s.shInAt i) []

/-! ## Output state rules -/

/-- R221, R228: `INIT`, and the reserved code 7, float both pins and clear classification, events and timer. -/
def Obligations.OutInitClearsPort : Prop :=
  ∀ (s : State) (j : Nat) (ins : Instr), j < s.cfg.numOut →
    (ins = .outInit j ∧ (s.outAt j).state = 0 ∨ ins = .outReserved j ∧ (s.outAt j).state = 7) →
    CompletesOut ins j s
      { s.outAt j with
        state := 1, event := 0, connEvent := 0, timer := 0, connected := false,
        drv := { pin5 := .float, pin6 := .float } }
      { s.shOutAt j with devType := s.cfg.codes.typeNone, connClass := s.cfg.codes.connNone }
      [.drive (.outPin5 j) .float, .drive (.outPin6 j) .float]

/-- R152, R154, R155, R223: `FLOATING` of an output port latches pin 5 on every tick, and fires at 35 ticks of an
unchanged nonzero event word: it latches the event, drives pin 5 low and moves on. -/
def Obligations.OutFloatingDebounces : Prop :=
  ∀ (s : State) (j : Nat), j < s.cfg.numOut → (s.outAt j).state = 2 →
    let e := evOut (s.ctxOut j)
    let p : OutPort := { s.outAt j with value5Float := (s.bufAt (.outPin5 j)).setWidth 12 }
    (e ≠ (s.outAt j).event →
      CompletesOut (.outFloating j) j s { p with event := e, timer := 0 } (s.shOutAt j) []) ∧
    (e = (s.outAt j).event → (s.outAt j).event ≠ 0 ∧ 35 ≤ tickUp s.cfg (s.outAt j).timer →
      CompletesOut (.outFloating j) j s
        { p with connEvent := e, drv := { p.drv with pin5 := .low }, state := 3, timer := 0 } (s.shOutAt j)
        [.drive (.outPin5 j) .low]) ∧
    (e = (s.outAt j).event → ¬((s.outAt j).event ≠ 0 ∧ 35 ≤ tickUp s.cfg (s.outAt j).timer) →
      CompletesOut (.outFloating j) j s
        { p with timer := tickUp s.cfg (s.outAt j).timer } (s.shOutAt j) [])

/-- R153, R155, R224: `WAITING_FOR_PIN6_LOW` latches the driven-low pin 5 after 2 ticks. -/
def Obligations.OutWaitPin6Low : Prop :=
  ∀ (s : State) (j : Nat), j < s.cfg.numOut → (s.outAt j).state = 3 →
    CompletesOut (.outWaitPin6Low j) j s
      (if 2 ≤ tickUp s.cfg (s.outAt j).timer then
        { s.outAt j with value5Low := (s.bufAt (.outPin5 j)).setWidth 12, state := 4, timer := 0 }
       else { s.outAt j with timer := tickUp s.cfg (s.outAt j).timer }) (s.shOutAt j) []

/-- R142, R155, R225: `CONNECTION` of an output port: a balanced pin 5 is no device; Float ≈ Low is classified by the
float bands; otherwise the port is re-measured. -/
def Obligations.OutConnectionDecides : Prop :=
  ∀ (s : State) (j : Nat), j < s.cfg.numOut → (s.outAt j).state = 4 →
    let v := (s.outAt j).value5Float.toNat
    let l : Int := ((s.outAt j).value5Low.toNat : Nat)
    (1965 ≤ v ∧ v < 2129 →
      CompletesOut (.outConnection j) j s
        { s.outAt j with state := 0, timer := 0, drv := { (s.outAt j).drv with pin5 := .float } } (s.shOutAt j)
        [.drive (.outPin5 j) .float]) ∧
    (¬(1965 ≤ v ∧ v < 2129) → l - 50 ≤ v ∧ (v : Int) < l + 50 →
      CompletesOut (.outConnection j) j s
        { s.outAt j with
          state := 6, timer := 0, connected := true, drv := { (s.outAt j).drv with pin5 := .float } }
        { s.shOutAt j with
          devType := (floatBands s.cfg.codes v ((s.outAt j).connEvent.getLsbD 1)).1
          connClass := (floatBands s.cfg.codes v ((s.outAt j).connEvent.getLsbD 1)).2 }
        [.drive (.outPin5 j) .float]) ∧
    (¬(1965 ≤ v ∧ v < 2129) → ¬(l - 50 ≤ v ∧ (v : Int) < l + 50) →
      CompletesOut (.outConnection j) j s { s.outAt j with state := 5, timer := 0 } (s.shOutAt j) [])

/-- R153, R155, R226: `WAITING_FOR_PIN5_LOW` re-measures after 2 ticks and classifies by the driven-low bands. -/
def Obligations.OutWaitPin5Low : Prop :=
  ∀ (s : State) (j : Nat), j < s.cfg.numOut → (s.outAt j).state = 5 →
    let x5 := (s.bufAt (.outPin5 j)).toNat % 4096
    (tickUp s.cfg (s.outAt j).timer < 2 →
      CompletesOut (.outWaitPin5Low j) j s
        { s.outAt j with timer := tickUp s.cfg (s.outAt j).timer } (s.shOutAt j) []) ∧
    (2 ≤ tickUp s.cfg (s.outAt j).timer →
      CompletesOut (.outWaitPin5Low j) j s
        { s.outAt j with
          value5Low := (s.bufAt (.outPin5 j)).setWidth 12, state := 6, timer := 0, connected := true,
          drv := { (s.outAt j).drv with pin5 := .float } }
        { s.shOutAt j with
          devType := (lowBands s.cfg.codes x5).1, connClass := (lowBands s.cfg.codes x5).2 }
        [.drive (.outPin5 j) .float])

/-- R152, R154, R155, R227: `CONNECTED_WAITING_FOR_PORT_OPEN` disconnects when the event word has differed from the one
latched at connection, unchanged, for 10 ticks. -/
def Obligations.OutWaitPortOpen : Prop :=
  ∀ (s : State) (j : Nat), j < s.cfg.numOut → (s.outAt j).state = 6 →
    (evOut (s.ctxOut j) ≠ (s.outAt j).event →
      CompletesOut (.outWaitPortOpen j) j s { s.outAt j with event := evOut (s.ctxOut j), timer := 0 }
        (s.shOutAt j) []) ∧
    (evOut (s.ctxOut j) = (s.outAt j).event →
      CompletesOut (.outWaitPortOpen j) j s
        (if (s.outAt j).event ≠ (s.outAt j).connEvent ∧ 10 ≤ tickUp s.cfg (s.outAt j).timer then
          { s.outAt j with state := 0, timer := 0 }
         else { s.outAt j with timer := tickUp s.cfg (s.outAt j).timer }) (s.shOutAt j) [])

/-- R229, R230: the two output band tables, row by row. -/
def Obligations.OutputBandTables : Prop :=
  ∀ (k : CodeTable) (v : Nat) (e6 : Bool),
    floatBands k v e6 =
      (if 2293 ≤ v ∧ v < 3030 then (k.typeUnknown, k.connOutputIntelligent)
       else if v < 81 then (k.typeError, k.connError)
       else if v < 1965 ∧ e6 = true ∧ 368 ≤ v then (k.typeNewtacho, k.connOutputTacho)
       else if v < 1965 ∧ e6 = true ∧ 204 ≤ v then (k.typeMinitacho, k.connOutputTacho)
       else if v < 1965 ∧ e6 = true then (k.typeTacho, k.connOutputTacho)
       else if v < 1965 then (k.typeUnknown, k.connOutputDumb)
       else (k.typeError, k.connError)) ∧
    lowBands k v =
      (if v < 1965 ∧ 368 ≤ v then (k.typeNewtacho, k.connOutputTacho)
       else if v < 1965 ∧ 204 ≤ v then (k.typeMinitacho, k.connOutputTacho)
       else if v < 1965 then (k.typeTacho, k.connOutputTacho)
       else (k.typeError, k.connError))

/-! ## The DCM tick -/

/-- R170, R171, R172: one port's step: the old state is recorded, the FSM override applied, and the rule run is the row
whose code the state register then holds. -/
def Obligations.PortStepOverridesThenDispatches : Prop :=
  (∀ (s : State) (i : Nat),
    let st : BitVec 5 :=
      if (s.inAt i).fsmEnabled = false then 16 else if (s.inAt i).state = 16 then 0 else (s.inAt i).state
    stepIn i s = exec (decodeInState i st) (s.setIn i { s.inAt i with oldState := (s.inAt i).state, state := st })) ∧
  (∀ (s : State) (j : Nat),
    stepOut j s = exec (decodeOutState j (s.outAt j).state)
      (s.setOut j { s.outAt j with oldState := (s.outAt j).state }))

/-- R170, R220, R298: wherever no enabled port lacks the pin-2 tree it needs, `TICK_D` completes and steps every port as if
it were alone; the calls it makes are those of the ports' own steps, input ports in order, then output ports in order; it
writes no sampler register, slot, parameter or answer. -/
def Obligations.DcmTickStepsEachPortAlone : Prop :=
  ∀ s : State, TreeReady s →
    ∃ (t : State) (ci co : Nat → List OracleCall), exec .tickD s = .next t ∧ SameInputs s t ∧ t.samp = s.samp ∧
      (∀ x, t.bufAt x = s.bufAt x) ∧
      (∀ i < s.cfg.numIn, ∃ u, stepIn i s = .next u ∧ t.inAt i = u.inAt i ∧ t.shInAt i = u.shInAt i ∧
        u.calls = s.calls ++ ci i) ∧
      (∀ j < s.cfg.numOut, ∃ u, stepOut j s = .next u ∧ t.outAt j = u.outAt j ∧ t.shOutAt j = u.shOutAt j ∧
        u.calls = s.calls ++ co j) ∧
      t.calls = s.calls ++ (List.range s.cfg.numIn).flatMap ci ++ (List.range s.cfg.numOut).flatMap co

/-- R179, R295 (e): the one thing that stops a DCM tick is a port that would run `PIN2_LOW` with no `PIN2_TREE`. -/
def Obligations.DcmTickStopsOnlyForMissingTree : Prop :=
  ∀ s : State,
    (exec .tickD s = .refused .pin2TreeAbsent ↔
      s.cfg.pin2Tree = none ∧ ∃ i < s.cfg.numIn, (s.inAt i).fsmEnabled = true ∧ (s.inAt i).state = 4) ∧
    (exec .tickD s ≠ .refused .pin2TreeAbsent → ∃ t, exec .tickD s = .next t) ∧
    (∀ i < s.cfg.numIn, s.cfg.pin2Tree = none → exec (.inPin2Low i) s = .refused .pin2TreeAbsent)

/-- R170, R175, R176, R177, R178, R185, R195: a port in `INIT` whose device makes the event word constant with the pin-1
bit set and the pin-2 bit clear is classified on the 41st DCM tick and shows `NONE` on every earlier one, where the timer
is wide enough to count the 35 ticks. -/
def Obligations.InputConnectionLatency : Prop :=
  ∀ (s : State) (i : Nat), i < s.cfg.numIn → TreeNeverMissed s → 35 < 2 ^ s.cfg.timerBits →
    (s.inAt i).fsmEnabled = true → (s.inAt i).state = 0 →
    (evIn (s.ctxIn i)).getLsbD 0 = true → (evIn (s.ctxIn i)).getLsbD 1 = false →
    (∀ n, 1 ≤ n → n ≤ 40 → ∃ u, ticksD n s = .next u ∧ (u.shInAt i).devType = s.cfg.codes.typeNone ∧
      (u.shInAt i).connClass = s.cfg.codes.connNone ∧ (u.inAt i).connected = false) ∧
    ∃ t, ticksD 41 s = .next t ∧ (t.inAt i).state = 13 ∧ (t.inAt i).oldState = 9 ∧ (t.inAt i).connected = true ∧
      (t.inAt i).timer = 0 ∧ (t.inAt i).value = (s.bufAt (.inPin1 i)).setWidth 12 ∧
      (t.shInAt i).devType =
        (if 2538 < (s.bufAt (.inPin1 i)).toNat % 4096 then s.cfg.codes.typeError else s.cfg.codes.typeUnknown) ∧
      (t.shInAt i).connClass =
        (if 2538 < (s.bufAt (.inPin1 i)).toNat % 4096 then s.cfg.codes.connError
         else if (s.bufAt (.inPin1 i)).toNat % 4096 < 81 then s.cfg.codes.connInputUart
         else s.cfg.codes.connInputDumb)

/-- R220 to R225, R229, R232: an output port in `INIT` with steady pins and pin 5 outside the balance band is classified
by the float bands on the 42nd DCM tick and shows `NONE` on every earlier one, where the timer is wide enough. -/
def Obligations.OutputConnectionLatency : Prop :=
  ∀ (s : State) (j : Nat), j < s.cfg.numOut → TreeNeverMissed s → 35 < 2 ^ s.cfg.timerBits →
    (s.outAt j).state = 0 → (evOut (s.ctxOut j)).getLsbD 0 = true →
    let v := (s.bufAt (.outPin5 j)).toNat % 4096
    let tc := floatBands s.cfg.codes v (!(s.outAnswers j).pin6)
    (∀ n, 1 ≤ n → n ≤ 41 → ∃ u, ticksD n s = .next u ∧ (u.shOutAt j).devType = s.cfg.codes.typeNone ∧
      (u.shOutAt j).connClass = s.cfg.codes.connNone ∧ (u.outAt j).connected = false) ∧
    ∃ t, ticksD 42 s = .next t ∧ (t.outAt j).state = 6 ∧ (t.outAt j).connected = true ∧
      (t.outAt j).drv.pin5 = .float ∧ (t.shOutAt j).devType = tc.1 ∧ (t.shOutAt j).connClass = tc.2

/-- R154, R177, R272: an empty port re-enabled in `INIT` reaches `FLOATING` with no event and `NONE` on the third DCM tick
and stays there for ever. -/
def Obligations.EmptyPortSettlesInFloating : Prop :=
  ∀ (s : State) (i : Nat) (n : Nat), i < s.cfg.numIn → TreeNeverMissed s → 2 < 2 ^ s.cfg.timerBits →
    (s.inAt i).fsmEnabled = true → (s.inAt i).state = 0 → evIn (s.ctxIn i) = 0 → 3 ≤ n →
    ∃ t, ticksD n s = .next t ∧ (t.inAt i).state = 2 ∧ (t.inAt i).event = 0 ∧ (t.inAt i).connected = false ∧
      (t.shInAt i).devType = s.cfg.codes.typeNone ∧ (t.shInAt i).connClass = s.cfg.codes.connNone

/-! ## Host commands -/

/-- R83, R262: the per-port effect of each `'e'` character. -/
def Obligations.EnableCharacterEffects : Prop :=
  ∀ (s : State) (i : Nat), i < s.cfg.numIn →
    ((s.inAt i).fsmEnabled = true →
      CompletesIn (.eDisable i) i s
        { s.inAt i with fsmEnabled := false, event := 0, timer := 0, state := 16 }
        { s.shInAt i with devType := s.cfg.codes.typeNone, connClass := s.cfg.codes.connNone } []) ∧
    ((s.inAt i).fsmEnabled = false → exec (.eDisable i) s = .next s) ∧
    ((s.inAt i).fsmEnabled = false →
      CompletesIn (.eEnable i) i s { s.inAt i with fsmEnabled := true, timer := 0, state := 0 } (s.shInAt i) []) ∧
    ((s.inAt i).fsmEnabled = true → exec (.eEnable i) s = .next s) ∧
    exec (.eNop i) s = .next s ∧ ∀ c, exec (.eOther i c) s = .next s

/-- R261, R262: an `'e'` write of `NUM_IN` characters completes, gives every port what R262 gives it for its own character
and the platform's two, and touches nothing else; where the two differ, that is what the character's own row does alone;
a wrong length does nothing. -/
def Obligations.EnableWriteIsPerPort : Prop :=
  ∀ (s : State) (cs : List Byte),
    (cs.length ≠ s.cfg.numIn → exec (.writeE cs) s = .next s) ∧
    (cs.length = s.cfg.numIn → ∃ t, exec (.writeE cs) s = .next t ∧ SameInputs s t ∧ t.samp = s.samp ∧
      t.calls = s.calls ∧ (∀ x, t.bufAt x = s.bufAt x) ∧ (∀ j, t.outAt j = s.outAt j) ∧
      (∀ j, t.shOutAt j = s.shOutAt j) ∧
      ∀ (i : Nat) (c : Byte), cs[i]? = some c →
        (c = s.cfg.eCharDisable → (s.inAt i).fsmEnabled = true →
          t.inAt i = { s.inAt i with fsmEnabled := false, event := 0, timer := 0, state := 16 } ∧
          t.shInAt i =
            { s.shInAt i with devType := s.cfg.codes.typeNone, connClass := s.cfg.codes.connNone }) ∧
        (c = s.cfg.eCharEnable → (s.inAt i).fsmEnabled = false →
          t.inAt i = { s.inAt i with fsmEnabled := true, timer := 0, state := 0 } ∧ t.shInAt i = s.shInAt i) ∧
        ((c = s.cfg.eCharDisable → (s.inAt i).fsmEnabled = false) →
          (c = s.cfg.eCharEnable → (s.inAt i).fsmEnabled = true) →
          t.inAt i = s.inAt i ∧ t.shInAt i = s.shInAt i) ∧
        (s.cfg.eCharDisable ≠ s.cfg.eCharEnable →
          ∃ u, exec (decodeEChar s.cfg.toPlatform i c) s = .next u ∧ t.inAt i = u.inAt i ∧ t.shInAt i = u.shInAt i))

/-- R263, R264: a `'t'` write of `NUM_IN` codes stores each code in `Sh.InConn` of its port where the port is disabled, and
nothing else; a wrong length does nothing. -/
def Obligations.ForceWriteIsPerPort : Prop :=
  ∀ (s : State) (ks : List Byte),
    (ks.length ≠ s.cfg.numIn → exec (.writeT ks) s = .next s) ∧
    (ks.length = s.cfg.numIn → ∃ t, exec (.writeT ks) s = .next t ∧ SameInputs s t ∧ t.samp = s.samp ∧
      t.calls = s.calls ∧ (∀ x, t.bufAt x = s.bufAt x) ∧ (∀ j, t.outAt j = s.outAt j) ∧ (∀ j, t.shOutAt j = s.shOutAt j) ∧
      (∀ i, t.inAt i = s.inAt i) ∧
      ∀ (i : Nat) (k : Byte), ks[i]? = some k → t.shInAt i =
        if (s.inAt i).fsmEnabled then s.shInAt i else { s.shInAt i with connClass := k })

/-- R265, R266: the five colour command bytes open a session on a disabled port and do nothing on an enabled one. -/
def Obligations.BareColorCommands : Prop :=
  ∀ (s : State) (i : Nat), i < s.cfg.numIn →
    ∀ w ∈ [(Instr.bareColor0D i, (0x0D : Byte)), (Instr.bareColor0E i, 0x0E), (Instr.bareColor0F i, 0x0F),
      (Instr.bareColor10 i, 0x10), (Instr.bareColor11 i, 0x11)],
    ((s.inAt i).fsmEnabled = false →
      CompletesIn w.1 i s { s.inAt i with sessionOpen := true } (s.shInAt i) [.colorStart i w.2]) ∧
    ((s.inAt i).fsmEnabled = true → exec w.1 s = .next s)

/-- R265, R267, R295 (a): a raw-pin byte: nothing on an enabled port; on a disabled one the drives of its decode in
order, the last drive of each pin standing; refused where `RAWPIN_DECODE` has no value. -/
def Obligations.RawpinDrivesPins : Prop :=
  ∀ (s : State) (i : Nat) (b : Byte), i < s.cfg.numIn →
    ((s.inAt i).fsmEnabled = true → exec (.bareRawpin i b) s = .next s) ∧
    ((s.inAt i).fsmEnabled = false → s.cfg.rawpinDecode = none →
      exec (.bareRawpin i b) s = .refused .rawpinDecodeAbsent) ∧
    (∀ tab, (s.inAt i).fsmEnabled = false → s.cfg.rawpinDecode = some tab →
      ∃ t, exec (.bareRawpin i b) s = .next t ∧ SameButIn i s t ∧ t.shInAt i = s.shInAt i ∧
        t.inAt i = { s.inAt i with drv := (t.inAt i).drv } ∧
        t.calls = s.calls ++ (rawpinEval tab b).filterMap (fun rd =>
          match rd.2 with
          | .drive d => some (OracleCall.drive (.inp i rd.1) d)
          | .keep => none) ∧
        ∀ c, (t.inAt i).drv.read c =
          (((rawpinEval tab b).filterMap fun rd =>
            match rd.2 with
            | .drive d => if cellOf s.cfg rd.1 = c then some d else none
            | .keep => none).getLast?).getD ((s.inAt i).drv.read c))

/-- R268: `CLRUPD` clears one update flag. -/
def Obligations.ClearUpdateFlags : Prop :=
  (∀ (s : State) (i : Nat), i < s.cfg.numIn →
    CompletesIn (.clrupdIn i) i s (s.inAt i) { s.shInAt i with upd := false } []) ∧
  (∀ (s : State) (j : Nat), j < s.cfg.numOut →
    CompletesOut (.clrupdOut j) j s (s.outAt j) { s.shOutAt j with upd := false } [])

/-- R171, R192, R262, R264, R271: the round trip: disable port `i`, force code `k`, let any number of DCM ticks run: the
host reads `k`; re-enable and let one DCM tick run: the host reads `CONN_NONE`. The two `'e'` characters differ. -/
def Obligations.ForcedClassRoundTrip : Prop :=
  ∀ (s : State) (i : Nat) (ks : List Byte) (k : Byte) (n : Nat), TreeNeverMissed s → ks.length = s.cfg.numIn →
    ks[i]? = some k → s.cfg.eCharDisable ≠ s.cfg.eCharEnable →
    ∃ s1 s2 s3 s4 s5, exec (.writeE (pseudoDisable s.cfg.toPlatform i).tail) s = .next s1 ∧
      exec (.writeT ks) s1 = .next s2 ∧ ticksD n s2 = .next s3 ∧ s3.hostRead (.inConn i) = some (.code k) ∧
      exec (.writeE (pseudoEnable s.cfg.toPlatform i).tail) s3 = .next s4 ∧ exec .tickD s4 = .next s5 ∧
      s5.hostRead (.inConn i) = some (.code s.cfg.codes.connNone) ∧
      s5.hostRead (.inType i) = some (.code s.cfg.codes.typeNone)

/-- R43, R44, R269: what the host reads, field by field. That there is nothing to read outside the block's ports and rings is
the model's choice (log 12, log 13, log 14). -/
def Obligations.HostReadsLogicalFields : Prop :=
  ∀ s : State,
    (∀ i < s.cfg.numIn,
      s.hostRead (.inType i) = some (.code (s.shInAt i).devType) ∧
      s.hostRead (.inConn i) = some (.code (s.shInAt i).connClass) ∧
      s.hostRead (.sample (.inPin1 i)) = some (.cell (s.bufAt (.inPin1 i))) ∧
      s.hostRead (.sample (.inPin6 i)) = some (.cell (s.bufAt (.inPin6 i))) ∧
      (∀ k e, (s.inAt i).ring[k]? = some e → s.hostRead (.ring i k) = some (.pair e)) ∧
      (∀ k, (s.inAt i).ring.length ≤ k → s.hostRead (.ring i k) = none) ∧
      s.hostRead (.ringIdx i) = some (.index (s.inAt i).ringIdx) ∧
      s.hostRead (.inUpd i) = some (.flag (s.shInAt i).upd) ∧
      s.hostRead (.colorRes i) = some (.bytes (s.shInAt i).colorRes)) ∧
    (∀ j < s.cfg.numOut,
      s.hostRead (.outType j) = some (.code (s.shOutAt j).devType) ∧
      s.hostRead (.outConn j) = some (.code (s.shOutAt j).connClass) ∧
      s.hostRead (.sample (.outPin5 j)) = some (.cell (s.bufAt (.outPin5 j))) ∧
      s.hostRead (.outUpd j) = some (.flag (s.shOutAt j).upd)) ∧
    (∀ k : Fin 4, s.hostRead (.sample (.rail k)) = some (.cell (s.bufAt (.rail k)))) ∧
    (∀ i k, s.cfg.numIn ≤ i →
      ∀ f ∈ [HostField.inType i, .inConn i, .sample (.inPin1 i), .sample (.inPin6 i), .ring i k, .ringIdx i, .inUpd i,
        .colorRes i], s.hostRead f = none) ∧
    (∀ j, s.cfg.numOut ≤ j →
      ∀ f ∈ [HostField.outType j, .outConn j, .sample (.outPin5 j), .outUpd j], s.hostRead f = none)

/-! ## Rules about the whole machine -/

/-- R113, R307: no operation or rule but `TICK_S` writes the sampler registers, a slot or a ring, and none makes an SPI
exchange. -/
def Obligations.OnlySamplerWritesSamplerFields : Prop :=
  ∀ (ins : Instr) (s t : State), (∀ r, ins ≠ .tickS r) → exec ins s = .next t →
    t.samp = s.samp ∧ (∀ x, t.bufAt x = s.bufAt x) ∧
    (∀ i, (t.inAt i).ring = (s.inAt i).ring ∧ (t.inAt i).ringIdx = (s.inAt i).ringIdx) ∧
    ∃ cs, t.calls = s.calls ++ cs ∧ ∀ w, OracleCall.spiExchange w ∉ cs

/-- R34, R307: only the `'e'` command writes `FSMEnabled`. -/
def Obligations.OnlyEnableCommandWritesFsmEnabled : Prop :=
  ∀ (ins : Instr) (s t : State), (∀ cs, ins ≠ .writeE cs) → (∀ i, ins ≠ .eDisable i) → (∀ i, ins ≠ .eEnable i) →
    exec ins s = .next t → ∀ i, (t.inAt i).fsmEnabled = (s.inAt i).fsmEnabled

/-- R307: only the DCM writes an output record, an output classification, and the fields `OldState`, `Value`,
`Connected`, `ColorActive` and `InColorRes` of an input port. -/
def Obligations.OnlyDcmWritesDcmFields : Prop :=
  ∀ (ins : Instr) (s t : State), ins ≠ .tickD → (∀ p, (encode p ins).format ≠ .inState) →
    (∀ p, (encode p ins).format ≠ .outState) → exec ins s = .next t →
    (∀ j, t.outAt j = s.outAt j) ∧
    (∀ j, (t.shOutAt j).devType = (s.shOutAt j).devType ∧ (t.shOutAt j).connClass = (s.shOutAt j).connClass) ∧
    ∀ i, (t.inAt i).oldState = (s.inAt i).oldState ∧ (t.inAt i).value = (s.inAt i).value ∧
      (t.inAt i).connected = (s.inAt i).connected ∧ (t.inAt i).colorActive = (s.inAt i).colorActive ∧
      (t.shInAt i).colorRes = (s.shInAt i).colorRes

/-- R62, R46: no operation writes the parameters (the schedule tables among them), and none writes the environment's
answers or the waiting requests (the model's own fields, log 3, log 4). -/
def Obligations.ParametersNeverChange : Prop :=
  ∀ (ins : Instr) (s t : State), exec ins s = .next t → SameInputs s t

/-- Every step keeps the invariant of the block. -/
def Obligations.StepKeepsInv : Prop := ∀ s t : State, Inv s → step s = .next t → Inv t

/-- The three invariants hold after reset. -/
def Obligations.ResetMeetsInvariants : Prop :=
  Inv State.reset ∧ SessionInv State.reset ∧ PlatformInv State.reset

/-- Every step keeps the session invariant. -/
def Obligations.StepKeepsSessionInv : Prop := ∀ s t : State, SessionInv s → step s = .next t → SessionInv t

/-- R194: with pin-2 detection disabled every step stays within the states that R194 lists, on the short table. -/
def Obligations.StepKeepsPlatformInv : Prop := ∀ s t : State, PlatformInv s → step s = .next t → PlatformInv t

/-- R320: what `RESET` leaves, for every parameter set and every draw. -/
def Obligations.ResetValues : Prop :=
  ∀ (p : Params) (d : ResetDraws),
    let s := State.resetWith p d
    s.cfg = p ∧ s.samp = { sel := .short, ptr := 0 } ∧ Shaped s ∧ (∀ x, (s.bufAt x).toNat < 4096) ∧
    (∀ i < p.numIn, (s.inAt i).state = 0 ∧ (s.inAt i).oldState = 0 ∧ (s.inAt i).event = 0 ∧ (s.inAt i).timer = 0 ∧
      (s.inAt i).value = 0 ∧ (s.inAt i).connected = false ∧ (∀ role, s.drvAt i role = .float) ∧
      (s.inAt i).fsmEnabled = true ∧ (s.inAt i).colorActive = false ∧ (s.inAt i).sessionOpen = false ∧
      (s.inAt i).ring.length = p.ringDepth ∧ (s.inAt i).ringIdx = 0) ∧
    (∀ j < p.numOut, s.outAt j = OutPort.mk 0 0 0 0 0 0 0 false (OutDrives.mk .float .float)) ∧
    (∀ i < p.numIn, (s.shInAt i).devType = p.codes.typeNone ∧ (s.shInAt i).connClass = p.codes.connNone ∧
      (s.shInAt i).upd = false ∧ (s.shInAt i).colorRes.length = p.colorResultLen) ∧
    (∀ j < p.numOut,
      s.shOutAt j = { devType := p.codes.typeNone, connClass := p.codes.connNone, upd := false }) ∧
    s.calls = []

/-- R121, R295 (d): a launch is refused, under the tables' name, exactly when its schedule tables fail a condition of R121.
That a ring depth of 0, outside the range of R7, is refused too, under a name of its own, is the model's choice (log 18). -/
def Obligations.LaunchRefusesIllFormedTables : Prop :=
  ∀ (p : Params) (d : ResetDraws),
    let ok := p.schedShort.entries.length < p.schedLong.entries.length ∧
      ∀ tab ∈ [p.schedShort, p.schedLong],
        (∀ e ∈ tab.entries, ∀ i, e.dest = some (Slot.inPin1 i) ∨ e.dest = some (Slot.inPin6 i) → i < p.numIn) ∧
        (∀ e ∈ tab.entries, ∀ j, e.dest = some (Slot.outPin5 j) → j < p.numOut) ∧
        (∀ i < p.numIn, ∃ e ∈ tab.entries, e.dest = some (Slot.inPin1 i)) ∧
        (∀ i < p.numIn, ∃ e ∈ tab.entries, e.dest = some (Slot.inPin6 i)) ∧
        (∀ j < p.numOut, ∃ e ∈ tab.entries, e.dest = some (Slot.outPin5 j))
    (ok → 1 ≤ p.ringDepth → launch p d = .next (State.resetWith p d)) ∧
    (¬ok → launch p d = .refused .scheduleTablesIllFormed) ∧
    (ok → p.ringDepth = 0 → launch p d = .refused .ringDepthZero)
end

