-- ==== Sys2Proof/Laws/State.lean ====
section
/-! SUPPORT. One lemma for each reading of the state after each named update, so that no proof unfolds a record. -/

namespace Sys2Proof.Machine

open Sys2Proof Config

/-! ### Lists of ports -/

/-- Reading one place after a write at one place. -/
theorem portAt_putPort {α : Type} [Inhabited α] (l : List α) (k i : Nat) (v : α) :
    portAt (putPort l k v) i = if i = k then v else portAt l i := by
  induction l generalizing k i with
  | nil =>
    induction k generalizing i with
    | zero => cases i <;> simp [putPort, portAt]
    | succ k ih =>
      cases i with
      | zero => simp [putPort, portAt]
      | succ i => simpa [putPort, portAt] using ih i
  | cons x l ih =>
    cases k with
    | zero => cases i <;> simp [putPort, portAt]
    | succ k =>
      cases i with
      | zero => simp [putPort, portAt]
      | succ i => simpa [putPort, portAt] using ih k i

/-- The second of two writes to one place stands. -/
theorem putPort_putPort {α : Type} [Inhabited α] (l : List α) (k : Nat) (v w : α) :
    putPort (putPort l k v) k w = putPort l k w := by
  induction l generalizing k with
  | nil =>
    induction k with
    | zero => rfl
    | succ k ih => simpa [putPort] using ih
  | cons x l ih =>
    cases k with
    | zero => rfl
    | succ k => simpa [putPort] using ih k

/-- A write to a place of the list keeps the number of places. -/
theorem length_putPort {α : Type} [Inhabited α] {l : List α} {k : Nat} (h : k < l.length) (v : α) :
    (putPort l k v).length = l.length := by
  induction l generalizing k with
  | nil => cases h
  | cons x l ih =>
    cases k with
    | zero => rfl
    | succ k => simpa [putPort] using ih (Nat.lt_of_succ_lt_succ h)

/-- Reading a list made place by place. -/
theorem portAt_map_range {α : Type} [Inhabited α] (f : Nat → α) {n i : Nat} (h : i < n) :
    portAt ((List.range n).map f) i = f i := by simp [portAt, h]

/-- Reading a list of one value. -/
theorem portAt_replicate {α : Type} [Inhabited α] (x : α) {n i : Nat} (h : i < n) :
    portAt (List.replicate n x) i = x := by simp [portAt, h]

/-- Reading one place of the rails after a write at one place. -/
theorem rail_get_set (v : Vector Cell16 numRail) (k i : Fin numRail) (x : Cell16) :
    (v.set k.val x k.isLt).get i = if i = k then x else v.get i := by
  rw [Vector.get_eq_getElem, Vector.get_eq_getElem, Vector.getElem_set]
  by_cases h : i = k
  · subst h; simp
  · have h' : ¬ (k.val = i.val) := fun e => h (Fin.ext e.symm)
    simp [h, h']

/-- Reading a slot after a store to a slot. -/
theorem sampleBuf_read_write (b : SampleBuf) (y x : Slot) (v : Cell16) :
    (b.write y v).read x = if x = y then v else b.read x := by
  cases x <;> cases y <;> simp [SampleBuf.read, SampleBuf.write, portAt_putPort, rail_get_set]

/-! ### After `setIn` -/

@[simp] theorem cfg_setIn (s : State) (k : Nat) (p : InPort) : (s.setIn k p).cfg = s.cfg := rfl

@[simp] theorem samp_setIn (s : State) (k : Nat) (p : InPort) : (s.setIn k p).samp = s.samp := rfl

@[simp] theorem env_setIn (s : State) (k : Nat) (p : InPort) : (s.setIn k p).env = s.env := rfl

@[simp] theorem pending_setIn (s : State) (k : Nat) (p : InPort) : (s.setIn k p).pending = s.pending := rfl

@[simp] theorem calls_setIn (s : State) (k : Nat) (p : InPort) : (s.setIn k p).calls = s.calls := rfl

@[simp] theorem inAt_setIn (s : State) (k : Nat) (p : InPort) (i : Nat) :
    (s.setIn k p).inAt i = if i = k then p else s.inAt i := portAt_putPort _ _ _ _

@[simp] theorem outAt_setIn (s : State) (k : Nat) (p : InPort) (j : Nat) : (s.setIn k p).outAt j = s.outAt j := rfl

@[simp] theorem shInAt_setIn (s : State) (k : Nat) (p : InPort) (i : Nat) : (s.setIn k p).shInAt i = s.shInAt i := rfl

@[simp] theorem shOutAt_setIn (s : State) (k : Nat) (p : InPort) (j : Nat) : (s.setIn k p).shOutAt j = s.shOutAt j := rfl

@[simp] theorem inAnswers_setIn (s : State) (k : Nat) (p : InPort) (i : Nat) : (s.setIn k p).inAnswers i = s.inAnswers i := rfl

@[simp] theorem outAnswers_setIn (s : State) (k : Nat) (p : InPort) (j : Nat) : (s.setIn k p).outAnswers j = s.outAnswers j := rfl

@[simp] theorem bufAt_setIn (s : State) (k : Nat) (p : InPort) (x : Slot) : (s.setIn k p).bufAt x = s.bufAt x := rfl

/-! ### After `setOut` -/

@[simp] theorem cfg_setOut (s : State) (k : Nat) (p : OutPort) : (s.setOut k p).cfg = s.cfg := rfl

@[simp] theorem samp_setOut (s : State) (k : Nat) (p : OutPort) : (s.setOut k p).samp = s.samp := rfl

@[simp] theorem env_setOut (s : State) (k : Nat) (p : OutPort) : (s.setOut k p).env = s.env := rfl

@[simp] theorem pending_setOut (s : State) (k : Nat) (p : OutPort) : (s.setOut k p).pending = s.pending := rfl

@[simp] theorem calls_setOut (s : State) (k : Nat) (p : OutPort) : (s.setOut k p).calls = s.calls := rfl

@[simp] theorem inAt_setOut (s : State) (k : Nat) (p : OutPort) (i : Nat) : (s.setOut k p).inAt i = s.inAt i := rfl

@[simp] theorem outAt_setOut (s : State) (k : Nat) (p : OutPort) (j : Nat) :
    (s.setOut k p).outAt j = if j = k then p else s.outAt j := portAt_putPort _ _ _ _

@[simp] theorem shInAt_setOut (s : State) (k : Nat) (p : OutPort) (i : Nat) : (s.setOut k p).shInAt i = s.shInAt i := rfl

@[simp] theorem shOutAt_setOut (s : State) (k : Nat) (p : OutPort) (j : Nat) : (s.setOut k p).shOutAt j = s.shOutAt j := rfl

@[simp] theorem inAnswers_setOut (s : State) (k : Nat) (p : OutPort) (i : Nat) : (s.setOut k p).inAnswers i = s.inAnswers i := rfl

@[simp] theorem outAnswers_setOut (s : State) (k : Nat) (p : OutPort) (j : Nat) : (s.setOut k p).outAnswers j = s.outAnswers j := rfl

@[simp] theorem bufAt_setOut (s : State) (k : Nat) (p : OutPort) (x : Slot) : (s.setOut k p).bufAt x = s.bufAt x := rfl

/-! ### After `setShIn` -/

@[simp] theorem cfg_setShIn (s : State) (k : Nat) (p : InShared) : (s.setShIn k p).cfg = s.cfg := rfl

@[simp] theorem samp_setShIn (s : State) (k : Nat) (p : InShared) : (s.setShIn k p).samp = s.samp := rfl

@[simp] theorem env_setShIn (s : State) (k : Nat) (p : InShared) : (s.setShIn k p).env = s.env := rfl

@[simp] theorem pending_setShIn (s : State) (k : Nat) (p : InShared) : (s.setShIn k p).pending = s.pending := rfl

@[simp] theorem calls_setShIn (s : State) (k : Nat) (p : InShared) : (s.setShIn k p).calls = s.calls := rfl

@[simp] theorem inAt_setShIn (s : State) (k : Nat) (p : InShared) (i : Nat) : (s.setShIn k p).inAt i = s.inAt i := rfl

@[simp] theorem outAt_setShIn (s : State) (k : Nat) (p : InShared) (j : Nat) : (s.setShIn k p).outAt j = s.outAt j := rfl

@[simp] theorem shInAt_setShIn (s : State) (k : Nat) (p : InShared) (i : Nat) :
    (s.setShIn k p).shInAt i = if i = k then p else s.shInAt i := portAt_putPort _ _ _ _

@[simp] theorem shOutAt_setShIn (s : State) (k : Nat) (p : InShared) (j : Nat) : (s.setShIn k p).shOutAt j = s.shOutAt j := rfl

@[simp] theorem inAnswers_setShIn (s : State) (k : Nat) (p : InShared) (i : Nat) : (s.setShIn k p).inAnswers i = s.inAnswers i := rfl

@[simp] theorem outAnswers_setShIn (s : State) (k : Nat) (p : InShared) (j : Nat) : (s.setShIn k p).outAnswers j = s.outAnswers j := rfl

@[simp] theorem bufAt_setShIn (s : State) (k : Nat) (p : InShared) (x : Slot) : (s.setShIn k p).bufAt x = s.bufAt x := rfl

/-! ### After `setShOut` -/

@[simp] theorem cfg_setShOut (s : State) (k : Nat) (p : OutShared) : (s.setShOut k p).cfg = s.cfg := rfl

@[simp] theorem samp_setShOut (s : State) (k : Nat) (p : OutShared) : (s.setShOut k p).samp = s.samp := rfl

@[simp] theorem env_setShOut (s : State) (k : Nat) (p : OutShared) : (s.setShOut k p).env = s.env := rfl

@[simp] theorem pending_setShOut (s : State) (k : Nat) (p : OutShared) : (s.setShOut k p).pending = s.pending := rfl

@[simp] theorem calls_setShOut (s : State) (k : Nat) (p : OutShared) : (s.setShOut k p).calls = s.calls := rfl

@[simp] theorem inAt_setShOut (s : State) (k : Nat) (p : OutShared) (i : Nat) : (s.setShOut k p).inAt i = s.inAt i := rfl

@[simp] theorem outAt_setShOut (s : State) (k : Nat) (p : OutShared) (j : Nat) : (s.setShOut k p).outAt j = s.outAt j := rfl

@[simp] theorem shInAt_setShOut (s : State) (k : Nat) (p : OutShared) (i : Nat) : (s.setShOut k p).shInAt i = s.shInAt i := rfl

@[simp] theorem shOutAt_setShOut (s : State) (k : Nat) (p : OutShared) (j : Nat) :
    (s.setShOut k p).shOutAt j = if j = k then p else s.shOutAt j := portAt_putPort _ _ _ _

@[simp] theorem inAnswers_setShOut (s : State) (k : Nat) (p : OutShared) (i : Nat) : (s.setShOut k p).inAnswers i = s.inAnswers i := rfl

@[simp] theorem outAnswers_setShOut (s : State) (k : Nat) (p : OutShared) (j : Nat) : (s.setShOut k p).outAnswers j = s.outAnswers j := rfl

@[simp] theorem bufAt_setShOut (s : State) (k : Nat) (p : OutShared) (x : Slot) : (s.setShOut k p).bufAt x = s.bufAt x := rfl

/-! ### After `setBuf` -/

@[simp] theorem cfg_setBuf (s : State) (y : Slot) (v : Cell16) : (s.setBuf y v).cfg = s.cfg := rfl

@[simp] theorem samp_setBuf (s : State) (y : Slot) (v : Cell16) : (s.setBuf y v).samp = s.samp := rfl

@[simp] theorem env_setBuf (s : State) (y : Slot) (v : Cell16) : (s.setBuf y v).env = s.env := rfl

@[simp] theorem pending_setBuf (s : State) (y : Slot) (v : Cell16) : (s.setBuf y v).pending = s.pending := rfl

@[simp] theorem calls_setBuf (s : State) (y : Slot) (v : Cell16) : (s.setBuf y v).calls = s.calls := rfl

@[simp] theorem inAt_setBuf (s : State) (y : Slot) (v : Cell16) (i : Nat) : (s.setBuf y v).inAt i = s.inAt i := rfl

@[simp] theorem outAt_setBuf (s : State) (y : Slot) (v : Cell16) (j : Nat) : (s.setBuf y v).outAt j = s.outAt j := rfl

@[simp] theorem shInAt_setBuf (s : State) (y : Slot) (v : Cell16) (i : Nat) : (s.setBuf y v).shInAt i = s.shInAt i := rfl

@[simp] theorem shOutAt_setBuf (s : State) (y : Slot) (v : Cell16) (j : Nat) : (s.setBuf y v).shOutAt j = s.shOutAt j := rfl

@[simp] theorem inAnswers_setBuf (s : State) (y : Slot) (v : Cell16) (i : Nat) : (s.setBuf y v).inAnswers i = s.inAnswers i := rfl

@[simp] theorem outAnswers_setBuf (s : State) (y : Slot) (v : Cell16) (j : Nat) : (s.setBuf y v).outAnswers j = s.outAnswers j := rfl

@[simp] theorem bufAt_setBuf (s : State) (y : Slot) (v : Cell16) (x : Slot) :
    (s.setBuf y v).bufAt x = if x = y then v else s.bufAt x := sampleBuf_read_write _ _ _ _

/-! ### After `setSamp` -/

@[simp] theorem cfg_setSamp (s : State) (p : Sampler) : (s.setSamp p).cfg = s.cfg := rfl

@[simp] theorem samp_setSamp (s : State) (p : Sampler) : (s.setSamp p).samp = p := rfl

@[simp] theorem env_setSamp (s : State) (p : Sampler) : (s.setSamp p).env = s.env := rfl

@[simp] theorem pending_setSamp (s : State) (p : Sampler) : (s.setSamp p).pending = s.pending := rfl

@[simp] theorem calls_setSamp (s : State) (p : Sampler) : (s.setSamp p).calls = s.calls := rfl

@[simp] theorem inAt_setSamp (s : State) (p : Sampler) (i : Nat) : (s.setSamp p).inAt i = s.inAt i := rfl

@[simp] theorem outAt_setSamp (s : State) (p : Sampler) (j : Nat) : (s.setSamp p).outAt j = s.outAt j := rfl

@[simp] theorem shInAt_setSamp (s : State) (p : Sampler) (i : Nat) : (s.setSamp p).shInAt i = s.shInAt i := rfl

@[simp] theorem shOutAt_setSamp (s : State) (p : Sampler) (j : Nat) : (s.setSamp p).shOutAt j = s.shOutAt j := rfl

@[simp] theorem inAnswers_setSamp (s : State) (p : Sampler) (i : Nat) : (s.setSamp p).inAnswers i = s.inAnswers i := rfl

@[simp] theorem outAnswers_setSamp (s : State) (p : Sampler) (j : Nat) : (s.setSamp p).outAnswers j = s.outAnswers j := rfl

@[simp] theorem bufAt_setSamp (s : State) (p : Sampler) (x : Slot) : (s.setSamp p).bufAt x = s.bufAt x := rfl

/-! ### After `addCalls` -/

@[simp] theorem cfg_addCalls (s : State) (cs : List OracleCall) : (s.addCalls cs).cfg = s.cfg := rfl

@[simp] theorem samp_addCalls (s : State) (cs : List OracleCall) : (s.addCalls cs).samp = s.samp := rfl

@[simp] theorem env_addCalls (s : State) (cs : List OracleCall) : (s.addCalls cs).env = s.env := rfl

@[simp] theorem pending_addCalls (s : State) (cs : List OracleCall) : (s.addCalls cs).pending = s.pending := rfl

@[simp] theorem calls_addCalls (s : State) (cs : List OracleCall) : (s.addCalls cs).calls = s.calls ++ cs := rfl

@[simp] theorem inAt_addCalls (s : State) (cs : List OracleCall) (i : Nat) : (s.addCalls cs).inAt i = s.inAt i := rfl

@[simp] theorem outAt_addCalls (s : State) (cs : List OracleCall) (j : Nat) : (s.addCalls cs).outAt j = s.outAt j := rfl

@[simp] theorem shInAt_addCalls (s : State) (cs : List OracleCall) (i : Nat) : (s.addCalls cs).shInAt i = s.shInAt i := rfl

@[simp] theorem shOutAt_addCalls (s : State) (cs : List OracleCall) (j : Nat) : (s.addCalls cs).shOutAt j = s.shOutAt j := rfl

@[simp] theorem inAnswers_addCalls (s : State) (cs : List OracleCall) (i : Nat) : (s.addCalls cs).inAnswers i = s.inAnswers i := rfl

@[simp] theorem outAnswers_addCalls (s : State) (cs : List OracleCall) (j : Nat) : (s.addCalls cs).outAnswers j = s.outAnswers j := rfl

@[simp] theorem bufAt_addCalls (s : State) (cs : List OracleCall) (x : Slot) : (s.addCalls cs).bufAt x = s.bufAt x := rfl

/-! ### After `accept` -/

@[simp] theorem cfg_accept (s : State) (a : Arrival) (r : List Arrival) : (s.accept a r).cfg = s.cfg := rfl

@[simp] theorem samp_accept (s : State) (a : Arrival) (r : List Arrival) : (s.accept a r).samp = s.samp := rfl

@[simp] theorem env_accept (s : State) (a : Arrival) (r : List Arrival) : (s.accept a r).env = a.env := rfl

@[simp] theorem pending_accept (s : State) (a : Arrival) (r : List Arrival) : (s.accept a r).pending = r := rfl

@[simp] theorem calls_accept (s : State) (a : Arrival) (r : List Arrival) : (s.accept a r).calls = [] := rfl

@[simp] theorem inAt_accept (s : State) (a : Arrival) (r : List Arrival) (i : Nat) : (s.accept a r).inAt i = s.inAt i := rfl

@[simp] theorem outAt_accept (s : State) (a : Arrival) (r : List Arrival) (j : Nat) : (s.accept a r).outAt j = s.outAt j := rfl

@[simp] theorem shInAt_accept (s : State) (a : Arrival) (r : List Arrival) (i : Nat) : (s.accept a r).shInAt i = s.shInAt i := rfl

@[simp] theorem shOutAt_accept (s : State) (a : Arrival) (r : List Arrival) (j : Nat) : (s.accept a r).shOutAt j = s.shOutAt j := rfl

@[simp] theorem inAnswers_accept (s : State) (a : Arrival) (r : List Arrival) (i : Nat) : (s.accept a r).inAnswers i = portAt a.env.inp i := rfl

@[simp] theorem outAnswers_accept (s : State) (a : Arrival) (r : List Arrival) (j : Nat) : (s.accept a r).outAnswers j = portAt a.env.out j := rfl

@[simp] theorem bufAt_accept (s : State) (a : Arrival) (r : List Arrival) (x : Slot) : (s.accept a r).bufAt x = s.bufAt x := rfl

end Sys2Proof.Machine
end

