-- ==== Sys2Proof/Laws/Ops.lean ====
section
/-! SUPPORT. What the shared operations do, said once: views and their write-back, drives, sequencing, the debounce and
delay updates. -/

namespace Sys2Proof.Machine

open Sys2Proof Config

/-! ## Writing back a view -/

@[simp] theorem cfg_putIn (s : State) (i : Nat) (v : InView) : (s.putIn i v).cfg = s.cfg := rfl
@[simp] theorem samp_putIn (s : State) (i : Nat) (v : InView) : (s.putIn i v).samp = s.samp := rfl
@[simp] theorem env_putIn (s : State) (i : Nat) (v : InView) : (s.putIn i v).env = s.env := rfl
@[simp] theorem pending_putIn (s : State) (i : Nat) (v : InView) : (s.putIn i v).pending = s.pending := rfl
@[simp] theorem bufAt_putIn (s : State) (i : Nat) (v : InView) (x : Slot) : (s.putIn i v).bufAt x = s.bufAt x := rfl
@[simp] theorem outAt_putIn (s : State) (i : Nat) (v : InView) (j : Nat) :
    (s.putIn i v).outAt j = s.outAt j := rfl
@[simp] theorem shOutAt_putIn (s : State) (i : Nat) (v : InView) (j : Nat) :
    (s.putIn i v).shOutAt j = s.shOutAt j := rfl
@[simp] theorem calls_putIn (s : State) (i : Nat) (v : InView) : (s.putIn i v).calls = s.calls ++ v.calls := rfl
@[simp] theorem inAt_putIn (s : State) (i k : Nat) (v : InView) :
    (s.putIn i v).inAt k = if k = i then v.port else s.inAt k := by simp [State.putIn]
@[simp] theorem shInAt_putIn (s : State) (i k : Nat) (v : InView) :
    (s.putIn i v).shInAt k = if k = i then v.sh else s.shInAt k := by simp [State.putIn]
@[simp] theorem ctxIn_putIn (s : State) (i k : Nat) (v : InView) : (s.putIn i v).ctxIn k = s.ctxIn k := rfl
@[simp] theorem ctxOut_putIn (s : State) (i : Nat) (v : InView) (j : Nat) :
    (s.putIn i v).ctxOut j = s.ctxOut j := rfl

@[simp] theorem cfg_putOut (s : State) (j : Nat) (v : OutView) : (s.putOut j v).cfg = s.cfg := rfl
@[simp] theorem samp_putOut (s : State) (j : Nat) (v : OutView) : (s.putOut j v).samp = s.samp := rfl
@[simp] theorem env_putOut (s : State) (j : Nat) (v : OutView) : (s.putOut j v).env = s.env := rfl
@[simp] theorem pending_putOut (s : State) (j : Nat) (v : OutView) : (s.putOut j v).pending = s.pending := rfl
@[simp] theorem bufAt_putOut (s : State) (j : Nat) (v : OutView) (x : Slot) :
    (s.putOut j v).bufAt x = s.bufAt x := rfl
@[simp] theorem inAt_putOut (s : State) (j : Nat) (v : OutView) (i : Nat) :
    (s.putOut j v).inAt i = s.inAt i := rfl
@[simp] theorem shInAt_putOut (s : State) (j : Nat) (v : OutView) (i : Nat) :
    (s.putOut j v).shInAt i = s.shInAt i := rfl
@[simp] theorem calls_putOut (s : State) (j : Nat) (v : OutView) : (s.putOut j v).calls = s.calls ++ v.calls := rfl
@[simp] theorem outAt_putOut (s : State) (j k : Nat) (v : OutView) :
    (s.putOut j v).outAt k = if k = j then v.port else s.outAt k := by simp [State.putOut]
@[simp] theorem shOutAt_putOut (s : State) (j k : Nat) (v : OutView) :
    (s.putOut j v).shOutAt k = if k = j then v.sh else s.shOutAt k := by simp [State.putOut]
@[simp] theorem ctxOut_putOut (s : State) (j k : Nat) (v : OutView) : (s.putOut j v).ctxOut k = s.ctxOut k := rfl
@[simp] theorem ctxIn_putOut (s : State) (j : Nat) (v : OutView) (i : Nat) :
    (s.putOut j v).ctxIn i = s.ctxIn i := rfl

/-- Writing back a view changes one input port and the call record, nothing else. -/
theorem sameButIn_putIn (s : State) (i : Nat) (v : InView) : SameButIn i s (s.putIn i v) where
  cfg := rfl
  samp := rfl
  buf _ := rfl
  inp k h := by simp [h]
  shIn k h := by simp [h]
  out _ := rfl
  shOut _ := rfl
  env := rfl
  pending := rfl

/-- Writing back a view changes one output port and the call record, nothing else. -/
theorem sameButOut_putOut (s : State) (j : Nat) (v : OutView) : SameButOut j s (s.putOut j v) where
  cfg := rfl
  samp := rfl
  buf _ := rfl
  inp _ := rfl
  shIn _ := rfl
  out k h := by simp [h]
  shOut k h := by simp [h]
  env := rfl
  pending := rfl

/-- A rule of input port `i` completes with what it makes of the port's view. -/
theorem completesIn_of_runIn {ins : Instr} {i : Nat} {s : State} {f : InCtx → InView → InView}
    (h : exec ins s = .next (s.runIn i f)) :
    CompletesIn ins i s (f (s.ctxIn i) (s.viewIn i)).port (f (s.ctxIn i) (s.viewIn i)).sh
      (f (s.ctxIn i) (s.viewIn i)).calls :=
  ⟨_, h, by simp [State.runIn], by simp [State.runIn], by simp [State.runIn], sameButIn_putIn _ _ _⟩

/-- A rule of output port `j` completes with what it makes of the port's view. -/
theorem completesOut_of_runOut {ins : Instr} {j : Nat} {s : State} {f : OutCtx → OutView → OutView}
    (h : exec ins s = .next (s.runOut j f)) :
    CompletesOut ins j s (f (s.ctxOut j) (s.viewOut j)).port (f (s.ctxOut j) (s.viewOut j)).sh
      (f (s.ctxOut j) (s.viewOut j)).calls :=
  ⟨_, h, by simp [State.runOut], by simp [State.runOut], by simp [State.runOut], sameButOut_putOut _ _ _⟩

/-! ## Timers -/

/-- The saturating increment is the one of R14. -/
@[simp] theorem satInc_eq (p : Params) (t : Nat) : satInc p.toPlatform t = tickUp p t := rfl

/-- A saturated timer keeps its width (R30, R39). -/
theorem tickUp_lt (p : Params) (t : Nat) : tickUp p t < 2 ^ p.timerBits := by
  have := Nat.two_pow_pos p.timerBits
  unfold tickUp
  omega

/-! ## Rows for a port -/

/-- A row for a port of the block answers what its meaning answers. -/
@[simp] theorem onIn_of_lt {i : Nat} {s : State} (h : i < s.cfg.numIn) (o : Host.Outcome State Fault Refusal) :
    onIn i s o = o := if_pos h

/-- A row for another port is refused (log 12). -/
@[simp] theorem onIn_of_le {i : Nat} {s : State} (h : s.cfg.numIn ≤ i) (o : Host.Outcome State Fault Refusal) :
    onIn i s o = .refused .portOutside := if_neg (Nat.not_lt.2 h)

@[simp] theorem onOut_of_lt {j : Nat} {s : State} (h : j < s.cfg.numOut) (o : Host.Outcome State Fault Refusal) :
    onOut j s o = o := if_pos h

@[simp] theorem onOut_of_le {j : Nat} {s : State} (h : s.cfg.numOut ≤ j) (o : Host.Outcome State Fault Refusal) :
    onOut j s o = .refused .portOutside := if_neg (Nat.not_lt.2 h)

/-- A row that answers a next state is one for a port of the block, and its meaning answers that state. -/
theorem onIn_eq_next {i : Nat} {s t : State} {o : Host.Outcome State Fault Refusal} (h : onIn i s o = .next t) :
    i < s.cfg.numIn ∧ o = .next t := by
  by_cases hi : i < s.cfg.numIn
  · exact ⟨hi, by rwa [onIn_of_lt hi] at h⟩
  · rw [onIn_of_le (Nat.not_lt.1 hi)] at h; cases h

/-- The same for output ports. -/
theorem onOut_eq_next {j : Nat} {s t : State} {o : Host.Outcome State Fault Refusal} (h : onOut j s o = .next t) :
    j < s.cfg.numOut ∧ o = .next t := by
  by_cases hj : j < s.cfg.numOut
  · exact ⟨hj, by rwa [onOut_of_lt hj] at h⟩
  · rw [onOut_of_le (Nat.not_lt.1 hj)] at h; cases h

/-! ## Sequencing -/

@[simp] theorem andThen_next (s : State) (f : State → Host.Outcome State Fault Refusal) : andThen (.next s) f = f s := rfl
@[simp] theorem andThen_refused (r : Refusal) (f : State → Host.Outcome State Fault Refusal) :
    andThen (.refused r) f = .refused r := rfl
@[simp] theorem forEach_nil {α : Type} (f : α → State → Host.Outcome State Fault Refusal) (s : State) :
    forEach f [] s = .next s := rfl
@[simp] theorem forEach_cons {α : Type} (f : α → State → Host.Outcome State Fault Refusal) (a : α) (l : List α)
    (s : State) : forEach f (a :: l) s = andThen (f a s) (forEach f l) := rfl

/-- A sequence answers a next state only through one of its first part. -/
theorem andThen_eq_next {o : Host.Outcome State Fault Refusal} {f : State → Host.Outcome State Fault Refusal} {t : State}
    (h : andThen o f = .next t) : ∃ u, o = .next u ∧ f u = .next t := by
  cases o with
  | next u => exact ⟨u, rfl, h⟩
  | fault r => cases r
  | refused r => cases h

/-- What every member of a sequence keeps, the sequence keeps. -/
theorem forEach_induct {α : Type} {f : α → State → Host.Outcome State Fault Refusal} {P : State → Prop} {l : List α}
    (hf : ∀ a ∈ l, ∀ s t, P s → f a s = .next t → P t) {s t : State} (hs : P s) (h : forEach f l s = .next t) : P t := by
  induction l generalizing s with
  | nil => cases h; exact hs
  | cons a l ih =>
    obtain ⟨u, hu, hr⟩ := andThen_eq_next h
    exact ih (fun b hb => hf b (List.mem_cons_of_mem _ hb)) (hf a List.mem_cons_self _ _ hs hu) hr

/-! ## Drives -/

@[simp] theorem drives_read_write (d : Drives) (c k : PinCell) (l : Level) :
    (d.write c l).read k = if k = c then l else d.read k := by
  cases c <;> cases k <;> simp [Drives.read, Drives.write]

/-- The drive cells are what reading them gives. -/
theorem drives_ext {a b : Drives} (h : ∀ c, a.read c = b.read c) : a = b := by
  cases a; cases b
  simp only [Drives.mk.injEq]
  exact ⟨h .pin1, h .pin2, h .pin5, h .pin6, h .auxA, h .auxB⟩

@[simp] theorem drvAt_eq (s : State) (i : Nat) (role : Role) :
    s.drvAt i role = (s.inAt i).drv.read (cellOf s.cfg role) := rfl

/-! ## The parts of a rule -/

@[simp] theorem port_goto (v : InView) (st : InState) : (v.goto st).port = { v.port with state := st.code } := rfl
@[simp] theorem sh_goto (v : InView) (st : InState) : (v.goto st).sh = v.sh := rfl
@[simp] theorem calls_goto (v : InView) (st : InState) : (v.goto st).calls = v.calls := rfl
@[simp] theorem port_classify (v : InView) (t c : Byte) : (v.classify t c).port = v.port := rfl
@[simp] theorem sh_classify (v : InView) (t c : Byte) :
    (v.classify t c).sh = { v.sh with devType := t, connClass := c } := rfl
@[simp] theorem calls_classify (v : InView) (t c : Byte) : (v.classify t c).calls = v.calls := rfl
@[simp] theorem out_port_goto (v : OutView) (st : OutState) : (v.goto st).port = { v.port with state := st.code } := rfl
@[simp] theorem out_sh_goto (v : OutView) (st : OutState) : (v.goto st).sh = v.sh := rfl
@[simp] theorem out_calls_goto (v : OutView) (st : OutState) : (v.goto st).calls = v.calls := rfl
@[simp] theorem out_port_classify (v : OutView) (t c : Byte) : (v.classify t c).port = v.port := rfl
@[simp] theorem out_sh_classify (v : OutView) (t c : Byte) :
    (v.classify t c).sh = { v.sh with devType := t, connClass := c } := rfl
@[simp] theorem out_calls_classify (v : OutView) (t c : Byte) : (v.classify t c).calls = v.calls := rfl
@[simp] theorem sh_settle (s0 : BitVec 5) (v : InView) : (v.settle s0).sh = v.sh := by
  unfold InView.settle; split <;> rfl
@[simp] theorem calls_settle (s0 : BitVec 5) (v : InView) : (v.settle s0).calls = v.calls := by
  unfold InView.settle; split <;> rfl
@[simp] theorem port_settle (s0 : BitVec 5) (v : InView) :
    (v.settle s0).port = if v.port.state = s0 then v.port else { v.port with timer := 0 } := by
  unfold InView.settle; split <;> simp_all
@[simp] theorem out_sh_settle (s0 : BitVec 3) (v : OutView) : (v.settle s0).sh = v.sh := by
  unfold OutView.settle; split <;> rfl
@[simp] theorem out_calls_settle (s0 : BitVec 3) (v : OutView) : (v.settle s0).calls = v.calls := by
  unfold OutView.settle; split <;> rfl
@[simp] theorem out_port_settle (s0 : BitVec 3) (v : OutView) :
    (v.settle s0).port = if v.port.state = s0 then v.port else { v.port with timer := 0 } := by
  unfold OutView.settle; split <;> simp_all
@[simp] theorem sh_tick (m : TimerMode) (c : InCtx) (v : InView) : (v.tick m c).sh = v.sh := by cases m <;> rfl
@[simp] theorem calls_tick (m : TimerMode) (c : InCtx) (v : InView) : (v.tick m c).calls = v.calls := by
  cases m <;> rfl
@[simp] theorem out_sh_tick (m : TimerMode) (c : OutCtx) (v : OutView) : (v.tick m c).sh = v.sh := by cases m <;> rfl
@[simp] theorem out_calls_tick (m : TimerMode) (c : OutCtx) (v : OutView) : (v.tick m c).calls = v.calls := by
  cases m <;> rfl
@[simp] theorem port_tick_none (c : InCtx) (v : InView) : (v.tick .none c).port = v.port := rfl
@[simp] theorem port_tick_dly (c : InCtx) (v : InView) :
    (v.tick .dly c).port = { v.port with timer := tickUp c.cfg v.port.timer } := rfl
@[simp] theorem port_tick_deb (c : InCtx) (v : InView) :
    (v.tick .deb c).port =
      if evIn c = v.port.event then { v.port with timer := tickUp c.cfg v.port.timer }
      else { v.port with event := evIn c, timer := 0 } := by
  by_cases h : evIn c = v.port.event <;> simp [InView.tick, debounce, h]
@[simp] theorem out_port_tick_none (c : OutCtx) (v : OutView) : (v.tick .none c).port = v.port := rfl
@[simp] theorem out_port_tick_dly (c : OutCtx) (v : OutView) :
    (v.tick .dly c).port = { v.port with timer := tickUp c.cfg v.port.timer } := rfl
@[simp] theorem out_port_tick_deb (c : OutCtx) (v : OutView) :
    (v.tick .deb c).port =
      if evOut c = v.port.event then { v.port with timer := tickUp c.cfg v.port.timer }
      else { v.port with event := evOut c, timer := 0 } := by
  by_cases h : evOut c = v.port.event <;> simp [OutView.tick, debounce, h]
@[simp] theorem ctxIn_idx (s : State) (i : Nat) : (s.ctxIn i).idx = i := rfl
@[simp] theorem ctxIn_cfg (s : State) (i : Nat) : (s.ctxIn i).cfg = s.cfg := rfl
@[simp] theorem ctxIn_sample (s : State) (i : Nat) : (s.ctxIn i).sample = s.bufAt (.inPin1 i) := rfl
@[simp] theorem ctxIn_ans (s : State) (i : Nat) : (s.ctxIn i).ans = s.inAnswers i := rfl
@[simp] theorem ctxOut_idx (s : State) (j : Nat) : (s.ctxOut j).idx = j := rfl
@[simp] theorem ctxOut_cfg (s : State) (j : Nat) : (s.ctxOut j).cfg = s.cfg := rfl
@[simp] theorem ctxOut_sample (s : State) (j : Nat) : (s.ctxOut j).sample = s.bufAt (.outPin5 j) := rfl
@[simp] theorem ctxOut_ans (s : State) (j : Nat) : (s.ctxOut j).ans = s.outAnswers j := rfl
@[simp] theorem viewIn_port (s : State) (i : Nat) : (s.viewIn i).port = s.inAt i := rfl
@[simp] theorem viewIn_sh (s : State) (i : Nat) : (s.viewIn i).sh = s.shInAt i := rfl
@[simp] theorem viewIn_calls (s : State) (i : Nat) : (s.viewIn i).calls = [] := rfl
@[simp] theorem viewOut_port (s : State) (j : Nat) : (s.viewOut j).port = s.outAt j := rfl
@[simp] theorem viewOut_sh (s : State) (j : Nat) : (s.viewOut j).sh = s.shOutAt j := rfl
@[simp] theorem viewOut_calls (s : State) (j : Nat) : (s.viewOut j).calls = [] := rfl

/-- The thresholds in counts and the delays in ticks, as numbers (R8, R9). -/
theorem counts_and_ticks :
    tIn1Near5v = 3931 ∧ tIn1NearPin2 = 2538 ∧ tIn1NearGnd = 81 ∧ tOut5BalHigh = 2129 ∧ tOut5BalLow = 1965 ∧
      connectTicks = 35 ∧ disconnectTicks = 10 ∧ floatTicks = 2 ∧ lowTicks = 2 ∧ touchTicks = 2 ∧
      colorTimeoutTicks = 50 := by decide

end Sys2Proof.Machine
end

