-- ==== Sys2Proof/Laws/DcmTick.lean ====
section
/-! SUPPORT. The DCM tick port by port: a port's step is a function of the port's own view and context, so a tick is every
port's step alone, and a run of ticks under standing answers is the iteration of each port's step. -/

namespace Sys2Proof.Machine

open Sys2Proof Config

/-! ## One port's step as a function of its view -/

/-- The rule of the state code held, as a function of the view; `none` where `PIN2_TREE` is needed and absent. -/
def inDispatchView (c : InCtx) (v : InView) : Option InView :=
  match inStateOf v.port.state with
  | some .init => some (inRule .none inInitBody c v)
  | some .floatingDelay => some (inRule .dly inFloatingDelayBody c v)
  | some .floating => some (inRule .deb inFloatingBody c v)
  | some .connection => some (inRule .none inConnectionBody c v)
  | some .pin2Low => c.cfg.pin2Tree.map fun t => inRule .none (inPin2LowBody t) c v
  | some .nxtTouchCheck => some (inRule .dly inNxtTouchCheckBody c v)
  | some .nxtColorInit => some (inRule .none inNxtColorInitBody c v)
  | some .nxtColorWait => some (inRule .dly inNxtColorWaitBody c v)
  | some .nxtColorBusy => some (inRule .none inNxtColorBusyBody c v)
  | some .pin1Loaded => some (inRule .none inPin1LoadedBody c v)
  | some .pin6High => some (inRule .none inPin6HighBody c v)
  | some .pin5Low => some (inRule .none inPin5LowBody c v)
  | some .waitPin2High => some (inRule .deb inWaitPin2HighBody c v)
  | some .waitPin1ToFloat => some (inRule .deb inWaitPin1ToFloatBody c v)
  | some .waitPin6Low => some (inRule .deb inWaitPin6LowBody c v)
  | some .waitPin5High => some (inRule .deb inWaitPin5HighBody c v)
  | some .disabled => some (inRule .none inDisabledBody c v)
  | none => some (inRule .none inInitBody c v)

/-- One input port's step of the DCM as a function of its view (R170 to R172). -/
def inStepView (c : InCtx) (v : InView) : Option InView :=
  inDispatchView c { v with port := fsmOverride { v.port with oldState := v.port.state } }

/-- The rule of the state code that an output port holds, as a function of the view. -/
def outDispatchView (c : OutCtx) (v : OutView) : OutView :=
  match outStateOf v.port.state with
  | some .init => outRule .none outInitBody c v
  | some .floatingDelay => outRule .dly outFloatingDelayBody c v
  | some .floating => outRule .deb outFloatingBody c v
  | some .waitPin6Low => outRule .dly outWaitPin6LowBody c v
  | some .connection => outRule .none outConnectionBody c v
  | some .waitPin5Low => outRule .dly outWaitPin5LowBody c v
  | some .waitPortOpen => outRule .deb outWaitPortOpenBody c v
  | none => outRule .none outInitBody c v

/-- One output port's step of the DCM as a function of its view (R220). -/
def outStepView (c : OutCtx) (v : OutView) : OutView :=
  outDispatchView c { v with port := { v.port with oldState := v.port.state } }

/-- What is written back first does not matter to what is written back last. -/
theorem putIn_setIn (s : State) (i : Nat) (p : InPort) (v : InView) : (s.setIn i p).putIn i v = s.putIn i v := by
  simp only [State.putIn, State.setIn, putPort_putPort]

/-- The same for output ports. -/
theorem putOut_setOut (s : State) (j : Nat) (p : OutPort) (v : OutView) :
    (s.setOut j p).putOut j v = s.putOut j v := by
  simp only [State.putOut, State.setOut, putPort_putPort]

/-- A port's step: its view's step written back, or the one refusal (R179, R295 (e)). -/
theorem stepIn_eq (i : Nat) (s : State) (hi : i < s.cfg.numIn) :
    stepIn i s = match inStepView (s.ctxIn i) (s.viewIn i) with
      | some v => .next (s.putIn i v)
      | none => .refused .pin2TreeAbsent := by
  have hv : (beginIn i s).viewIn i =
      { s.viewIn i with port := fsmOverride { (s.viewIn i).port with oldState := (s.viewIn i).port.state } } := by
    simp [State.viewIn, beginIn]
  have hc : i < (beginIn i s).cfg.numIn := hi
  have hr : ∀ f, onIn i (beginIn i s) (.next ((beginIn i s).runIn i f)) =
      .next (s.putIn i (f (s.ctxIn i) ((beginIn i s).viewIn i))) := fun f => by
    rw [onIn_of_lt hc]; exact congrArg _ (putIn_setIn s i _ _)
  unfold stepIn dispatchIn inStepView inDispatchView
  rw [← hv, viewIn_port]
  cases inStateOf ((beginIn i s).inAt i).state with
  | none => exact hr _
  | some st =>
    cases st
    case pin2Low =>
      have hcfg : (beginIn i s).cfg = s.cfg := rfl
      simp only [execInPin2Low, hcfg, ctxIn_cfg]
      cases s.cfg.pin2Tree with
      | none => exact onIn_of_lt hc _
      | some t => exact hr _
    all_goals exact hr _

/-- An output port's step always completes, with its view's step written back. -/
theorem stepOut_eq (j : Nat) (s : State) (hj : j < s.cfg.numOut) :
    stepOut j s = .next (s.putOut j (outStepView (s.ctxOut j) (s.viewOut j))) := by
  have hv : (beginOut j s).viewOut j =
      { s.viewOut j with port := { (s.viewOut j).port with oldState := (s.viewOut j).port.state } } := by
    simp [State.viewOut, beginOut]
  have hc : j < (beginOut j s).cfg.numOut := hj
  have hr : ∀ f, onOut j (beginOut j s) (.next ((beginOut j s).runOut j f)) =
      .next (s.putOut j (f (s.ctxOut j) ((beginOut j s).viewOut j))) := fun f => by
    rw [onOut_of_lt hc]; exact congrArg _ (putOut_setOut s j _ _)
  unfold stepOut dispatchOut outStepView outDispatchView
  rw [← hv, viewOut_port]
  cases outStateOf ((beginOut j s).outAt j).state with
  | none => exact hr _
  | some st => cases st <;> exact hr _

/-- The step of a view is refused only for a `PIN2_LOW` rule without `PIN2_TREE`. -/
theorem inStepView_eq_none (c : InCtx) (v : InView) :
    inStepView c v = none ↔ c.cfg.pin2Tree = none ∧ v.port.fsmEnabled = true ∧ v.port.state = 4 := by
  have key : ∀ st : BitVec 5, inStateOf st = some .pin2Low ↔ st = 4 := by decide
  have hd : ∀ w : InView, inDispatchView c w = none ↔ c.cfg.pin2Tree = none ∧ w.port.state = 4 := by
    intro w
    rw [← key]
    unfold inDispatchView
    cases inStateOf w.port.state with
    | none => simp
    | some st => cases st <;> simp
  rw [inStepView, hd]
  have h0 : (0 : BitVec 5) ≠ 4 := by decide
  have h16 : (16 : BitVec 5) ≠ 4 := by decide
  unfold fsmOverride
  cases he : v.port.fsmEnabled <;> by_cases h1 : v.port.state = 16#5 <;> simp [he, h1, InState.code]

/-! ## A whole tick -/

/-- The calls that input port `i`'s step makes in `s`. -/
def inStepCalls (s : State) (i : Nat) : List OracleCall :=
  ((inStepView (s.ctxIn i) (s.viewIn i)).map InView.calls).getD []

/-- The calls that output port `j`'s step makes in `s`. -/
def outStepCalls (s : State) (j : Nat) : List OracleCall := (outStepView (s.ctxOut j) (s.viewOut j)).calls

/-- What a port's rule works on is the same where the port's record and fields are. -/
theorem viewIn_eq {s t : State} {i : Nat} (hp : t.inAt i = s.inAt i) (hs : t.shInAt i = s.shInAt i) :
    t.viewIn i = s.viewIn i := by simp only [State.viewIn, hp, hs]

/-- The same for output ports. -/
theorem viewOut_eq {s t : State} {j : Nat} (hp : t.outAt j = s.outAt j) (hs : t.shOutAt j = s.shOutAt j) :
    t.viewOut j = s.viewOut j := by simp only [State.viewOut, hp, hs]

/-- What a port's rule reads besides the port is the same where parameters, slots and answers are. -/
theorem ctxIn_eq {s t : State} (hc : t.cfg = s.cfg) (he : t.env = s.env) (hb : ∀ x, t.bufAt x = s.bufAt x)
    (i : Nat) : t.ctxIn i = s.ctxIn i := by
  simp only [State.ctxIn, State.inAnswers, hc, he, hb]

/-- The same for output ports. -/
theorem ctxOut_eq {s t : State} (hc : t.cfg = s.cfg) (he : t.env = s.env) (hb : ∀ x, t.bufAt x = s.bufAt x)
    (j : Nat) : t.ctxOut j = s.ctxOut j := by
  simp only [State.ctxOut, State.outAnswers, hc, he, hb]

theorem viewIn_putIn_ne (s : State) {i k : Nat} (v : InView) (h : i ≠ k) : (s.putIn k v).viewIn i = s.viewIn i := by
  simp [State.viewIn, h]

theorem viewOut_putOut_ne (s : State) {j k : Nat} (v : OutView) (h : j ≠ k) :
    (s.putOut k v).viewOut j = s.viewOut j := by simp [State.viewOut, h]

/-- Stepping some input ports of the block, each once, is stepping each of them alone, in order. -/
theorem forEach_stepIn {l : List Nat} (hl : l.Nodup) (s : State) (hlt : ∀ i ∈ l, i < s.cfg.numIn)
    (h : ∀ i ∈ l, inStepView (s.ctxIn i) (s.viewIn i) ≠ none) :
    ∃ t, forEach stepIn l s = .next t ∧ t.cfg = s.cfg ∧ t.env = s.env ∧ t.pending = s.pending ∧ t.samp = s.samp ∧
      (∀ x, t.bufAt x = s.bufAt x) ∧ (∀ j, t.outAt j = s.outAt j) ∧ (∀ j, t.shOutAt j = s.shOutAt j) ∧
      t.calls = s.calls ++ l.flatMap (inStepCalls s) ∧
      (∀ i, i ∉ l → t.inAt i = s.inAt i ∧ t.shInAt i = s.shInAt i) ∧
      (∀ i, i ∈ l → ∃ v, inStepView (s.ctxIn i) (s.viewIn i) = some v ∧ t.inAt i = v.port ∧ t.shInAt i = v.sh) := by
  induction l generalizing s with
  | nil =>
    exact ⟨s, rfl, rfl, rfl, rfl, rfl, fun _ => rfl, fun _ => rfl, fun _ => rfl, by simp, fun _ _ => ⟨rfl, rfl⟩, by simp⟩
  | cons a l ih =>
    obtain ⟨ha, hl⟩ := List.nodup_cons.1 hl
    obtain ⟨v, hv⟩ := Option.ne_none_iff_exists'.1 (h a List.mem_cons_self)
    have hview : ∀ i ∈ l, (s.putIn a v).viewIn i = s.viewIn i := fun i hi =>
      viewIn_putIn_ne s v fun e => ha (e ▸ hi)
    obtain ⟨t, ht, hc, he, hp, hs, hb, ho, hso, hk, hni, hin⟩ := ih hl (s.putIn a v)
      (fun i hi => hlt i (List.mem_cons_of_mem _ hi))
      (fun i hi => by rw [hview i hi, ctxIn_putIn]; exact h i (List.mem_cons_of_mem _ hi))
    refine ⟨t, ?_, hc, he, hp, hs, hb, ho, hso, ?_, ?_, ?_⟩
    · rw [forEach_cons, stepIn_eq a s (hlt a List.mem_cons_self), hv]; exact ht
    · have e : l.flatMap (inStepCalls (s.putIn a v)) = l.flatMap (inStepCalls s) :=
        List.flatMap_congr fun i hi => by simp only [inStepCalls, hview i hi, ctxIn_putIn]
      have ea : inStepCalls s a = v.calls := by simp [inStepCalls, hv]
      rw [hk, e, calls_putIn, List.flatMap_cons, ea, List.append_assoc]
    · intro i hi
      obtain ⟨h1, h2⟩ := not_or.1 (mt List.mem_cons.2 hi)
      have := hni i h2
      simpa [h1] using this
    · intro i hi
      by_cases hil : i ∈ l
      · obtain ⟨w, hw, h1⟩ := hin i hil
        rw [hview i hil, ctxIn_putIn] at hw
        exact ⟨w, hw, h1⟩
      · have e : i = a := (List.mem_cons.1 hi).resolve_right hil
        subst e
        exact ⟨v, hv, by simpa using hni i hil⟩

/-- Stepping some output ports of the block, each once, is stepping each of them alone, in order. -/
theorem forEach_stepOut {l : List Nat} (hl : l.Nodup) (s : State) (hlt : ∀ j ∈ l, j < s.cfg.numOut) :
    ∃ t, forEach stepOut l s = .next t ∧ t.cfg = s.cfg ∧ t.env = s.env ∧ t.pending = s.pending ∧ t.samp = s.samp ∧
      (∀ x, t.bufAt x = s.bufAt x) ∧ (∀ i, t.inAt i = s.inAt i) ∧ (∀ i, t.shInAt i = s.shInAt i) ∧
      t.calls = s.calls ++ l.flatMap (outStepCalls s) ∧
      (∀ j, j ∉ l → t.outAt j = s.outAt j ∧ t.shOutAt j = s.shOutAt j) ∧
      (∀ j, j ∈ l → t.outAt j = (outStepView (s.ctxOut j) (s.viewOut j)).port ∧
        t.shOutAt j = (outStepView (s.ctxOut j) (s.viewOut j)).sh) := by
  induction l generalizing s with
  | nil =>
    exact ⟨s, rfl, rfl, rfl, rfl, rfl, fun _ => rfl, fun _ => rfl, fun _ => rfl, by simp, fun _ _ => ⟨rfl, rfl⟩, by simp⟩
  | cons a l ih =>
    obtain ⟨ha, hl⟩ := List.nodup_cons.1 hl
    have hview : ∀ j ∈ l, (s.putOut a (outStepView (s.ctxOut a) (s.viewOut a))).viewOut j = s.viewOut j := fun j hj =>
      viewOut_putOut_ne s _ fun e => ha (e ▸ hj)
    obtain ⟨t, ht, hc, he, hp, hs, hb, hi, hsi, hk, hno, hon⟩ :=
      ih hl (s.putOut a (outStepView (s.ctxOut a) (s.viewOut a))) fun j hj => hlt j (List.mem_cons_of_mem _ hj)
    refine ⟨t, ?_, hc, he, hp, hs, hb, hi, hsi, ?_, ?_, ?_⟩
    · rw [forEach_cons, stepOut_eq a s (hlt a List.mem_cons_self)]; exact ht
    · rw [hk, calls_putOut, List.flatMap_cons, List.append_assoc]
      refine congrArg _ (congrArg _ (List.flatMap_congr fun j hj => ?_))
      simp only [outStepCalls, hview j hj, ctxOut_putOut]
    · intro j hj
      obtain ⟨h1, h2⟩ := not_or.1 (mt List.mem_cons.2 hj)
      simpa [h1] using hno j h2
    · intro j hj
      by_cases hjl : j ∈ l
      · have := hon j hjl
        rwa [hview j hjl, ctxOut_putOut] at this
      · have e : j = a := (List.mem_cons.1 hj).resolve_right hjl
        subst e
        simpa using hno j hjl

/-- A DCM tick where no port lacks the pin-2 tree: everything it does (R170, R220). -/
theorem execTickD_next (s : State) (h : ∀ i < s.cfg.numIn, inStepView (s.ctxIn i) (s.viewIn i) ≠ none) :
    ∃ t, exec .tickD s = .next t ∧ t.cfg = s.cfg ∧ t.env = s.env ∧ t.pending = s.pending ∧ t.samp = s.samp ∧
      (∀ x, t.bufAt x = s.bufAt x) ∧
      t.calls = s.calls ++ (List.range s.cfg.numIn).flatMap (inStepCalls s) ++
        (List.range s.cfg.numOut).flatMap (outStepCalls s) ∧
      (∀ i, s.cfg.numIn ≤ i → t.inAt i = s.inAt i ∧ t.shInAt i = s.shInAt i) ∧
      (∀ j, s.cfg.numOut ≤ j → t.outAt j = s.outAt j ∧ t.shOutAt j = s.shOutAt j) ∧
      (∀ i < s.cfg.numIn, ∃ v, inStepView (s.ctxIn i) (s.viewIn i) = some v ∧ t.inAt i = v.port ∧ t.shInAt i = v.sh) ∧
      (∀ j < s.cfg.numOut, t.outAt j = (outStepView (s.ctxOut j) (s.viewOut j)).port ∧
        t.shOutAt j = (outStepView (s.ctxOut j) (s.viewOut j)).sh) := by
  obtain ⟨u, hu, hc, he, hp, hs, hb, ho, hso, hk, hni, hin⟩ :=
    forEach_stepIn List.nodup_range s (fun i hi => List.mem_range.1 hi) (fun i hi => h i (List.mem_range.1 hi))
  obtain ⟨t, ht, hc', he', hp', hs', hb', hi', hsi', hk', hno, hon⟩ := forEach_stepOut (l := List.range s.cfg.numOut)
    List.nodup_range u (fun j hj => by rw [hc]; exact List.mem_range.1 hj)
  have hctx : ∀ j, u.ctxOut j = s.ctxOut j := ctxOut_eq hc he hb
  have hview : ∀ j, u.viewOut j = s.viewOut j := fun j => viewOut_eq (ho j) (hso j)
  refine ⟨t, ?_, hc'.trans hc, he'.trans he, hp'.trans hp, hs'.trans hs, fun x => (hb' x).trans (hb x), ?_,
    fun i hi => ?_, fun j hj => ?_, fun i hi => ?_, fun j hj => ?_⟩
  · show execTickD s = _
    rw [execTickD, hu]; exact ht
  · have e : outStepCalls u = outStepCalls s := funext fun j => by simp only [outStepCalls, hctx, hview]
    rw [hk', hk, e]
  · have := hni i fun hm => absurd (List.mem_range.1 hm) (Nat.not_lt.2 hi)
    exact ⟨(hi' i).trans this.1, (hsi' i).trans this.2⟩
  · have := hno j fun hm => absurd (List.mem_range.1 hm) (Nat.not_lt.2 hj)
    exact ⟨this.1.trans (ho j), this.2.trans (hso j)⟩
  · obtain ⟨v, hv, h1, h2⟩ := hin i (List.mem_range.2 hi)
    exact ⟨v, hv, (hi' i).trans h1, (hsi' i).trans h2⟩
  · have := hon j (List.mem_range.2 hj)
    rwa [hctx, hview] at this

/-- A DCM tick where some port lacks the pin-2 tree is refused whole (R295). -/
theorem execTickD_refused (s : State) (i : Nat) (hi : i < s.cfg.numIn)
    (h : inStepView (s.ctxIn i) (s.viewIn i) = none) : exec .tickD s = .refused .pin2TreeAbsent := by
  have key : ∀ (l : List Nat), l.Nodup → i ∈ l → ∀ s : State, (∀ k ∈ l, k < s.cfg.numIn) →
      inStepView (s.ctxIn i) (s.viewIn i) = none → forEach stepIn l s = .refused .pin2TreeAbsent := by
    intro l
    induction l with
    | nil => intro _ hi; cases hi
    | cons a l ih =>
      intro hl hi s hlt h
      obtain ⟨ha, hl⟩ := List.nodup_cons.1 hl
      rw [forEach_cons, stepIn_eq a s (hlt a List.mem_cons_self)]
      cases hv : inStepView (s.ctxIn a) (s.viewIn a) with
      | none => rfl
      | some v =>
        have hne : i ≠ a := by rintro rfl; rw [h] at hv; cases hv
        refine ih hl ((List.mem_cons.1 hi).resolve_left hne) _ (fun k hk => hlt k (List.mem_cons_of_mem _ hk)) ?_
        rw [viewIn_putIn_ne s v hne, ctxIn_putIn]; exact h
  show execTickD s = _
  rw [execTickD, key _ List.nodup_range (List.mem_range.2 hi) s (fun k hk => List.mem_range.1 hk) h]
  rfl

/-- Where the next tick needs no tree that is not there, every port steps. -/
theorem inStepView_ne_none {s : State} (h : TreeReady s) {i : Nat} (hi : i < s.cfg.numIn) :
    inStepView (s.ctxIn i) (s.viewIn i) ≠ none := by
  rw [ne_eq, inStepView_eq_none]
  rintro ⟨h', he, hs⟩
  rw [ctxIn_cfg] at h'
  rcases h with h | h
  · rw [h'] at h; cases h
  · exact h i hi he hs

end Sys2Proof.Machine
end

