-- ==== Sys2Proof/Laws/PerInstr.lean ====
section
/-! SUPPORT. The family of per-instruction facts that LAWS.json names: every instruction is encoded in the format that
spec/opcode_table.json gives its row. -/

namespace Sys2Proof.Laws.EncodingFormat

open Sys2Proof

/-- The format that the opcode table gives an instruction's row. -/
def tableFormat : Instr → Format
  | .tickS _ => .strobe
  | .tickD => .strobe
  | .writeE _ => .hostWrite
  | .eDisable _ => .echar
  | .eEnable _ => .echar
  | .eNop _ => .echar
  | .eOther _ _ => .echar
  | .writeT _ => .hostWrite
  | .bareColor0D _ => .bareByte
  | .bareColor0E _ => .bareByte
  | .bareColor0F _ => .bareByte
  | .bareColor10 _ => .bareByte
  | .bareColor11 _ => .bareByte
  | .bareRawpin _ _ => .bareByte
  | .clrupdIn _ => .hostStore
  | .clrupdOut _ => .hostStore
  | .inInit _ => .inState
  | .inFloatingDelay _ => .inState
  | .inFloating _ => .inState
  | .inConnection _ => .inState
  | .inPin2Low _ => .inState
  | .inNxtTouchCheck _ => .inState
  | .inNxtColorInit _ => .inState
  | .inNxtColorWait _ => .inState
  | .inNxtColorBusy _ => .inState
  | .inPin1Loaded _ => .inState
  | .inPin6High _ => .inState
  | .inPin5Low _ => .inState
  | .inWaitPin2High _ => .inState
  | .inWaitPin1ToFloat _ => .inState
  | .inWaitPin6Low _ => .inState
  | .inWaitPin5High _ => .inState
  | .inDisabled _ => .inState
  | .inReserved _ _ => .inState
  | .outInit _ => .outState
  | .outFloatingDelay _ => .outState
  | .outFloating _ => .outState
  | .outWaitPin6Low _ => .outState
  | .outConnection _ => .outState
  | .outWaitPin5Low _ => .outState
  | .outWaitPortOpen _ => .outState
  | .outReserved _ => .outState

/-- An instruction's encoding has its row's format, on every platform. -/
def Statement (i : Instr) : Prop := ∀ p : Platform, (encode p i).format = tableFormat i

theorem tickS (spi : Cell16) : Statement (.tickS spi) := fun _ => rfl
theorem tickD : Statement (.tickD) := fun _ => rfl
theorem writeE (chars : List Byte) : Statement (.writeE chars) := fun _ => rfl
theorem eDisable (i : Nat) : Statement (.eDisable i) := fun _ => rfl
theorem eEnable (i : Nat) : Statement (.eEnable i) := fun _ => rfl
theorem eNop (i : Nat) : Statement (.eNop i) := fun _ => rfl
theorem eOther (i : Nat) (c : Byte) : Statement (.eOther i c) := fun _ => rfl
theorem writeT (codes : List Byte) : Statement (.writeT codes) := fun _ => rfl
theorem bareColor0D (i : Nat) : Statement (.bareColor0D i) := fun _ => rfl
theorem bareColor0E (i : Nat) : Statement (.bareColor0E i) := fun _ => rfl
theorem bareColor0F (i : Nat) : Statement (.bareColor0F i) := fun _ => rfl
theorem bareColor10 (i : Nat) : Statement (.bareColor10 i) := fun _ => rfl
theorem bareColor11 (i : Nat) : Statement (.bareColor11 i) := fun _ => rfl
theorem bareRawpin (i : Nat) (b : Byte) : Statement (.bareRawpin i b) := fun _ => rfl
theorem clrupdIn (i : Nat) : Statement (.clrupdIn i) := fun _ => rfl
theorem clrupdOut (j : Nat) : Statement (.clrupdOut j) := fun _ => rfl
theorem inInit (i : Nat) : Statement (.inInit i) := fun _ => rfl
theorem inFloatingDelay (i : Nat) : Statement (.inFloatingDelay i) := fun _ => rfl
theorem inFloating (i : Nat) : Statement (.inFloating i) := fun _ => rfl
theorem inConnection (i : Nat) : Statement (.inConnection i) := fun _ => rfl
theorem inPin2Low (i : Nat) : Statement (.inPin2Low i) := fun _ => rfl
theorem inNxtTouchCheck (i : Nat) : Statement (.inNxtTouchCheck i) := fun _ => rfl
theorem inNxtColorInit (i : Nat) : Statement (.inNxtColorInit i) := fun _ => rfl
theorem inNxtColorWait (i : Nat) : Statement (.inNxtColorWait i) := fun _ => rfl
theorem inNxtColorBusy (i : Nat) : Statement (.inNxtColorBusy i) := fun _ => rfl
theorem inPin1Loaded (i : Nat) : Statement (.inPin1Loaded i) := fun _ => rfl
theorem inPin6High (i : Nat) : Statement (.inPin6High i) := fun _ => rfl
theorem inPin5Low (i : Nat) : Statement (.inPin5Low i) := fun _ => rfl
theorem inWaitPin2High (i : Nat) : Statement (.inWaitPin2High i) := fun _ => rfl
theorem inWaitPin1ToFloat (i : Nat) : Statement (.inWaitPin1ToFloat i) := fun _ => rfl
theorem inWaitPin6Low (i : Nat) : Statement (.inWaitPin6Low i) := fun _ => rfl
theorem inWaitPin5High (i : Nat) : Statement (.inWaitPin5High i) := fun _ => rfl
theorem inDisabled (i : Nat) : Statement (.inDisabled i) := fun _ => rfl
theorem inReserved (i : Nat) (code : BitVec 5) : Statement (.inReserved i code) := fun _ => rfl
theorem outInit (j : Nat) : Statement (.outInit j) := fun _ => rfl
theorem outFloatingDelay (j : Nat) : Statement (.outFloatingDelay j) := fun _ => rfl
theorem outFloating (j : Nat) : Statement (.outFloating j) := fun _ => rfl
theorem outWaitPin6Low (j : Nat) : Statement (.outWaitPin6Low j) := fun _ => rfl
theorem outConnection (j : Nat) : Statement (.outConnection j) := fun _ => rfl
theorem outWaitPin5Low (j : Nat) : Statement (.outWaitPin5Low j) := fun _ => rfl
theorem outWaitPortOpen (j : Nat) : Statement (.outWaitPortOpen j) := fun _ => rfl
theorem outReserved (j : Nat) : Statement (.outReserved j) := fun _ => rfl

end Sys2Proof.Laws.EncodingFormat
end

