-- ==== Sys2Proof/Laws/Ports.lean ====
section
/-! SUPPORT. Operations that do one thing to each port in turn: the `'e'` and `'t'` writes, the auxiliary clocking and the
publication. Each port's part runs on its view, so the whole is every port's part alone. -/

namespace Sys2Proof.Machine

open Sys2Proof Config

/-- Views written back to some input ports, each once, where a port's view does not depend on the other ports. -/
theorem foldl_putIn {g : State → Nat → InView} (hg : ∀ s i k v, i ≠ k → g (s.putIn k v) i = g s i)
    {l : List Nat} (hl : l.Nodup) (s : State) :
    let t := l.foldl (fun s i => s.putIn i (g s i)) s
    t.cfg = s.cfg ∧ t.samp = s.samp ∧ t.env = s.env ∧ t.pending = s.pending ∧ t.buf = s.buf ∧ t.out = s.out ∧
      t.shOut = s.shOut ∧ t.calls = s.calls ++ l.flatMap (fun i => (g s i).calls) ∧
      (∀ i, t.inAt i = if i ∈ l then (g s i).port else s.inAt i) ∧
      (∀ i, t.shInAt i = if i ∈ l then (g s i).sh else s.shInAt i) := by
  induction l generalizing s with
  | nil => exact ⟨rfl, rfl, rfl, rfl, rfl, rfl, rfl, by simp, by simp, by simp⟩
  | cons a l ih =>
    obtain ⟨ha, hl⟩ := List.nodup_cons.1 hl
    obtain ⟨hc, hs, he, hp, hb, ho, hso, hk, hi, hsi⟩ := ih hl (s.putIn a (g s a))
    have hga : ∀ i ∈ l, g (s.putIn a (g s a)) i = g s i := fun i h => hg s i a _ (fun e => ha (e ▸ h))
    refine ⟨hc, hs, he, hp, hb, ho, hso, ?_, fun i => ?_, fun i => ?_⟩
    · rw [List.foldl_cons, hk, calls_putIn, List.flatMap_cons, ← List.append_assoc]
      congr 1
      exact List.flatMap_congr fun i h => by rw [hga i h]
    · rw [List.foldl_cons, hi i]
      by_cases h : i ∈ l
      · simp [h, hga i h]
      · by_cases h' : i = a <;> simp [h, h', ha]
    · rw [List.foldl_cons, hsi i]
      by_cases h : i ∈ l
      · simp [h, hga i h]
      · by_cases h' : i = a <;> simp [h, h', ha]

/-- A function of each port's view, run on every port of the block. -/
theorem foldl_runIn (f : Nat → InCtx → InView → InView) (n : Nat) (s : State) :
    let t := (List.range n).foldl (fun s i => s.runIn i (f i)) s
    t.cfg = s.cfg ∧ t.samp = s.samp ∧ t.env = s.env ∧ t.pending = s.pending ∧ t.buf = s.buf ∧ t.out = s.out ∧
      t.shOut = s.shOut ∧
      t.calls = s.calls ++ (List.range n).flatMap (fun i => (f i (s.ctxIn i) (s.viewIn i)).calls) ∧
      (∀ i, t.inAt i = if i < n then (f i (s.ctxIn i) (s.viewIn i)).port else s.inAt i) ∧
      (∀ i, t.shInAt i = if i < n then (f i (s.ctxIn i) (s.viewIn i)).sh else s.shInAt i) := by
  have h := foldl_putIn (g := fun s i => f i (s.ctxIn i) (s.viewIn i))
    (fun s i k v hne => by rw [viewIn_putIn_ne s v hne, ctxIn_putIn]) (l := List.range n) List.nodup_range s
  simp only [List.mem_range] at h
  exact h

/-! ## The `'e'` and `'t'` writes -/

@[simp] theorem eCharView_calls (ch : Byte) (c : InCtx) (v : InView) : (eCharView ch c v).calls = v.calls := by
  unfold eCharView; split_ifs <;> rfl

/-- A character that is neither of the platform's two changes nothing (R83, R262). -/
theorem eCharView_other {ch : Byte} {c : InCtx} (hd : ch ≠ c.cfg.eCharDisable) (he : ch ≠ c.cfg.eCharEnable)
    (v : InView) : eCharView ch c v = v := by
  unfold eCharView; rw [if_neg fun h => hd h.1, if_neg fun h => he h.1]

/-- What an `'e'` character does to a port, whichever it is. -/
theorem eCharView_cases (ch : Byte) (c : InCtx) (v : InView) :
    (v.port.fsmEnabled = true ∧ eCharView ch c v = disableView c v) ∨
      (v.port.fsmEnabled = false ∧ eCharView ch c v = enableView v) ∨ eCharView ch c v = v := by
  unfold eCharView
  split_ifs with h1 h2
  · exact .inl ⟨h1.2, rfl⟩
  · exact .inr (.inl ⟨h2.2, rfl⟩)
  · exact .inr (.inr rfl)

/-- A port that an `'e'` character leaves enabled is in `INIT` or as it was (R262). -/
theorem eCharView_enabled {ch : Byte} {c : InCtx} {v : InView} (h : (eCharView ch c v).port.fsmEnabled = true) :
    (eCharView ch c v).port.state = 0#5 ∨ (eCharView ch c v).port = v.port := by
  rcases eCharView_cases ch c v with ⟨-, e⟩ | ⟨-, e⟩ | e <;> rw [e] at h ⊢
  · cases h
  · exact .inl rfl
  · exact .inr rfl

@[simp] theorem forceView_calls (k : Byte) (c : InCtx) (v : InView) : (forceView k c v).calls = v.calls := by
  unfold forceView; split_ifs <;> rfl

@[simp] theorem forceView_port (k : Byte) (c : InCtx) (v : InView) : (forceView k c v).port = v.port := by
  unfold forceView; split_ifs <;> rfl

/-- A whole `'e'` write, port by port (R261). -/
theorem execWriteE_eq (cs : List Byte) (s : State) (h : cs.length = s.cfg.numIn) :
    ∃ t, execWriteE cs s = .next t ∧ t.cfg = s.cfg ∧ t.samp = s.samp ∧ t.env = s.env ∧ t.pending = s.pending ∧
      t.buf = s.buf ∧ t.out = s.out ∧ t.shOut = s.shOut ∧ t.calls = s.calls ∧
      (∀ i, t.inAt i = if i < s.cfg.numIn then (eCharView (cs.getD i 0x2D) (s.ctxIn i) (s.viewIn i)).port
        else s.inAt i) ∧
      (∀ i, t.shInAt i = if i < s.cfg.numIn then (eCharView (cs.getD i 0x2D) (s.ctxIn i) (s.viewIn i)).sh
        else s.shInAt i) := by
  obtain ⟨hc, hs, he, hp, hb, ho, hso, hk, hi, hsi⟩ := foldl_runIn (fun i => eCharView (cs.getD i 0x2D)) s.cfg.numIn s
  exact ⟨_, by rw [execWriteE, if_pos h], hc, hs, he, hp, hb, ho, hso, by rw [hk]; simp, hi, hsi⟩

/-- A whole `'t'` write, port by port (R263). -/
theorem execWriteT_eq (ks : List Byte) (s : State) (h : ks.length = s.cfg.numIn) :
    ∃ t, execWriteT ks s = .next t ∧ t.cfg = s.cfg ∧ t.samp = s.samp ∧ t.env = s.env ∧ t.pending = s.pending ∧
      t.buf = s.buf ∧ t.out = s.out ∧ t.shOut = s.shOut ∧ t.calls = s.calls ∧ (∀ i, t.inAt i = s.inAt i) ∧
      (∀ i, t.shInAt i = if i < s.cfg.numIn ∧ (s.inAt i).fsmEnabled = false then
        { s.shInAt i with connClass := ks.getD i 0 } else s.shInAt i) := by
  obtain ⟨hc, hs, he, hp, hb, ho, hso, hk, hi, hsi⟩ := foldl_runIn (fun i => forceView (ks.getD i 0)) s.cfg.numIn s
  refine ⟨_, by rw [execWriteT, if_pos h], hc, hs, he, hp, hb, ho, hso, by rw [hk]; simp, fun i => ?_, fun i => ?_⟩
  · rw [hi i]; simp
  · rw [hsi i]
    cases hf : (s.inAt i).fsmEnabled <;> by_cases hl : i < s.cfg.numIn <;> simp [forceView, hf, hl]

/-! ## Drives with a flag -/

/-- What a list of drives leaves of a view: everything but the drive cells and the calls. -/
theorem driveView_frame (c : InCtx) (ds : List (Role × ClockFlag)) (v : InView) :
    (driveView ds c v).sh = v.sh ∧ (driveView ds c v).port = { v.port with drv := (driveView ds c v).port.drv } ∧
      (driveView ds c v).calls = v.calls ++ ds.filterMap (fun rd =>
        match rd.2 with
        | .drive d => some (OracleCall.drive (.inp c.idx rd.1) d)
        | .keep => none) := by
  induction ds generalizing v with
  | nil => simp [driveView]
  | cons rd ds ih =>
    obtain ⟨role, d⟩ := rd
    cases d with
    | keep => simpa [driveView, InView.flag] using ih v
    | drive l =>
      obtain ⟨h1, h2, h3⟩ := ih (v.drive c role l)
      refine ⟨h1, h2, ?_⟩
      show (driveView ds c (v.drive c role l)).calls = _
      rw [h3]; simp [InView.drive]

/-- What a list of drives leaves on a pin: the last one to that pin, else what was there. -/
theorem driveView_read (c : InCtx) (ds : List (Role × ClockFlag)) (v : InView) (cell : PinCell) :
    (driveView ds c v).port.drv.read cell =
      ((ds.filterMap fun rd =>
        match rd.2 with
        | .drive d => if cellOf c.cfg rd.1 = cell then some d else none
        | .keep => none).getLast?).getD (v.port.drv.read cell) := by
  induction ds generalizing v with
  | nil => rfl
  | cons rd ds ih =>
    obtain ⟨role, d⟩ := rd
    cases d with
    | keep => simpa [driveView, InView.flag] using ih v
    | drive l =>
      show (driveView ds c (v.drive c role l)).port.drv.read cell = _
      rw [ih, List.filterMap_cons]
      by_cases h : cellOf c.cfg role = cell
      · simp [h, InView.drive, List.getLast?_cons]
      · simp [h, InView.drive, Ne.symm h]

end Sys2Proof.Machine
end

