-- ==== Sys2Proof/Laws/Rules.lean ====
section
/-! SUPPORT. What no state rule touches, said once for all rules, and the form every instruction's next state has. -/

namespace Sys2Proof.Machine

open Sys2Proof Config

/-- The call is an SPI exchange. -/
def isSpi : OracleCall → Bool
  | .spiExchange _ => true
  | _ => false

/-- Calls whose SPI exchanges are those of no calls have none. -/
theorem spi_notMem {cs : List OracleCall} (h : cs.filter isSpi = []) (w : Cell16) : OracleCall.spiExchange w ∉ cs := fun hm =>
  absurd (List.filter_eq_nil_iff.1 h _ hm) (by simp [isSpi])

/-- What a state rule of an input port leaves of its view, and that it makes no SPI exchange (R34, R36, R113, R307). -/
structure RuleFrameIn (v w : InView) : Prop where
  oldState : w.port.oldState = v.port.oldState
  fsmEnabled : w.port.fsmEnabled = v.port.fsmEnabled
  ring : w.port.ring = v.port.ring
  ringIdx : w.port.ringIdx = v.port.ringIdx
  upd : w.sh.upd = v.sh.upd
  spi : w.calls.filter isSpi = v.calls.filter isSpi

/-- The frame follows from that of a rule's pseudocode. -/
theorem inRule_frame {m : TimerMode} {body : InCtx → InView → InView} {c : InCtx}
    (h : ∀ v, RuleFrameIn v (body c v)) (v : InView) : RuleFrameIn v (inRule m body c v) := by
  have ht : RuleFrameIn v (v.tick m c) := by
    cases m <;> constructor <;> rfl
  have hs : ∀ w : InView, RuleFrameIn w (w.settle v.port.state) := by
    intro w; unfold InView.settle; split <;> constructor <;> rfl
  obtain ⟨a1, a2, a3, a4, a5, a6⟩ := ht
  obtain ⟨b1, b2, b3, b4, b5, b6⟩ := h (v.tick m c)
  obtain ⟨c1, c2, c3, c4, c5, c6⟩ := hs (body c (v.tick m c))
  exact ⟨c1.trans (b1.trans a1), c2.trans (b2.trans a2), c3.trans (b3.trans a3), c4.trans (b4.trans a4),
    c5.trans (b5.trans a5), c6.trans (b6.trans a6)⟩

theorem inInitBody_frame (c : InCtx) (v : InView) : RuleFrameIn v (inInitBody c v) := by
  cases h : v.port.sessionOpen <;> constructor <;> simp [inInitBody, h, InView.drive, InView.closeSession, isSpi]
theorem inFloatingDelayBody_frame (c : InCtx) (v : InView) : RuleFrameIn v (inFloatingDelayBody c v) := by
  unfold inFloatingDelayBody; split <;> constructor <;> rfl
theorem inFloatingBody_frame (c : InCtx) (v : InView) : RuleFrameIn v (inFloatingBody c v) := by
  unfold inFloatingBody; split <;> constructor <;> rfl
theorem inConnectionBody_frame (c : InCtx) (v : InView) : RuleFrameIn v (inConnectionBody c v) := by
  unfold inConnectionBody; split_ifs <;> constructor <;> rfl
theorem inPin2LowBody_frame (t : Pin2Tree) (c : InCtx) (v : InView) : RuleFrameIn v (inPin2LowBody t c v) := by
  have h : ∀ (o : Pin2Outcome) (w : InView), RuleFrameIn w (pin2Effect c o w) := by
    intro o w; cases o <;> constructor <;> rfl
  obtain ⟨h1, h2, h3, h4, h5, h6⟩ := h (pin2TreeEval t (evPin5 v.port.event) (evPin6 v.port.event) c.x1)
    { v with port := { v.port with value := c.x1, connected := true } }
  exact ⟨h1, h2, h3, h4, h5, h6⟩
theorem inNxtTouchCheckBody_frame (c : InCtx) (v : InView) : RuleFrameIn v (inNxtTouchCheckBody c v) := by
  unfold inNxtTouchCheckBody
  by_cases h : near c.x1.toNat v.port.value.toNat touchTol = true <;> simp only [h] <;> split <;> constructor <;> rfl
theorem inNxtColorInitBody_frame (c : InCtx) (v : InView) : RuleFrameIn v (inNxtColorInitBody c v) := by
  constructor <;> simp [inNxtColorInitBody, InView.openSession, isSpi]
theorem inNxtColorWaitBody_frame (c : InCtx) (v : InView) : RuleFrameIn v (inNxtColorWaitBody c v) := by
  unfold inNxtColorWaitBody; split_ifs <;> constructor <;> simp [InView.closeSession, isSpi]
theorem inNxtColorBusyBody_frame (c : InCtx) (v : InView) : RuleFrameIn v (inNxtColorBusyBody c v) := by
  constructor <;> simp [inNxtColorBusyBody, InView.closeSession, isSpi]
theorem inPin1LoadedBody_frame (c : InCtx) (v : InView) : RuleFrameIn v (inPin1LoadedBody c v) := by
  unfold inPin1LoadedBody
  by_cases h : above c.x1.toNat tIn1NearPin2 = true <;> by_cases h' : below c.x1.toNat tIn1NearGnd = true <;>
    simp only [h, h'] <;> constructor <;> rfl
theorem inPin6HighBody_frame (c : InCtx) (v : InView) : RuleFrameIn v (inPin6HighBody c v) := by constructor <;> rfl
theorem inPin5LowBody_frame (c : InCtx) (v : InView) : RuleFrameIn v (inPin5LowBody c v) := by constructor <;> rfl
theorem inWaitPin2HighBody_frame (c : InCtx) (v : InView) : RuleFrameIn v (inWaitPin2HighBody c v) := by
  unfold inWaitPin2HighBody; split <;> constructor <;> rfl
theorem inWaitPin1ToFloatBody_frame (c : InCtx) (v : InView) : RuleFrameIn v (inWaitPin1ToFloatBody c v) := by
  unfold inWaitPin1ToFloatBody; split <;> constructor <;> rfl
theorem inWaitPin6LowBody_frame (c : InCtx) (v : InView) : RuleFrameIn v (inWaitPin6LowBody c v) := by
  unfold inWaitPin6LowBody; split <;> constructor <;> rfl
theorem inWaitPin5HighBody_frame (c : InCtx) (v : InView) : RuleFrameIn v (inWaitPin5HighBody c v) := by
  unfold inWaitPin5HighBody; split <;> constructor <;> rfl
theorem inDisabledBody_frame (c : InCtx) (v : InView) : RuleFrameIn v (inDisabledBody c v) := by constructor <;> rfl

/-- No rule that a state code dispatches to touches the frame. -/
theorem inDispatchView_frame {c : InCtx} {v w : InView} (h : inDispatchView c v = some w) : RuleFrameIn v w := by
  unfold inDispatchView at h
  cases hs : inStateOf v.port.state with
  | none => rw [hs] at h; cases h; exact inRule_frame (inInitBody_frame c) v
  | some st =>
    rw [hs] at h
    cases st
    case pin2Low =>
      obtain ⟨t, -, rfl⟩ := Option.map_eq_some_iff.1 h
      exact inRule_frame (inPin2LowBody_frame t c) v
    all_goals cases h
    · exact inRule_frame (inInitBody_frame c) v
    · exact inRule_frame (inFloatingDelayBody_frame c) v
    · exact inRule_frame (inFloatingBody_frame c) v
    · exact inRule_frame (inConnectionBody_frame c) v
    · exact inRule_frame (inNxtTouchCheckBody_frame c) v
    · exact inRule_frame (inNxtColorInitBody_frame c) v
    · exact inRule_frame (inNxtColorWaitBody_frame c) v
    · exact inRule_frame (inNxtColorBusyBody_frame c) v
    · exact inRule_frame (inPin1LoadedBody_frame c) v
    · exact inRule_frame (inPin6HighBody_frame c) v
    · exact inRule_frame (inPin5LowBody_frame c) v
    · exact inRule_frame (inWaitPin2HighBody_frame c) v
    · exact inRule_frame (inWaitPin1ToFloatBody_frame c) v
    · exact inRule_frame (inWaitPin6LowBody_frame c) v
    · exact inRule_frame (inWaitPin5HighBody_frame c) v
    · exact inRule_frame (inDisabledBody_frame c) v

/-- A whole input step keeps enable, ring and update flag, and records the old state (R170, R307). -/
theorem inStepView_frame {c : InCtx} {v w : InView} (h : inStepView c v = some w) :
    w.port.oldState = v.port.state ∧ w.port.fsmEnabled = v.port.fsmEnabled ∧ w.port.ring = v.port.ring ∧
      w.port.ringIdx = v.port.ringIdx ∧ w.sh.upd = v.sh.upd ∧ w.calls.filter isSpi = v.calls.filter isSpi := by
  obtain ⟨h1, h2, h3, h4, h5, h6⟩ := inDispatchView_frame h
  have ho : ∀ p : InPort, (fsmOverride p).oldState = p.oldState ∧ (fsmOverride p).fsmEnabled = p.fsmEnabled ∧
      (fsmOverride p).ring = p.ring ∧ (fsmOverride p).ringIdx = p.ringIdx := by
    intro p; unfold fsmOverride; split_ifs <;> exact ⟨rfl, rfl, rfl, rfl⟩
  obtain ⟨a1, a2, a3, a4⟩ := ho { v.port with oldState := v.port.state }
  exact ⟨h1.trans a1, h2.trans a2, h3.trans a3, h4.trans a4, h5, h6⟩

/-- What a state rule of an output port leaves of its view, and that it makes no SPI exchange (R113, R307). -/
structure RuleFrameOut (v w : OutView) : Prop where
  upd : w.sh.upd = v.sh.upd
  spi : w.calls.filter isSpi = v.calls.filter isSpi

/-- The frame follows from that of a rule's pseudocode. -/
theorem outRule_frame {m : TimerMode} {body : OutCtx → OutView → OutView} {c : OutCtx}
    (h : ∀ v, RuleFrameOut v (body c v)) (v : OutView) : RuleFrameOut v (outRule m body c v) := by
  obtain ⟨h1, h2⟩ := h (v.tick m c)
  constructor
  · rw [outRule, out_sh_settle, h1, out_sh_tick]
  · rw [outRule, out_calls_settle, h2, out_calls_tick]

theorem outInitBody_frame (c : OutCtx) (v : OutView) : RuleFrameOut v (outInitBody c v) := by
  constructor <;> simp [outInitBody, OutView.drivePin5, OutView.drivePin6, isSpi]
theorem outFloatingDelayBody_frame (c : OutCtx) (v : OutView) : RuleFrameOut v (outFloatingDelayBody c v) := by
  unfold outFloatingDelayBody; split <;> constructor <;> rfl
theorem outFloatingBody_frame (c : OutCtx) (v : OutView) : RuleFrameOut v (outFloatingBody c v) := by
  unfold outFloatingBody; simp only []; split <;> constructor <;> simp [OutView.drivePin5, isSpi]
theorem outWaitPin6LowBody_frame (c : OutCtx) (v : OutView) : RuleFrameOut v (outWaitPin6LowBody c v) := by
  unfold outWaitPin6LowBody; split <;> constructor <;> rfl
theorem outConnectionBody_frame (c : OutCtx) (v : OutView) : RuleFrameOut v (outConnectionBody c v) := by
  unfold outConnectionBody; simp only []
  split_ifs <;> constructor <;> simp [outConnected, OutView.drivePin5, isSpi]
theorem outWaitPin5LowBody_frame (c : OutCtx) (v : OutView) : RuleFrameOut v (outWaitPin5LowBody c v) := by
  unfold outWaitPin5LowBody; split <;> constructor <;> simp [outConnected, OutView.drivePin5, isSpi]
theorem outWaitPortOpenBody_frame (c : OutCtx) (v : OutView) : RuleFrameOut v (outWaitPortOpenBody c v) := by
  unfold outWaitPortOpenBody; split <;> constructor <;> rfl

/-- No rule that a state code dispatches to touches the frame. -/
theorem outDispatchView_frame (c : OutCtx) (v : OutView) : RuleFrameOut v (outDispatchView c v) := by
  unfold outDispatchView
  cases outStateOf v.port.state with
  | none => exact outRule_frame (outInitBody_frame c) v
  | some st =>
    cases st
    · exact outRule_frame (outInitBody_frame c) v
    · exact outRule_frame (outFloatingDelayBody_frame c) v
    · exact outRule_frame (outFloatingBody_frame c) v
    · exact outRule_frame (outWaitPin6LowBody_frame c) v
    · exact outRule_frame (outConnectionBody_frame c) v
    · exact outRule_frame (outWaitPin5LowBody_frame c) v
    · exact outRule_frame (outWaitPortOpenBody_frame c) v

/-- A whole output step keeps the update flag and makes no SPI exchange. -/
theorem outStepView_frame (c : OutCtx) (v : OutView) : RuleFrameOut v (outStepView c v) := by
  obtain ⟨h1, h2⟩ := outDispatchView_frame c { v with port := { v.port with oldState := v.port.state } }
  exact ⟨h1, h2⟩

/-- Where a state rule's instruction answers a next state, that is a view of a port of the block with the frame kept,
written back. -/
theorem exec_inState {p : Platform} {ins : Instr} {s t : State} (hf : (encode p ins).format = .inState)
    (h : exec ins s = .next t) : ∃ i w, i < s.cfg.numIn ∧ t = s.putIn i w ∧ RuleFrameIn (s.viewIn i) w := by
  have key : ∀ {i : Nat} {m : TimerMode} {body : InCtx → InView → InView},
      (∀ v, RuleFrameIn v (body (s.ctxIn i) v)) → onIn i s (.next (s.runIn i (inRule m body))) = .next t →
      ∃ i w, i < s.cfg.numIn ∧ t = s.putIn i w ∧ RuleFrameIn (s.viewIn i) w := by
    intro i m body hb h
    obtain ⟨hi, h⟩ := onIn_eq_next h
    cases h
    exact ⟨i, _, hi, rfl, inRule_frame hb _⟩
  cases ins <;> first | (simp [encode, Encoding.format] at hf; done) | skip
  case inPin2Low i =>
    obtain ⟨hi, h⟩ := onIn_eq_next h
    cases ht : s.cfg.pin2Tree with
    | none => rw [ht] at h; cases h
    | some tr => rw [ht] at h; cases h; exact ⟨i, _, hi, rfl, inRule_frame (inPin2LowBody_frame tr _) _⟩
  case inInit i => exact key (inInitBody_frame _) h
  case inFloatingDelay i => exact key (inFloatingDelayBody_frame _) h
  case inFloating i => exact key (inFloatingBody_frame _) h
  case inConnection i => exact key (inConnectionBody_frame _) h
  case inNxtTouchCheck i => exact key (inNxtTouchCheckBody_frame _) h
  case inNxtColorInit i => exact key (inNxtColorInitBody_frame _) h
  case inNxtColorWait i => exact key (inNxtColorWaitBody_frame _) h
  case inNxtColorBusy i => exact key (inNxtColorBusyBody_frame _) h
  case inPin1Loaded i => exact key (inPin1LoadedBody_frame _) h
  case inPin6High i => exact key (inPin6HighBody_frame _) h
  case inPin5Low i => exact key (inPin5LowBody_frame _) h
  case inWaitPin2High i => exact key (inWaitPin2HighBody_frame _) h
  case inWaitPin1ToFloat i => exact key (inWaitPin1ToFloatBody_frame _) h
  case inWaitPin6Low i => exact key (inWaitPin6LowBody_frame _) h
  case inWaitPin5High i => exact key (inWaitPin5HighBody_frame _) h
  case inDisabled i => exact key (inDisabledBody_frame _) h
  case inReserved i code => exact key (inInitBody_frame _) h

/-- Where an output rule's instruction answers a next state, that is a view of a port of the block with the frame kept,
written back. -/
theorem exec_outState {p : Platform} {ins : Instr} {s t : State} (hf : (encode p ins).format = .outState)
    (h : exec ins s = .next t) : ∃ j w, j < s.cfg.numOut ∧ t = s.putOut j w ∧ RuleFrameOut (s.viewOut j) w := by
  have key : ∀ {j : Nat} {m : TimerMode} {body : OutCtx → OutView → OutView},
      (∀ v, RuleFrameOut v (body (s.ctxOut j) v)) → onOut j s (.next (s.runOut j (outRule m body))) = .next t →
      ∃ j w, j < s.cfg.numOut ∧ t = s.putOut j w ∧ RuleFrameOut (s.viewOut j) w := by
    intro j m body hb h
    obtain ⟨hj, h⟩ := onOut_eq_next h
    cases h
    exact ⟨j, _, hj, rfl, outRule_frame hb _⟩
  cases ins <;> first | (simp [encode, Encoding.format] at hf; done) | skip
  case outInit j => exact key (outInitBody_frame _) h
  case outFloatingDelay j => exact key (outFloatingDelayBody_frame _) h
  case outFloating j => exact key (outFloatingBody_frame _) h
  case outWaitPin6Low j => exact key (outWaitPin6LowBody_frame _) h
  case outConnection j => exact key (outConnectionBody_frame _) h
  case outWaitPin5Low j => exact key (outWaitPin5LowBody_frame _) h
  case outWaitPortOpen j => exact key (outWaitPortOpenBody_frame _) h
  case outReserved j => exact key (outInitBody_frame _) h

end Sys2Proof.Machine
end

