-- ==== Sys2Proof/Laws/Transitions.lean ====
section
/-! SUPPORT. Where each input rule may go, and what it may do to the session, the colour flag, the event word and the
colour result: one lemma per rule, then one for the dispatch (R175 to R193). -/

namespace Sys2Proof.Machine

open Sys2Proof Config

/-- The codes of the states an input rule may leave its port in. -/
def successors : InState → List (BitVec 5)
  | .init => [1]
  | .floatingDelay => [1, 2]
  | .floating => [2, 3]
  | .connection => [4, 9, 10, 11, 0]
  | .pin2Low => [12, 6, 5]
  | .nxtTouchCheck => [5, 12]
  | .nxtColorInit => [7]
  | .nxtColorWait => [7, 8, 12]
  | .nxtColorBusy => [12]
  | .pin1Loaded => [13]
  | .pin6High => [14]
  | .pin5Low => [15]
  | .waitPin2High => [12, 0]
  | .waitPin1ToFloat => [13, 0]
  | .waitPin6Low => [14, 0]
  | .waitPin5High => [15, 0]
  | .disabled => [16]

/-- What the rule of state `x` may make of a view `v`. -/
structure RuleFacts (x : InState) (c : InCtx) (v w : InView) : Prop where
  state : w.port.state ∈ successors x
  pin2 : x = .connection → w.port.state = 4#5 → v.port.event.getLsbD 1 = true
  session : w.port.sessionOpen = true → x = .nxtColorInit ∨
    (v.port.sessionOpen = true ∧ x ≠ .init ∧ x ≠ .nxtColorBusy ∧ (x = .nxtColorWait → w.port.state ≠ 12#5))
  color : w.port.colorActive = true → x = .nxtColorBusy ∨ (v.port.colorActive = true ∧ x ≠ .init)
  event : w.port.event = v.port.event ∨ w.port.event = evIn c ∨ w.port.event = 0
  colorRes : w.sh.colorRes = v.sh.colorRes ∨ w.sh.colorRes = c.ans.result
  timer : w.port.timer = v.port.timer ∨ w.port.timer < 2 ^ c.cfg.timerBits

/-- The facts follow from those of a rule's pseudocode, given the state that the port is in. -/
theorem inRule_facts {x : InState} {m : TimerMode} {body : InCtx → InView → InView} {c : InCtx}
    (h : ∀ v, v.port.state = x.code → RuleFacts x c v (body c v)) (hm : x = .connection → m = .none) (v : InView)
    (hx : v.port.state = x.code) : RuleFacts x c v (inRule m body c v) := by
  have ht : (v.tick m c).port.state = x.code ∧ (v.tick m c).port.sessionOpen = v.port.sessionOpen ∧
      (v.tick m c).port.colorActive = v.port.colorActive ∧
      ((v.tick m c).port.event = v.port.event ∨ (v.tick m c).port.event = evIn c) ∧
      (v.tick m c).sh = v.sh ∧
      ((v.tick m c).port.timer = v.port.timer ∨ (v.tick m c).port.timer < 2 ^ c.cfg.timerBits) := by
    cases m with
    | none => exact ⟨hx, rfl, rfl, .inl rfl, rfl, .inl rfl⟩
    | dly => exact ⟨hx, rfl, rfl, .inl rfl, rfl, .inr (tickUp_lt _ _)⟩
    | deb =>
      refine ⟨hx, rfl, rfl, ?_, rfl, .inr ?_⟩
      · rw [port_tick_deb]
        split
        · exact .inl rfl
        · exact .inr rfl
      · rw [port_tick_deb]
        split
        · exact tickUp_lt _ _
        · exact Nat.two_pow_pos _
  have hs : ∀ w : InView, (w.settle v.port.state).port.state = w.port.state ∧
      (w.settle v.port.state).port.sessionOpen = w.port.sessionOpen ∧
      (w.settle v.port.state).port.colorActive = w.port.colorActive ∧
      (w.settle v.port.state).port.event = w.port.event ∧ (w.settle v.port.state).sh = w.sh ∧
      ((w.settle v.port.state).port.timer = w.port.timer ∨ (w.settle v.port.state).port.timer = 0) := by
    intro w; unfold InView.settle; split
    · exact ⟨rfl, rfl, rfl, rfl, rfl, .inr rfl⟩
    · exact ⟨rfl, rfl, rfl, rfl, rfl, .inl rfl⟩
  obtain ⟨t1, t2, t3, t4, t5, t6⟩ := ht
  obtain ⟨b1, b2, b3, b4, b5, b6, b7⟩ := h (v.tick m c) t1
  obtain ⟨s1, s2, s3, s4, s5, s6⟩ := hs (body c (v.tick m c))
  refine ⟨by rw [inRule, s1]; exact b1, ?_, ?_, ?_, ?_, ?_, ?_⟩
  · intro hc h4
    rw [inRule, s1] at h4
    have := b2 hc h4
    rw [hm hc] at this
    exact this
  · rw [inRule, s1, s2, ← t2]; exact b3
  · rw [inRule, s3, ← t3]; exact b4
  · rw [inRule, s4]
    rcases b5 with e | e | e
    · rw [e]
      rcases t4 with e' | e'
      · exact .inl e'
      · exact .inr (.inl e')
    · exact .inr (.inl e)
    · exact .inr (.inr e)
  · rw [inRule, s5, ← t5]; exact b6
  · rw [inRule]
    rcases s6 with e | e
    · rw [e]
      rcases b7 with e' | e'
      · rw [e']; exact t6
      · exact .inr e'
    · rw [e]; exact .inr (Nat.two_pow_pos _)

theorem inInitBody_facts (c : InCtx) (v : InView) : RuleFacts .init c v (inInitBody c v) := by
  cases h : v.port.sessionOpen <;> constructor <;>
    simp [inInitBody, h, InView.drive, InView.closeSession, InState.code, successors]

/-- A rule that stays or leaves, changing nothing but the state. -/
theorem stay_or_go {x st : InState} {c : InCtx} {v : InView} {p : Prop} [Decidable p] (hx : v.port.state = x.code)
    (h1 : x.code ∈ successors x) (h2 : st.code ∈ successors x) (hc : x ≠ .connection) (hi : x ≠ .init)
    (hb : x ≠ .nxtColorBusy) (hw : x ≠ .nxtColorWait) : RuleFacts x c v (if p then v.goto st else v) := by
  split
  · exact ⟨h2, fun e => absurd e hc, fun e => .inr ⟨e, hi, hb, fun e => absurd e hw⟩, fun e => .inr ⟨e, hi⟩, .inl rfl,
      .inl rfl, .inl rfl⟩
  · exact ⟨by rw [hx]; exact h1, fun e => absurd e hc, fun e => .inr ⟨e, hi, hb, fun e => absurd e hw⟩,
      fun e => .inr ⟨e, hi⟩, .inl rfl, .inl rfl, .inl rfl⟩

theorem inConnectionBody_facts (c : InCtx) (v : InView) : RuleFacts .connection c v (inConnectionBody c v) := by
  unfold inConnectionBody
  split_ifs with h1 h2 h3 h4 <;> constructor <;> simp_all [InState.code, successors, evPin2]

theorem inPin2LowBody_facts (t : Pin2Tree) (c : InCtx) (v : InView) : RuleFacts .pin2Low c v (inPin2LowBody t c v) := by
  have h : ∀ (o : Pin2Outcome) (w : InView), w.port.sessionOpen = v.port.sessionOpen →
      w.port.colorActive = v.port.colorActive → w.port.event = v.port.event → w.port.timer = v.port.timer →
      w.sh = v.sh → RuleFacts .pin2Low c v (pin2Effect c o w) := by
    intro o w h1 h2 h3 h4 h5
    cases o <;> constructor <;> simp_all [pin2Effect, InState.code, successors]
  exact h _ _ rfl rfl rfl rfl rfl

theorem inNxtTouchCheckBody_facts (c : InCtx) (v : InView) (hx : v.port.state = InState.nxtTouchCheck.code) :
    RuleFacts .nxtTouchCheck c v (inNxtTouchCheckBody c v) := by
  by_cases h : reached v.port.timer touchTicks = true <;>
    by_cases h' : near c.x1.toNat v.port.value.toNat touchTol = true <;>
    constructor <;> simp [inNxtTouchCheckBody, h, h', hx, InState.code, successors]

theorem inNxtColorInitBody_facts (c : InCtx) (v : InView) : RuleFacts .nxtColorInit c v (inNxtColorInitBody c v) := by
  constructor <;> simp [inNxtColorInitBody, InView.openSession, InState.code, successors]

theorem inNxtColorWaitBody_facts (c : InCtx) (v : InView) (hx : v.port.state = InState.nxtColorWait.code) :
    RuleFacts .nxtColorWait c v (inNxtColorWaitBody c v) := by
  by_cases h : c.ans.ready = true <;> by_cases h' : reached v.port.timer colorTimeoutTicks = true <;>
    constructor <;> simp [inNxtColorWaitBody, h, h', hx, InView.closeSession, InState.code, successors]

theorem inNxtColorBusyBody_facts (c : InCtx) (v : InView) : RuleFacts .nxtColorBusy c v (inNxtColorBusyBody c v) := by
  constructor <;> simp [inNxtColorBusyBody, InView.closeSession, InState.code, successors]

theorem inPin1LoadedBody_facts (c : InCtx) (v : InView) : RuleFacts .pin1Loaded c v (inPin1LoadedBody c v) := by
  by_cases h : above c.x1.toNat tIn1NearPin2 = true <;> by_cases h' : below c.x1.toNat tIn1NearGnd = true <;>
    constructor <;> simp [inPin1LoadedBody, h, h', InState.code, successors]

theorem inPin6HighBody_facts (c : InCtx) (v : InView) : RuleFacts .pin6High c v (inPin6HighBody c v) := by
  constructor <;> simp [inPin6HighBody, InState.code, successors]

theorem inPin5LowBody_facts (c : InCtx) (v : InView) : RuleFacts .pin5Low c v (inPin5LowBody c v) := by
  constructor <;> simp [inPin5LowBody, InState.code, successors]

theorem inDisabledBody_facts (c : InCtx) (v : InView) (hx : v.port.state = InState.disabled.code) :
    RuleFacts .disabled c v (inDisabledBody c v) := by
  constructor <;> simp [inDisabledBody, hx, InState.code, successors]

/-- A code is that of the state it names. -/
theorem code_of_inStateOf {st : BitVec 5} {x : InState} (h : inStateOf st = some x) : st = x.code := by
  cases x <;> revert st <;> decide

/-- The codes that name no state. -/
theorem inStateOf_none {st : BitVec 5} (h : inStateOf st = none) : 17 ≤ st.toNat := by
  revert st; decide

/-- The dispatch of a listed state: the facts of its rule. -/
theorem inDispatchView_facts {c : InCtx} {v w : InView} {x : InState} (hx : inStateOf v.port.state = some x)
    (h : inDispatchView c v = some w) : RuleFacts x c v w := by
  have hc := code_of_inStateOf hx
  unfold inDispatchView at h
  rw [hx] at h
  cases x
  case pin2Low =>
    obtain ⟨t, -, rfl⟩ := Option.map_eq_some_iff.1 h
    exact inRule_facts (fun v _ => inPin2LowBody_facts t c v) (by simp) v hc
  all_goals cases h
  · exact inRule_facts (fun v _ => inInitBody_facts c v) (by simp) v hc
  · exact inRule_facts (fun v hv => stay_or_go hv (by decide) (by decide) (by decide) (by decide) (by decide) (by decide))
      (by simp) v hc
  · exact inRule_facts (fun v hv => stay_or_go hv (by decide) (by decide) (by decide) (by decide) (by decide) (by decide))
      (by simp) v hc
  · exact inRule_facts (fun v _ => inConnectionBody_facts c v) (by simp) v hc
  · exact inRule_facts (fun v hv => inNxtTouchCheckBody_facts c v hv) (by simp) v hc
  · exact inRule_facts (fun v _ => inNxtColorInitBody_facts c v) (by simp) v hc
  · exact inRule_facts (fun v hv => inNxtColorWaitBody_facts c v hv) (by simp) v hc
  · exact inRule_facts (fun v _ => inNxtColorBusyBody_facts c v) (by simp) v hc
  · exact inRule_facts (fun v _ => inPin1LoadedBody_facts c v) (by simp) v hc
  · exact inRule_facts (fun v _ => inPin6HighBody_facts c v) (by simp) v hc
  · exact inRule_facts (fun v _ => inPin5LowBody_facts c v) (by simp) v hc
  · exact inRule_facts (fun v hv => stay_or_go hv (by decide) (by decide) (by decide) (by decide) (by decide) (by decide))
      (by simp) v hc
  · exact inRule_facts (fun v hv => stay_or_go hv (by decide) (by decide) (by decide) (by decide) (by decide) (by decide))
      (by simp) v hc
  · exact inRule_facts (fun v hv => stay_or_go hv (by decide) (by decide) (by decide) (by decide) (by decide) (by decide))
      (by simp) v hc
  · exact inRule_facts (fun v hv => stay_or_go hv (by decide) (by decide) (by decide) (by decide) (by decide) (by decide))
      (by simp) v hc
  · exact inRule_facts (fun v hv => inDisabledBody_facts c v hv) (by simp) v hc

/-- The override leaves a port whose enable and state agree (R171, R302). -/
theorem fsmOverride_agree {p : InPort} (h : p.fsmEnabled = false ↔ p.state = 16#5) : fsmOverride p = p := by
  unfold fsmOverride
  cases he : p.fsmEnabled with
  | false => simp [h.1 he, InState.code]
  | true =>
    have : p.state ≠ 16#5 := fun e => by rw [h.2 e] at he; cases he
    simp [this, InState.code]

/-- A whole step of a port whose enable and state agree and whose state is a listed one. -/
theorem inStepView_facts {c : InCtx} {v w : InView} {x : InState}
    (ha : v.port.fsmEnabled = false ↔ v.port.state = 16#5) (hx : inStateOf v.port.state = some x)
    (h : inStepView c v = some w) : RuleFacts x c v w := by
  have ho : fsmOverride { v.port with oldState := v.port.state } = { v.port with oldState := v.port.state } :=
    fsmOverride_agree ha
  unfold inStepView at h
  rw [ho] at h
  obtain ⟨h1, h2, h3, h4, h5, h6, h7⟩ :=
    inDispatchView_facts (v := { v with port := { v.port with oldState := v.port.state } }) hx h
  exact ⟨h1, h2, h3, h4, h5, h6, h7⟩

/-- The output states a rule may leave its port in are listed ones (R231). -/
theorem outDispatchView_state (c : OutCtx) (v : OutView) : (outDispatchView c v).port.state.toNat ≤ 6 := by
  have hr : ∀ {m : TimerMode} {body : OutCtx → OutView → OutView},
      (∀ w : OutView, w.port.state = v.port.state → (body c w).port.state.toNat ≤ 6) →
      (outRule m body c v).port.state.toNat ≤ 6 := by
    intro m body h
    have := h (v.tick m c) (by cases m <;> rfl)
    rw [outRule, out_port_settle]
    split <;> exact this
  have hgo : ∀ (w : OutView) (st : OutState), (w.goto st).port.state.toNat ≤ 6 := by
    intro w st
    have : ∀ st : OutState, st.code.toNat ≤ 6 := by intro st; cases st <;> decide
    exact this st
  unfold outDispatchView
  cases ho : outStateOf v.port.state with
  | none => exact hr fun w _ => hgo _ .floatingDelay
  | some st =>
    have h6 : v.port.state.toNat ≤ 6 := by
      revert ho; generalize v.port.state = b; cases st <;> revert b <;> decide
    cases st
    · exact hr fun w _ => hgo _ .floatingDelay
    · exact hr fun w hw => by
        unfold outFloatingDelayBody; split
        · exact hgo _ _
        · rw [hw]; exact h6
    · exact hr fun w hw => by
        unfold outFloatingBody; simp only []; split
        · exact hgo _ _
        · show w.port.state.toNat ≤ 6
          rw [hw]; exact h6
    · exact hr fun w hw => by
        unfold outWaitPin6LowBody; split
        · exact hgo _ _
        · rw [hw]; exact h6
    · exact hr fun w _ => by unfold outConnectionBody; simp only []; split_ifs <;> exact hgo _ _
    · exact hr fun w hw => by
        unfold outWaitPin5LowBody; split
        · exact hgo _ _
        · rw [hw]; exact h6
    · exact hr fun w hw => by
        unfold outWaitPortOpenBody; split
        · exact hgo _ _
        · rw [hw]; exact h6

/-- An output rule leaves a timer of `TIMER_BITS` (R39). -/
theorem outDispatchView_timer (c : OutCtx) (v : OutView) (hv : v.port.timer < 2 ^ c.cfg.timerBits) :
    (outDispatchView c v).port.timer < 2 ^ c.cfg.timerBits := by
  have hr : ∀ {m : TimerMode} {body : OutCtx → OutView → OutView},
      (∀ w : OutView, (body c w).port.timer = w.port.timer ∨ (body c w).port.timer = 0) →
      (outRule m body c v).port.timer < 2 ^ c.cfg.timerBits := by
    intro m body h
    have ht : (v.tick m c).port.timer < 2 ^ c.cfg.timerBits := by
      cases m with
      | none => exact hv
      | dly => exact tickUp_lt _ _
      | deb =>
        rw [out_port_tick_deb]
        split
        · exact tickUp_lt _ _
        · exact Nat.two_pow_pos _
    rw [outRule, out_port_settle]
    split
    · rcases h (v.tick m c) with e | e
      · rw [e]; exact ht
      · rw [e]; exact Nat.two_pow_pos _
    · exact Nat.two_pow_pos _
  unfold outDispatchView
  cases outStateOf v.port.state with
  | none => exact hr fun w => .inr rfl
  | some st =>
    cases st
    · exact hr fun w => .inr rfl
    · exact hr fun w => by unfold outFloatingDelayBody; split <;> exact .inl rfl
    · exact hr fun w => by unfold outFloatingBody; simp only []; split <;> exact .inl rfl
    · exact hr fun w => by unfold outWaitPin6LowBody; split <;> exact .inl rfl
    · exact hr fun w => by unfold outConnectionBody; simp only []; split_ifs <;> exact .inl rfl
    · exact hr fun w => by unfold outWaitPin5LowBody; split <;> exact .inl rfl
    · exact hr fun w => by unfold outWaitPortOpenBody; split <;> exact .inl rfl

/-- An output step records the old state (R220). -/
theorem outStepView_oldState (c : OutCtx) (v : OutView) : (outStepView c v).port.oldState = v.port.state := by
  have hr : ∀ {m : TimerMode} {body : OutCtx → OutView → OutView} (u : OutView),
      (∀ w : OutView, (body c w).port.oldState = w.port.oldState) → (outRule m body c u).port.oldState = u.port.oldState := by
    intro m body u h
    rw [outRule, out_port_settle]
    have ht : (u.tick m c).port.oldState = u.port.oldState := by cases m <;> rfl
    split <;> exact (h _).trans ht
  unfold outStepView outDispatchView
  cases outStateOf v.port.state with
  | none => exact hr _ fun w => rfl
  | some st =>
    cases st
    · exact hr _ fun w => rfl
    · exact hr _ fun w => by unfold outFloatingDelayBody; split <;> rfl
    · exact hr _ fun w => by unfold outFloatingBody; simp only []; split <;> rfl
    · exact hr _ fun w => by unfold outWaitPin6LowBody; split <;> rfl
    · exact hr _ fun w => by unfold outConnectionBody; simp only []; split_ifs <;> rfl
    · exact hr _ fun w => by unfold outWaitPin5LowBody; split <;> rfl
    · exact hr _ fun w => by unfold outWaitPortOpenBody; split <;> rfl

end Sys2Proof.Machine
end

