-- ==== Sys2Proof/Laws/Runs.lean ====
section
/-! SUPPORT. Runs of DCM ticks under standing answers: no tick of the run lacks a pin-2 tree, and the run is, at each port,
the iteration of the port's own step. -/

namespace Sys2Proof.Machine

open Sys2Proof Config

/-- With pin-2 detection disabled no event word has the pin-2 bit (R150). -/
theorem evIn_pin2 {c : InCtx} (h : c.cfg.pin2Detect = false) : (evIn c).getLsbD 1 = false := by
  unfold evIn
  simp only [h, Bool.false_and, BitVec.getLsbD_or]
  generalize below c.x1.toNat tIn1Near5v = a
  generalize (!c.ans.pin5) = b
  generalize c.ans.pin6 = d
  cases a <;> cases b <;> cases d <;> decide

/-- `FLOATING` leaves the event word it reads (R152, R177). -/
theorem inFloating_event (c : InCtx) (v : InView) :
    (inRule .deb inFloatingBody c v).port.event = evIn c := by
  by_cases he : evIn c = v.port.event
  · have ht : (v.tick .deb c).port.event = evIn c := by rw [port_tick_deb, if_pos he]; exact he.symm
    rw [inRule, port_settle, inFloatingBody]
    split_ifs <;> exact ht
  · have ht : (v.tick .deb c).port = { v.port with event := evIn c, timer := 0 } := by
      rw [port_tick_deb, if_neg he]
    rw [inRule, port_settle, inFloatingBody, ht]
    split_ifs <;> simp [ht, InView.goto]

/-- A step of an enabled port that is not bound for `PIN2_LOW` leaves it so, where detection is disabled (R194). -/
theorem inStepView_noPin2 {c : InCtx} {v w : InView} (hd : c.cfg.pin2Detect = false)
    (hv : v.port.fsmEnabled = true → v.port.state ≠ 4#5 ∧ (v.port.state = 3#5 → v.port.event.getLsbD 1 = false))
    (h : inStepView c v = some w) (he : w.port.fsmEnabled = true) :
    w.port.state ≠ 4#5 ∧ (w.port.state = 3#5 → w.port.event.getLsbD 1 = false) := by
  have hve : v.port.fsmEnabled = true := by rw [← (inStepView_frame h).2.1]; exact he
  obtain ⟨-, hev⟩ := hv hve
  have hp : (fsmOverride { v.port with oldState := v.port.state }).event = v.port.event ∧
      ((fsmOverride { v.port with oldState := v.port.state }).state = 3#5 → v.port.state = 3#5) := by
    unfold fsmOverride
    split_ifs
    · exact ⟨rfl, fun e => nomatch e⟩
    · exact ⟨rfl, fun e => nomatch e⟩
    · exact ⟨rfl, id⟩
  unfold inStepView at h
  generalize hu : ({ v with port := fsmOverride { v.port with oldState := v.port.state } } : InView) = u at h
  have hue : u.port.event = v.port.event ∧ (u.port.state = 3#5 → v.port.state = 3#5) := by rw [← hu]; exact hp
  cases hx : inStateOf u.port.state with
  | none =>
    unfold inDispatchView at h
    rw [hx] at h
    cases h
    have : (inInitBody c (u.tick .none c)).port.state = 1#5 := rfl
    rw [inRule, port_settle]
    split <;> exact ⟨by rw [this]; decide, fun e => nomatch this.symm.trans e⟩
  | some x =>
    obtain ⟨hs, hp2, -, -, -, -, -⟩ := inDispatchView_facts hx h
    refine ⟨fun e => ?_, fun e => ?_⟩
    · rw [e] at hs
      have hc : x = .connection := by revert hs; cases x <;> decide
      have := hp2 hc e
      have h3 : u.port.state = 3#5 := by rw [code_of_inStateOf hx, hc]; rfl
      rw [hue.1, hev (hue.2 h3)] at this; cases this
    · rw [e] at hs
      have hc : x = .floating := by revert hs; cases x <;> decide
      rw [hc] at hx
      unfold inDispatchView at h
      rw [hx] at h
      cases h
      rw [inFloating_event]; exact evIn_pin2 hd

/-- A tick that never misses a tree is ready. -/
theorem TreeNeverMissed.ready {s : State} (h : TreeNeverMissed s) : TreeReady s :=
  h.imp id fun h i hi he => (h.2 i hi he).1

/-- `TreeNeverMissed` depends on the parameters and the input records only, and a port put in `INIT` keeps it. -/
theorem TreeNeverMissed.congr {s t : State} (h : TreeNeverMissed s) (hc : t.cfg = s.cfg)
    (hi : ∀ i < s.cfg.numIn, (t.inAt i).fsmEnabled = true →
      (t.inAt i).state = 0#5 ∨ t.inAt i = s.inAt i) : TreeNeverMissed t := by
  rcases h with h | ⟨hd, h⟩
  · exact .inl (by rw [hc]; exact h)
  · refine .inr ⟨by rw [hc]; exact hd, fun i hl he => ?_⟩
    rw [hc] at hl
    rcases hi i hl he with e | e
    · rw [e]; exact ⟨by decide, fun e => nomatch e⟩
    · rw [e] at he ⊢; exact h i hl he

/-- A DCM tick keeps `TreeNeverMissed`. -/
theorem TreeNeverMissed.tick {s t : State} (h : TreeNeverMissed s) (hc : t.cfg = s.cfg)
    (hin : ∀ i < s.cfg.numIn, ∃ v, inStepView (s.ctxIn i) (s.viewIn i) = some v ∧ t.inAt i = v.port ∧
      t.shInAt i = v.sh) : TreeNeverMissed t := by
  rcases h with h | ⟨hd, h⟩
  · exact .inl (by rw [hc]; exact h)
  · refine .inr ⟨by rw [hc]; exact hd, fun i hl he => ?_⟩
    rw [hc] at hl
    obtain ⟨v, hv, h1, -⟩ := hin i hl
    rw [h1] at he ⊢
    exact inStepView_noPin2 hd (h i hl) hv he

/-- A run of DCM ticks, seen at one input port: while every tick keeps `P n`, so does the run. -/
theorem ticksD_in (s : State) (i : Nat) (hl : i < s.cfg.numIn) (htree : TreeNeverMissed s)
    (P : Nat → InPort → InShared → Prop) (h0 : P 0 (s.inAt i) (s.shInAt i))
    (hs : ∀ n p sh v, P n p sh → inStepView (s.ctxIn i) { port := p, sh := sh, calls := [] } = some v →
      P (n + 1) v.port v.sh) (n : Nat) :
    ∃ t, ticksD n s = .next t ∧ t.cfg = s.cfg ∧ t.env = s.env ∧ TreeNeverMissed t ∧ (∀ x, t.bufAt x = s.bufAt x) ∧
      P n (t.inAt i) (t.shInAt i) := by
  induction n generalizing s P with
  | zero => exact ⟨s, rfl, rfl, rfl, htree, fun _ => rfl, h0⟩
  | succ n ih =>
    obtain ⟨u, hu, hc, he, -, -, hb, -, -, -, hin, -⟩ := execTickD_next s fun _ hk => inStepView_ne_none htree.ready hk
    obtain ⟨v, hv, h1, h2⟩ := hin i hl
    have hctx := ctxIn_eq hc he hb i
    obtain ⟨t, ht, hc', he', htr, hb', hP⟩ := ih u (by rw [hc]; exact hl) (htree.tick hc hin) (fun n => P (n + 1))
      (by rw [h1, h2]; exact hs 0 _ _ v h0 hv) (fun m p sh v hp hv => hs _ _ _ _ hp (by rwa [hctx] at hv))
    refine ⟨t, ?_, hc'.trans hc, he'.trans he, htr, fun x => (hb' x).trans (hb x), hP⟩
    simp only [ticksD, hu]; exact ht

/-- A run of DCM ticks, seen at one output port. -/
theorem ticksD_out (s : State) (j : Nat) (hl : j < s.cfg.numOut) (htree : TreeNeverMissed s)
    (P : Nat → OutPort → OutShared → Prop) (h0 : P 0 (s.outAt j) (s.shOutAt j))
    (hs : ∀ n p sh, P n p sh →
      P (n + 1) (outStepView (s.ctxOut j) { port := p, sh := sh, calls := [] }).port
        (outStepView (s.ctxOut j) { port := p, sh := sh, calls := [] }).sh) (n : Nat) :
    ∃ t, ticksD n s = .next t ∧ t.cfg = s.cfg ∧ t.env = s.env ∧ (∀ x, t.bufAt x = s.bufAt x) ∧
      P n (t.outAt j) (t.shOutAt j) := by
  induction n generalizing s P with
  | zero => exact ⟨s, rfl, rfl, rfl, fun _ => rfl, h0⟩
  | succ n ih =>
    obtain ⟨u, hu, hc, he, -, -, hb, -, -, -, hin, hon⟩ := execTickD_next s fun _ hk => inStepView_ne_none htree.ready hk
    obtain ⟨h1, h2⟩ := hon j hl
    have hctx := ctxOut_eq hc he hb j
    obtain ⟨t, ht, hc', he', hb', hP⟩ := ih u (by rw [hc]; exact hl) (htree.tick hc hin) (fun n => P (n + 1))
      (by rw [h1, h2]; exact hs 0 _ _ h0) (fun m p sh hp => by rw [hctx]; exact hs _ _ _ hp)
    refine ⟨t, ?_, hc'.trans hc, he'.trans he, fun x => (hb' x).trans (hb x), hP⟩
    simp only [ticksD, hu]; exact ht

end Sys2Proof.Machine
end

