-- ==== Sys2Proof/Laws/Sampler.lean ====
section
/-! SUPPORT. Everything a sampler tick does, part by part: the store, the auxiliary clocking, the publication, the
advance (R110 to R119). -/

namespace Sys2Proof.Machine

open Sys2Proof Config

/-! ## The store (R112, R114) -/

@[simp] theorem sampleStore_cfg (e : ScheduleEntry) (r : Cell16) (s : State) : (sampleStore e r s).cfg = s.cfg := by
  unfold sampleStore; cases e.dest <;> rfl
@[simp] theorem sampleStore_samp (e : ScheduleEntry) (r : Cell16) (s : State) : (sampleStore e r s).samp = s.samp := by
  unfold sampleStore; cases e.dest <;> rfl
@[simp] theorem sampleStore_env (e : ScheduleEntry) (r : Cell16) (s : State) : (sampleStore e r s).env = s.env := by
  unfold sampleStore; cases e.dest <;> rfl
@[simp] theorem sampleStore_pending (e : ScheduleEntry) (r : Cell16) (s : State) :
    (sampleStore e r s).pending = s.pending := by
  unfold sampleStore; cases e.dest <;> rfl
@[simp] theorem sampleStore_calls (e : ScheduleEntry) (r : Cell16) (s : State) :
    (sampleStore e r s).calls = s.calls ++ [.spiExchange (s.cfg.adcCmdBase ||| e.chan)] := by
  unfold sampleStore; cases e.dest <;> rfl
@[simp] theorem sampleStore_inAt (e : ScheduleEntry) (r : Cell16) (s : State) (i : Nat) :
    (sampleStore e r s).inAt i = s.inAt i := by
  unfold sampleStore; cases e.dest <;> rfl
@[simp] theorem sampleStore_outAt (e : ScheduleEntry) (r : Cell16) (s : State) (j : Nat) :
    (sampleStore e r s).outAt j = s.outAt j := by
  unfold sampleStore; cases e.dest <;> rfl
@[simp] theorem sampleStore_shInAt (e : ScheduleEntry) (r : Cell16) (s : State) (i : Nat) :
    (sampleStore e r s).shInAt i = s.shInAt i := by
  unfold sampleStore; cases e.dest <;> rfl
@[simp] theorem sampleStore_shOutAt (e : ScheduleEntry) (r : Cell16) (s : State) (j : Nat) :
    (sampleStore e r s).shOutAt j = s.shOutAt j := by
  unfold sampleStore; cases e.dest <;> rfl

/-- Masking to 12 bits and extending again clears bits 15 to 12 (R114). -/
theorem zext16_sample12 (r : Cell16) : zext16 (sample12 r) = r &&& 0x0FFF := by
  apply BitVec.eq_of_toNat_eq
  have : r.toNat &&& 4095 = r.toNat % 4096 := Nat.and_two_pow_sub_one_eq_mod r.toNat 12
  simp only [zext16, sample12, BitVec.toNat_setWidth, BitVec.toNat_and]
  show r.toNat % 4096 % 65536 = r.toNat &&& 4095
  omega

@[simp] theorem sampleStore_bufAt (e : ScheduleEntry) (r : Cell16) (s : State) (x : Slot) :
    (sampleStore e r s).bufAt x = if e.dest = some x then r &&& 0x0FFF else s.bufAt x := by
  unfold sampleStore
  cases h : e.dest with
  | none => simp
  | some y => by_cases hx : y = x <;> simp [hx, zext16_sample12, eq_comm]

/-! ## The auxiliary clocking (R115) -/

/-- The calls of one port's clocking. -/
def clockCalls (e : ScheduleEntry) (i : Nat) (p : InPort) : List OracleCall :=
  if p.colorActive then
    (match e.clkA with | .drive d => [OracleCall.drive (.inp i .auxA) d] | .keep => []) ++
      (match e.clkB with | .drive d => [OracleCall.drive (.inp i .auxB) d] | .keep => [])
  else []

/-- One port's drive cells after its clocking. -/
def clockDrives (e : ScheduleEntry) (cfg : Params) (p : InPort) : Drives :=
  if p.colorActive then
    let d := match e.clkA with | .drive l => p.drv.write cfg.auxPinA l | .keep => p.drv
    match e.clkB with | .drive l => d.write cfg.auxPinB l | .keep => d
  else p.drv

/-- What one port's clocking makes of its view. -/
theorem clockView_eq (e : ScheduleEntry) (c : InCtx) (v : InView) :
    clockView e c v =
      ⟨{ v.port with drv := clockDrives e c.cfg v.port }, v.sh, v.calls ++ clockCalls e c.idx v.port⟩ := by
  unfold clockView clockDrives clockCalls
  cases v.port.colorActive with
  | false => simp
  | true => cases e.clkA <;> cases e.clkB <;> simp [InView.flag, InView.drive, cellOf]

/-- The whole clocking, port by port. -/
theorem auxClock_eq (e : ScheduleEntry) (s : State) :
    let t := auxClock e s
    t.cfg = s.cfg ∧ t.samp = s.samp ∧ t.env = s.env ∧ t.pending = s.pending ∧ t.buf = s.buf ∧ t.out = s.out ∧
      t.shOut = s.shOut ∧
      t.calls = s.calls ++ (if s.samp.sel = .short then []
        else (List.range s.cfg.numIn).flatMap fun i => clockCalls e i (s.inAt i)) ∧
      (∀ i, t.inAt i = if s.samp.sel = .long ∧ i < s.cfg.numIn then
        { s.inAt i with drv := clockDrives e s.cfg (s.inAt i) } else s.inAt i) ∧
      (∀ i, t.shInAt i = s.shInAt i) := by
  unfold auxClock
  cases hsel : s.samp.sel with
  | short => simp
  | long =>
    obtain ⟨hc, hs, he, hp, hb, ho, hso, hk, hi, hsi⟩ := foldl_runIn (fun _ => clockView e) s.cfg.numIn s
    refine ⟨hc, hs.trans rfl, he, hp, hb, ho, hso, ?_, fun i => ?_, fun i => ?_⟩
    · refine hk.trans ?_
      simp [clockView_eq]
    · refine (hi i).trans ?_
      simp [clockView_eq]
    · refine (hsi i).trans ?_
      simp [clockView_eq]

/-! ## The publication (R117, R118) -/

/-- Setting the update flags of some output ports. -/
theorem foldl_publishOut (l : List Nat) (s : State) :
    let t := l.foldl publishOut s
    t.cfg = s.cfg ∧ t.samp = s.samp ∧ t.env = s.env ∧ t.pending = s.pending ∧ t.buf = s.buf ∧ t.inp = s.inp ∧
      t.out = s.out ∧ t.shIn = s.shIn ∧ t.calls = s.calls ∧
      (∀ j, t.shOutAt j = if j ∈ l then { s.shOutAt j with upd := true } else s.shOutAt j) := by
  induction l generalizing s with
  | nil => simp
  | cons a l ih =>
    obtain ⟨h1, h2, h3, h4, h5, h6, h7, h8, h9, h10⟩ := ih (publishOut s a)
    refine ⟨h1, h2, h3, h4, h5, h6, h7, h8, h9, fun j => ?_⟩
    rw [List.foldl_cons, h10 j]
    by_cases h : j = a <;> by_cases h' : j ∈ l <;> simp [publishOut, h, h']

/-- The end of a cycle (R117, R118). -/
theorem endOfCycle_eq (s : State) :
    let t := endOfCycle s
    t.cfg = s.cfg ∧ t.env = s.env ∧ t.pending = s.pending ∧ t.buf = s.buf ∧ t.out = s.out ∧ t.calls = s.calls ∧
      t.samp = { sel := if anyColorActive s then .long else .short, ptr := 0 } ∧
      (∀ i, t.inAt i = if i < s.cfg.numIn then { s.inAt i with
          ring := (s.inAt i).ring.set (s.inAt i).ringIdx (ringEntry s i)
          ringIdx := ((s.inAt i).ringIdx + 1) % s.cfg.ringDepth } else s.inAt i) ∧
      (∀ i, t.shInAt i = if i < s.cfg.numIn then { s.shInAt i with upd := true } else s.shInAt i) ∧
      (∀ j, t.shOutAt j = if j < s.cfg.numOut then { s.shOutAt j with upd := true } else s.shOutAt j) := by
  have hg : ∀ (l : List Nat) (u : State), u.buf = s.buf →
      l.foldl (fun s i => s.runIn i (publishView (ringEntry s i))) u =
        l.foldl (fun s' i => s'.runIn i (publishView (ringEntry s i))) u := by
    intro l
    induction l with
    | nil => intro u _; rfl
    | cons a l ih =>
      intro u hu
      have : ringEntry u a = ringEntry s a := by simp only [ringEntry, State.bufAt, hu]
      rw [List.foldl_cons, List.foldl_cons, this]
      exact ih _ hu
  obtain ⟨hc, hs, he, hp, hb, ho, hso, hk, hi, hsi⟩ := foldl_runIn (fun i => publishView (ringEntry s i)) s.cfg.numIn
    (s.setSamp { sel := if anyColorActive s then .long else .short, ptr := 0 })
  unfold endOfCycle
  simp only []
  rw [hg (List.range s.cfg.numIn) (s.setSamp { sel := if anyColorActive s then .long else .short, ptr := 0 }) rfl]
  obtain ⟨h1, h2, h3, h4, h5, h6, h7, h8, h9, h10⟩ := foldl_publishOut (List.range s.cfg.numOut) _
  refine ⟨h1.trans hc, h3.trans he, h4.trans hp, h5.trans hb, h7.trans ho, h9.trans ?_, h2.trans hs, fun i => ?_,
    fun i => ?_, fun j => ?_⟩
  · rw [hk]; simp [publishView]
  · simp only [State.inAt, h6]
    exact hi i
  · simp only [State.shInAt, h8]
    exact hsi i
  · rw [h10 j]
    simp only [List.mem_range, State.shOutAt, hso]
    rfl

/-- The colour-active test as a proposition (R117). -/
theorem anyColorActive_iff (s : State) : anyColorActive s = true ↔ ∃ i < s.cfg.numIn, (s.inAt i).colorActive = true := by
  simp [anyColorActive]

/-! ## The whole tick -/

/-- An input port after a tick: its drives clocked and, at the end of a cycle, its ring pushed. -/
def samplerPort (e : ScheduleEntry) (r : Cell16) (s : State) (i : Nat) : InPort :=
  let p : InPort := if s.samp.sel = .long ∧ i < s.cfg.numIn then
    { s.inAt i with drv := clockDrives e s.cfg (s.inAt i) } else s.inAt i
  if s.samp.ptr + 1 = s.table.entries.length ∧ i < s.cfg.numIn then
    { p with
      ring := p.ring.set p.ringIdx (ringEntry (sampleStore e r s) i), ringIdx := (p.ringIdx + 1) % s.cfg.ringDepth }
  else p

/-- Everything a sampler tick on the entry `e` does (R110 to R119). -/
theorem samplerTick_eq (e : ScheduleEntry) (r : Cell16) (s : State) :
    let t := samplerTick e r s
    t.cfg = s.cfg ∧ t.env = s.env ∧ t.pending = s.pending ∧
      (∀ x, t.bufAt x = if e.dest = some x then r &&& 0x0FFF else s.bufAt x) ∧ (∀ j, t.outAt j = s.outAt j) ∧
      t.calls = s.calls ++ [.spiExchange (s.cfg.adcCmdBase ||| e.chan)] ++ (if s.samp.sel = .short then []
        else (List.range s.cfg.numIn).flatMap fun i => clockCalls e i (s.inAt i)) ∧
      t.samp = (if s.samp.ptr + 1 = s.table.entries.length then
        { sel := if anyColorActive s then .long else .short, ptr := 0 }
        else { sel := s.samp.sel, ptr := s.samp.ptr + 1 }) ∧
      (∀ i, t.inAt i = samplerPort e r s i) ∧
      (∀ i, t.shInAt i =
        if s.samp.ptr + 1 = s.table.entries.length ∧ i < s.cfg.numIn then { s.shInAt i with upd := true }
        else s.shInAt i) ∧
      (∀ j, t.shOutAt j =
        if s.samp.ptr + 1 = s.table.entries.length ∧ j < s.cfg.numOut then { s.shOutAt j with upd := true }
        else s.shOutAt j) := by
  obtain ⟨hc, hs, he, hp, hb, ho, hso, hk, hi, hsi⟩ := auxClock_eq e (sampleStore e r s)
  simp only [sampleStore_cfg, sampleStore_samp, sampleStore_env, sampleStore_pending, sampleStore_calls,
    sampleStore_inAt, sampleStore_shInAt] at hc hs he hp hk hi hsi
  have hbuf : ∀ x, (auxClock e (sampleStore e r s)).bufAt x = if e.dest = some x then r &&& 0x0FFF else s.bufAt x := by
    intro x
    rw [← sampleStore_bufAt]
    simp only [State.bufAt, hb]
  have hout : ∀ j, (auxClock e (sampleStore e r s)).outAt j = s.outAt j := by
    intro j
    rw [← sampleStore_outAt e r s j]
    simp only [State.outAt, ho]
  have hshout : ∀ j, (auxClock e (sampleStore e r s)).shOutAt j = s.shOutAt j := by
    intro j
    rw [← sampleStore_shOutAt e r s j]
    simp only [State.shOutAt, hso]
  unfold samplerTick advance
  simp only [samp_setSamp, hs]
  by_cases hend : s.samp.ptr + 1 = s.table.entries.length
  · obtain ⟨ec, ee, ep, eb, eo, ek, es, ei, esi, eso⟩ :=
      endOfCycle_eq ((auxClock e (sampleStore e r s)).setSamp { sel := s.samp.sel, ptr := s.table.entries.length })
    simp only [cfg_setSamp, hc, inAt_setSamp, shInAt_setSamp, shOutAt_setSamp] at ei esi eso
    simp only [hend, if_true, true_and]
    refine ⟨ec.trans hc, ee.trans he, ep.trans hp, fun x => ?_, fun j => ?_, ek.trans hk, ?_, fun i => ?_, fun i => ?_,
      fun j => ?_⟩
    · rw [← hbuf x]; simp only [State.bufAt, eb]; rfl
    · rw [← hout j]; simp only [State.outAt, eo]; rfl
    · rw [es]
      congr 1
      have : anyColorActive ((auxClock e (sampleStore e r s)).setSamp
          { sel := s.samp.sel, ptr := s.table.entries.length }) = anyColorActive s := by
        unfold anyColorActive
        rw [cfg_setSamp, hc]
        congr 1
        funext i
        rw [inAt_setSamp, hi i]
        split <;> rfl
      rw [this]
    · have hr : ringEntry ((auxClock e (sampleStore e r s)).setSamp
          { sel := s.samp.sel, ptr := s.table.entries.length }) i = ringEntry (sampleStore e r s) i := by
        simp only [ringEntry, bufAt_setSamp, hbuf, sampleStore_bufAt]
      rw [ei i, hi i, hr]
      simp only [samplerPort, hend, true_and]
    · rw [esi i, hsi i]
    · rw [eso j, hshout j]
  · simp only [hend, if_false, false_and]
    refine ⟨hc, he, hp, hbuf, hout, hk, rfl, fun i => ?_, hsi, hshout⟩
    rw [inAt_setSamp, hi i]
    simp only [samplerPort, hend, if_false, false_and]

end Sys2Proof.Machine
end

