-- ==== Sys2Proof/Laws/Step.lean ====
section
/-! SUPPORT. The step: which rows a request comes to, and how a property of states is carried through a step. -/

namespace Sys2Proof.Machine

open Sys2Proof Config

/-- A bare byte's row has the bare-byte format (R85). -/
theorem decodeBareByte_format (q : Platform) (i : Nat) (b : Byte) :
    (encode q (decodeBareByte i b)).format = .bareByte := by
  unfold decodeBareByte; split_ifs <;> rfl

/-- The formats that requests come to. -/
abbrev Requested (i : Instr) : Prop :=
  ∀ q : Platform, (encode q i).format ∈ [Format.strobe, .hostWrite, .bareByte, .hostStore]

/-- A control write comes to rows of the host-write and bare-byte formats (R81). -/
theorem decodeWrite_format (p : Platform) (bs : List Byte) : ∀ i ∈ decodeWrite p bs, Requested i := by
  intro i hi q
  unfold decodeWrite at hi
  cases bs with
  | nil => simp [decodeHostWrite] at hi
  | cons b rest =>
    have hbare : ∀ i ∈ bareInstrs p (b :: rest), (encode q i).format = .bareByte := by
      intro i hi
      obtain ⟨k, -, hk⟩ := List.mem_filterMap.1 hi
      obtain ⟨c, -, rfl⟩ := Option.map_eq_some_iff.1 hk
      exact decodeBareByte_format _ _ _
    unfold decodeHostWrite at hi
    by_cases h1 : b = 0x65
    · by_cases h2 : rest.length = p.numIn
      · simp only [h1, h2, if_true, List.mem_singleton] at hi
        subst hi; simp [encode, Encoding.format]
      · simp [h1, h2] at hi
    · by_cases h3 : b = 0x74
      · by_cases h2 : rest.length = p.numIn
        · have : (0x74 : Byte) ≠ 0x65 := by decide
          simp only [h3, h2, this, if_true, if_false, List.mem_singleton] at hi
          subst hi; simp [encode, Encoding.format]
        · simp [h3, h2] at hi
      · simp only [h1, h3, if_false] at hi
        simp [hbare i hi]

/-- A host store that is an operation is the clear of an update flag (R268). -/
theorem decodeStore_ok {p : Platform} {f : HostField} {v : Nat} {i : Instr} (h : decodeStore p f v = .ok i) :
    (∃ k, i = .clrupdIn k) ∨ ∃ k, i = .clrupdOut k := by
  unfold decodeStore at h
  split at h
  · split at h <;> cases h; exact .inl ⟨_, rfl⟩
  · split at h <;> cases h; exact .inr ⟨_, rfl⟩
  · cases h

/-- No request comes to a state row or an `'e'` character row of its own: those are run by `TICK_D` and `WRITE_E`. -/
theorem decodeRequest_format {p : Platform} {r : Request} {is : List Instr} (h : decodeRequest p r = .operations is) :
    ∀ i ∈ is, Requested i := by
  intro i hi q
  cases r with
  | strobe v spi =>
    have hv : ∀ v : BitVec 2, v = 0 ∨ v = 1 ∨ v = 2 ∨ v = 3 := by decide
    rcases hv v with rfl | rfl | rfl | rfl <;> cases h
    · cases hi
    · rw [List.mem_singleton] at hi; subst hi; simp [encode, Encoding.format]
    · rw [List.mem_singleton] at hi; subst hi; simp [encode, Encoding.format]
    · rcases List.mem_cons.1 hi with e | e
      · subst e; simp [encode, Encoding.format]
      · rw [List.mem_singleton] at e; subst e; simp [encode, Encoding.format]
  | write bs => cases h; exact decodeWrite_format p bs i hi q
  | store f v =>
    simp only [decodeRequest] at h
    cases hs : decodeStore p f v with
    | error r => rw [hs] at h; cases h
    | ok k =>
      rw [hs] at h; cases h
      rw [List.mem_singleton] at hi; subst hi
      rcases decodeStore_ok hs with ⟨m, rfl⟩ | ⟨m, rfl⟩ <;> simp [encode, Encoding.format]
  | ioctl n => cases h

/-- A sampler tick that answers a next state found its entry. -/
theorem tickS_next {r : Cell16} {s t : State} (h : exec (.tickS r) s = .next t) :
    ∃ e, s.table.entries[s.samp.ptr]? = some e ∧ t = samplerTick e r s := by
  have h' : execTickS r s = .next t := h
  unfold execTickS at h'
  cases he : s.table.entries[s.samp.ptr]? with
  | none => rw [he] at h'; cases h'
  | some e => rw [he] at h'; cases h'; exact ⟨e, rfl, rfl⟩

/-- A DCM tick that answers a next state stepped every port. -/
theorem tickD_next {s t : State} (h : exec .tickD s = .next t) :
    t.cfg = s.cfg ∧ t.env = s.env ∧ t.pending = s.pending ∧ t.samp = s.samp ∧ (∀ x, t.bufAt x = s.bufAt x) ∧
      t.calls = s.calls ++ (List.range s.cfg.numIn).flatMap (inStepCalls s) ++
        (List.range s.cfg.numOut).flatMap (outStepCalls s) ∧
      (∀ i, s.cfg.numIn ≤ i → t.inAt i = s.inAt i ∧ t.shInAt i = s.shInAt i) ∧
      (∀ j, s.cfg.numOut ≤ j → t.outAt j = s.outAt j ∧ t.shOutAt j = s.shOutAt j) ∧
      (∀ i < s.cfg.numIn, ∃ v, inStepView (s.ctxIn i) (s.viewIn i) = some v ∧ t.inAt i = v.port ∧ t.shInAt i = v.sh) ∧
      (∀ j < s.cfg.numOut, t.outAt j = (outStepView (s.ctxOut j) (s.viewOut j)).port ∧
        t.shOutAt j = (outStepView (s.ctxOut j) (s.viewOut j)).sh) := by
  by_cases hn : ∃ i < s.cfg.numIn, inStepView (s.ctxIn i) (s.viewIn i) = none
  · obtain ⟨i, hl, hi⟩ := hn
    rw [execTickD_refused s i hl hi] at h; cases h
  · obtain ⟨u, hu, rest⟩ := execTickD_next s fun i hl hi => hn ⟨i, hl, hi⟩
    rw [hu] at h; cases h; exact rest

/-- What taking a request keeps and every row a request comes to keeps, a step keeps. -/
theorem step_induct {P : State → Prop}
    (ha : ∀ s a rest, P s → s.pending = a :: rest → P (s.accept a rest))
    (he : ∀ i s t, Requested i → P s → exec i s = .next t → P t)
    {s t : State} (hs : P s) (h : step s = .next t) : P t := by
  unfold step at h
  cases hp : s.pending with
  | nil => rw [hp] at h; cases h; exact hs
  | cons a rest =>
    rw [hp] at h
    cases hd : decodeRequest s.cfg.toPlatform a.request with
    | rejected r => simp only [hd] at h; cases h
    | operations is =>
      simp only [hd] at h
      exact forEach_induct (fun i hi s t => he i s t (decodeRequest_format hd i hi)) (ha s a rest hs hp) h

end Sys2Proof.Machine
end

