-- ==== Sys2Proof/Laws/Shape.lean ====
section
/-! SUPPORT. Every operation and every row that a request comes to keeps the lists of ports at one place for each port
(log 12). -/

namespace Sys2Proof.Machine

open Sys2Proof Config

/-- A port of the block has a place. -/
theorem Shaped.setIn {s : State} (h : Shaped s) {i : Nat} (hi : i < s.cfg.numIn) (p : InPort) : Shaped (s.setIn i p) :=
  ⟨(length_putPort (h.inp ▸ hi) p).trans h.inp, h.out, h.shIn, h.shOut, h.inPin1, h.inPin6, h.outPin5⟩

theorem Shaped.setOut {s : State} (h : Shaped s) {j : Nat} (hj : j < s.cfg.numOut) (p : OutPort) : Shaped (s.setOut j p) :=
  ⟨h.inp, (length_putPort (h.out ▸ hj) p).trans h.out, h.shIn, h.shOut, h.inPin1, h.inPin6, h.outPin5⟩

theorem Shaped.setShIn {s : State} (h : Shaped s) {i : Nat} (hi : i < s.cfg.numIn) (p : InShared) :
    Shaped (s.setShIn i p) :=
  ⟨h.inp, h.out, (length_putPort (h.shIn ▸ hi) p).trans h.shIn, h.shOut, h.inPin1, h.inPin6, h.outPin5⟩

theorem Shaped.setShOut {s : State} (h : Shaped s) {j : Nat} (hj : j < s.cfg.numOut) (p : OutShared) :
    Shaped (s.setShOut j p) :=
  ⟨h.inp, h.out, h.shIn, (length_putPort (h.shOut ▸ hj) p).trans h.shOut, h.inPin1, h.inPin6, h.outPin5⟩

/-- The same for the slots of the block. -/
theorem Shaped.setBuf {s : State} (h : Shaped s) {x : Slot} (hx : x.exists s.cfg.toPlatform = true) (v : Cell16) :
    Shaped (s.setBuf x v) := by
  cases x with
  | inPin1 i =>
    exact ⟨h.inp, h.out, h.shIn, h.shOut, (length_putPort (h.inPin1 ▸ of_decide_eq_true hx) v).trans h.inPin1, h.inPin6,
      h.outPin5⟩
  | inPin6 i =>
    exact ⟨h.inp, h.out, h.shIn, h.shOut, h.inPin1, (length_putPort (h.inPin6 ▸ of_decide_eq_true hx) v).trans h.inPin6,
      h.outPin5⟩
  | outPin5 j =>
    exact ⟨h.inp, h.out, h.shIn, h.shOut, h.inPin1, h.inPin6,
      (length_putPort (h.outPin5 ▸ of_decide_eq_true hx) v).trans h.outPin5⟩
  | rail k => exact ⟨h.inp, h.out, h.shIn, h.shOut, h.inPin1, h.inPin6, h.outPin5⟩

theorem Shaped.putIn {s : State} (h : Shaped s) {i : Nat} (hi : i < s.cfg.numIn) (v : InView) : Shaped (s.putIn i v) :=
  have h' := (h.setIn hi v.port).setShIn hi v.sh
  ⟨h'.inp, h'.out, h'.shIn, h'.shOut, h'.inPin1, h'.inPin6, h'.outPin5⟩

theorem Shaped.putOut {s : State} (h : Shaped s) {j : Nat} (hj : j < s.cfg.numOut) (v : OutView) : Shaped (s.putOut j v) :=
  have h' := (h.setOut hj v.port).setShOut hj v.sh
  ⟨h'.inp, h'.out, h'.shIn, h'.shOut, h'.inPin1, h'.inPin6, h'.outPin5⟩

/-- What runs on a view of each port keeps the lists. -/
theorem Shaped.foldl_runIn {s : State} (h : Shaped s) (f : State → Nat → InCtx → InView → InView) (n : Nat)
    (hn : n ≤ s.cfg.numIn) :
    Shaped ((List.range n).foldl (fun s i => s.runIn i (f s i)) s) ∧
      ((List.range n).foldl (fun s i => s.runIn i (f s i)) s).cfg = s.cfg := by
  induction n with
  | zero => exact ⟨h, rfl⟩
  | succ n ih =>
    obtain ⟨h1, h2⟩ := ih (Nat.le_of_succ_le hn)
    rw [List.range_succ, List.foldl_append]
    exact ⟨h1.putIn (by rw [h2]; omega) _, h2⟩

theorem Shaped.foldl_publishOut {s : State} (h : Shaped s) (n : Nat) (hn : n ≤ s.cfg.numOut) :
    Shaped ((List.range n).foldl publishOut s) ∧ ((List.range n).foldl publishOut s).cfg = s.cfg := by
  induction n with
  | zero => exact ⟨h, rfl⟩
  | succ n ih =>
    obtain ⟨h1, h2⟩ := ih (Nat.le_of_succ_le hn)
    rw [List.range_succ, List.foldl_append]
    exact ⟨h1.setShOut (by rw [h2]; omega) _, h2⟩

/-- A destination of the active table of a launched block is a slot of the block (R121). -/
theorem dest_exists {s : State} (hc : s.cfg.wellFormed = true) {e : ScheduleEntry} (he : e ∈ s.table.entries) {x : Slot}
    (hx : e.dest = some x) : x.exists s.cfg.toPlatform = true := by
  simp only [Params.wellFormed, Params.tablesWellFormed, Bool.and_eq_true, Schedule.aims, List.all_eq_true] at hc
  have : Option.all (fun x => x.exists s.cfg.toPlatform) e.dest = true := by
    unfold State.table at he
    cases hs : s.samp.sel with
    | short => rw [hs] at he; exact hc.1.1.2.1 e he
    | long => rw [hs] at he; exact hc.1.1.2.2 e he
  rwa [hx] at this

/-- A sampler tick keeps the lists. -/
theorem Shaped.samplerTick {s : State} (h : Shaped s) {e : ScheduleEntry}
    (hx : ∀ x, e.dest = some x → x.exists s.cfg.toPlatform = true) (r : Cell16) : Shaped (samplerTick e r s) := by
  have h1 : Shaped (sampleStore e r s) ∧ (sampleStore e r s).cfg = s.cfg := by
    have h0 : Shaped (s.addCalls [.spiExchange (s.cfg.adcCmdBase ||| e.chan)]) :=
      ⟨h.inp, h.out, h.shIn, h.shOut, h.inPin1, h.inPin6, h.outPin5⟩
    unfold sampleStore
    cases hd : e.dest with
    | none => exact ⟨h0, rfl⟩
    | some x => exact ⟨h0.setBuf (hx x hd) _, rfl⟩
  have h2 : ∀ u : State, Shaped u → u.cfg = s.cfg → Shaped (auxClock e u) ∧ (auxClock e u).cfg = s.cfg := by
    intro u hu hc
    unfold auxClock
    cases u.samp.sel with
    | short => exact ⟨hu, hc⟩
    | long =>
      obtain ⟨a, b⟩ := hu.foldl_runIn (fun _ _ => clockView e) u.cfg.numIn le_rfl
      exact ⟨a, b.trans hc⟩
  have h3 : ∀ u : State, Shaped u → Shaped (endOfCycle u) := by
    intro u hu
    have h0 : Shaped (u.setSamp { sel := if anyColorActive u then .long else .short, ptr := 0 }) :=
      ⟨hu.inp, hu.out, hu.shIn, hu.shOut, hu.inPin1, hu.inPin6, hu.outPin5⟩
    obtain ⟨a, b⟩ := h0.foldl_runIn (fun s i => publishView (ringEntry s i)) u.cfg.numIn le_rfl
    exact (a.foldl_publishOut u.cfg.numOut (by rw [b]; exact le_rfl)).1
  obtain ⟨a, b⟩ := h2 _ h1.1 h1.2
  have h4 : ∀ p, Shaped ((auxClock e (sampleStore e r s)).setSamp p) := fun p =>
    ⟨a.inp, a.out, a.shIn, a.shOut, a.inPin1, a.inPin6, a.outPin5⟩
  unfold Machine.samplerTick advance
  simp only []
  split
  · exact h3 _ (h4 _)
  · exact h4 _

/-- A DCM tick keeps the lists. -/
theorem Shaped.tickD {s t : State} (h : Shaped s) (ht : exec .tickD s = .next t) : Shaped t := by
  obtain ⟨u, hu, ht⟩ := andThen_eq_next ht
  have h1 : Shaped u ∧ u.cfg = s.cfg := by
    refine forEach_induct (P := fun v => Shaped v ∧ v.cfg = s.cfg) (fun i hi v w hv hw => ?_) ⟨h, rfl⟩ hu
    rw [stepIn_eq i v (by rw [hv.2]; exact List.mem_range.1 hi)] at hw
    cases hx : inStepView (v.ctxIn i) (v.viewIn i) with
    | none => rw [hx] at hw; cases hw
    | some x =>
      rw [hx] at hw; cases hw
      exact ⟨hv.1.putIn (by rw [hv.2]; exact List.mem_range.1 hi) _, hv.2⟩
  refine (forEach_induct (P := fun v => Shaped v ∧ v.cfg = s.cfg) (fun j hj v w hv hw => ?_) h1 ht).1
  rw [stepOut_eq j v (by rw [hv.2]; exact List.mem_range.1 hj)] at hw
  cases hw
  exact ⟨hv.1.putOut (by rw [hv.2]; exact List.mem_range.1 hj) _, hv.2⟩

/-- Every row that a request comes to keeps the lists. -/
theorem Shaped.exec {s t : State} (h : Shaped s) (hc : s.cfg.wellFormed = true) {ins : Instr} (hr : Requested ins)
    (ht : Machine.exec ins s = .next t) : Shaped t := by
  have hbare : ∀ {b i}, bareColor b i s = .next t → Shaped t := by
    intro b i ht
    obtain ⟨hi, ht⟩ := onIn_eq_next ht
    cases ht; split
    · exact h
    · exact h.putIn hi _
  have hp := hr Platform.standard
  cases ins <;> try (simp [encode, Encoding.format] at hp; done)
  case tickS r =>
    obtain ⟨e, he, rfl⟩ := tickS_next ht
    exact h.samplerTick (fun x hx => dest_exists hc (List.mem_of_getElem? he) hx) r
  case tickD => exact h.tickD ht
  case writeE cs =>
    cases ht; split
    · exact (h.foldl_runIn (fun _ i => eCharView (cs.getD i 0x2D)) _ le_rfl).1
    · exact h
  case writeT ks =>
    cases ht; split
    · exact (h.foldl_runIn (fun _ i => forceView (ks.getD i 0)) _ le_rfl).1
    · exact h
  case bareColor0D => exact hbare ht
  case bareColor0E => exact hbare ht
  case bareColor0F => exact hbare ht
  case bareColor10 => exact hbare ht
  case bareColor11 => exact hbare ht
  case bareRawpin i b =>
    obtain ⟨hi, ht⟩ := onIn_eq_next ht
    split at ht
    · cases ht; exact h
    · split at ht
      · cases ht; exact h.putIn hi _
      · cases ht
  case clrupdIn i => obtain ⟨hi, ht⟩ := onIn_eq_next ht; cases ht; exact h.setShIn hi _
  case clrupdOut j => obtain ⟨hj, ht⟩ := onOut_eq_next ht; cases ht; exact h.setShOut hj _

end Sys2Proof.Machine
end

