-- ==== Sys2Proof/Tests/Slice0.lean ====
section
/-! SUPPORT. The model's own tests. Expected results are the tables and vectors of spec/30_encoding.md and
spec/95_test_vectors.md, named in each docstring; after them, one witness for the hypotheses of each statement. -/

namespace Sys2Proof.Tests

open Sys2Proof Sys2Proof.Config Sys2Proof.Machine

/-! ## Helpers: an empty block (95_test_vectors.md, section 0) and small changes to it -/

/-- The values of R7. -/
abbrev std : Platform := Platform.standard

/-- The decoder under the values of R7. -/
abbrev dec (e : Encoding) : Except Reject Instr := decode std e

/-- Parameters a launch accepts, with values for the OPEN ones that the vectors use. -/
def prm : Params :=
  { Config.leastParams with
    adcCmdBase := 0x1800
    ringDepth := 4
    colorInitCmd := 0x42
    colorResultLen := 2
    rawpinDecode := some { rows := [[], [], [(.pin1, .drive .high), (.pin5, .keep), (.auxB, .drive .low)]] }
    pin2Tree := some
      { neither := ⟨[(300, .sound), (600, .touchCandidate)], .iic⟩
        only5 := ⟨[], .color⟩
        only6 := ⟨[], .light⟩
        both := ⟨[], .test⟩ } }

/-- The illustrative tables of 95_test_vectors.md 2.5 (too short for R121). -/
def prmShort : Params :=
  { prm with
    schedShort := ⟨⟨0x0000, some (.inPin1 0), .keep, .keep⟩, [⟨0x0080, none, .keep, .keep⟩]⟩
    schedLong := ⟨⟨0x0010, some (.inPin6 4), .drive .high, .keep⟩, []⟩ }

/-- Draws that make every port empty. -/
def draws : ResetDraws where
  sample := fun
    | .inPin1 _ => 4095
    | .inPin6 _ => 0
    | .outPin5 _ => 2047
    | .rail _ => 0
  ring := fun _ _ => ⟨0, 0⟩
  colorRes := fun _ _ => 0
  envIn := fun _ => { pin2 := true, pin5 := true, pin6 := false, ready := false, result := [] }
  envOut := fun _ => { pin6 := true }
  envResult := fun _ _ => 0x55

/-- The empty block after reset. -/
def base : State := State.resetWith prm draws

/-- The record of an empty input port. -/
def idle : InPort := resetInPort prm draws 0

/-- The empty block with record `p` in input port 0 and `x` in its pin-1 slot. -/
def withIn (x : Cell16) (p : InPort) : State := (base.setBuf (.inPin1 0) x).setIn 0 p

/-- The empty block with record `p` in output port 0 and `x` in its pin-5 slot. -/
def withOut (x : Cell16) (p : OutPort) : State := (base.setBuf (.outPin5 0) x).setOut 0 p

/-- `s` with the environment's answers for input port 0 changed. -/
def answerIn (f : InAnswers → InAnswers) (s : State) : State :=
  { s with env := { s.env with inp := putPort s.env.inp 0 (f (s.inAnswers 0)) } }

/-- `s` with pin 6 of output port 0 reading low. -/
def outPin6Low (s : State) : State := { s with env := { s.env with out := putPort s.env.out 0 { pin6 := false } } }

/-- `s` with pin-2 detection enabled (a premise). -/
def detecting (s : State) : State := { s with cfg := { s.cfg with pin2Detect := true } }

/-- The parameters of program P3: one input port, one output port. -/
def prmOne : Params :=
  { prm with
    numIn := 1
    numOut := 1
    schedShort := ⟨⟨0x0000, some (.inPin1 0), .keep, .keep⟩,
      [⟨0x0080, some (.inPin6 0), .keep, .keep⟩, ⟨0x0100, some (.outPin5 0), .keep, .keep⟩]⟩
    schedLong := ⟨⟨0x0000, some (.inPin1 0), .keep, .keep⟩,
      [⟨0x0080, some (.inPin6 0), .keep, .keep⟩, ⟨0x0100, some (.outPin5 0), .keep, .keep⟩,
        ⟨0x0180, none, .keep, .keep⟩]⟩ }

/-- `s` with no pin-2 tree given. -/
def treeless (s : State) : State := { s with cfg := { s.cfg with pin2Tree := none } }

/-- `s` under the illustrative tables, at position `n` of the table `sel`. -/
def sampling (sel : TableSel) (n : Nat) (s : State) : State := { s with cfg := prmShort, samp := ⟨sel, n⟩ }

/-- What an operation leaves in input port 0: its state code, event, timer and latched value; its classification; the
calls made. -/
def seenIn (o : Host.Outcome State Fault Refusal) :
    Option ((BitVec 5 × BitVec 4 × Nat × Count) × (Byte × Byte) × List OracleCall) :=
  match o with
  | .next t =>
    let p := t.inAt 0
    some ((p.state, p.event, p.timer, p.value), ((t.shInAt 0).devType, (t.shInAt 0).connClass), t.calls)
  | _ => none

/-- What an operation leaves in output port 0: its record and its classification. -/
def seenOut (o : Host.Outcome State Fault Refusal) : Option (OutPort × (Byte × Byte)) :=
  match o with
  | .next t => some (t.outAt 0, ((t.shOutAt 0).devType, (t.shOutAt 0).connClass))
  | _ => none

/-- A view of the next state. -/
def seen {α : Type} (f : State → α) (o : Host.Outcome State Fault Refusal) : Option α :=
  match o with
  | .next t => some (f t)
  | _ => none

/-- The refusal an operation comes to. -/
def stop (o : Host.Outcome State Fault Refusal) : Option Refusal :=
  match o with
  | .refused r => some r
  | _ => none

/-! ## Well-formedness: one ill-formed term for each check, refused -/

theorem test_wf_writeE_length : ¬(Instr.writeE (List.replicate 11 0x2D)).WellFormed std := by decide
theorem test_wf_eOther_enable : ¬(Instr.eOther 0 0x31).WellFormed std := by decide
theorem test_wf_eOther_disable : ¬(Instr.eOther 0 0x30).WellFormed std := by decide
theorem test_wf_eOther_nop : ¬(Instr.eOther 0 0x2D).WellFormed std := by decide
theorem test_wf_writeT_length : ¬(Instr.writeT (List.replicate 13 0)).WellFormed std := by decide
theorem test_wf_rawpin_color : ¬(Instr.bareRawpin 3 0x0D).WellFormed std := by decide
theorem test_wf_rawpin_color_last : ¬(Instr.bareRawpin 3 0x11).WellFormed std := by decide
theorem test_wf_rawpin_selects : ¬(Instr.bareRawpin 0 0x65).WellFormed std := by decide
theorem test_wf_port : ¬(Instr.clrupdIn 12).WellFormed std ∧ ¬(Instr.outInit 4).WellFormed std ∧
    (Instr.outInit 3).WellFormed std := by decide
theorem test_wf_reserved_code : ¬(Instr.inReserved 0 16).WellFormed std := by decide

/-! ## Decoding: every row of the opcode table from a word of 30_encoding.md -/

/-- R80. -/
theorem test_decode_strobe :
    dec (.strobe 0b01 0xF456) = .ok (.tickS 0xF456) ∧ dec (.strobe 0b10 0) = .ok .tickD ∧
    dec (.strobe 0b00 0) = .error .noOperation ∧ dec (.strobe 0b11 0) = .error .bothStrobes := by decide

/-- R81, R82, R84. -/
theorem test_decode_hostWrite :
    dec (.hostWrite (0x65 :: List.replicate 12 0x2D)) = .ok (.writeE (List.replicate 12 0x2D)) ∧
    dec (.hostWrite (0x74 :: List.replicate 12 0xFF)) = .ok (.writeT (List.replicate 12 0xFF)) ∧
    dec (.hostWrite []) = .error .emptyWrite ∧ dec (.hostWrite [0x65, 0x30]) = .error .wrongLength ∧
    dec (.hostWrite [0x0D]) = .error .bareBytes := by decide

/-- R83. -/
theorem test_decode_echar :
    dec (.echar 4 0b00110000) = .ok (.eDisable 4) ∧ dec (.echar 4 0b00110001) = .ok (.eEnable 4) ∧
    dec (.echar 4 0b00101101) = .ok (.eNop 4) ∧ dec (.echar 4 0b01011000) = .ok (.eOther 4 0x58) := by decide

/-- R85, R267. -/
theorem test_decode_bareByte :
    dec (.bareByte 0 0b00001101) = .ok (.bareColor0D 0) ∧ dec (.bareByte 1 0b00001110) = .ok (.bareColor0E 1) ∧
    dec (.bareByte 2 0b00001111) = .ok (.bareColor0F 2) ∧ dec (.bareByte 3 0b00010000) = .ok (.bareColor10 3) ∧
    dec (.bareByte 4 0b00010001) = .ok (.bareColor11 4) ∧ dec (.bareByte 5 0b00010010) = .ok (.bareRawpin 5 0x12) ∧
    dec (.bareByte 5 0b00001100) = .ok (.bareRawpin 5 0x0C) ∧ dec (.bareByte 1 0x74) = .ok (.bareRawpin 1 0x74) ∧
    dec (.bareByte 0 0x74) = .error .notBare := by decide

/-- R7, R260: bits for a port the block does not have are no row. -/
theorem test_decode_noSuchPort :
    dec (.echar 12 0x30) = .error .noSuchPort ∧
    dec (.bareByte 12 0x0D) = .error .noSuchPort ∧
    dec (.inState 12 0) = .error .noSuchPort ∧
    dec (.outState 4 0) = .error .noSuchPort := by decide

/-- D25: other `'e'` characters of a platform. -/
theorem test_decode_echar_platform :
    decode { Platform.standard with eCharEnable := 0x2B, eCharDisable := 0x78 } (.echar 0 0x2B) = .ok (.eEnable 0) ∧
    decode { Platform.standard with eCharEnable := 0x2B, eCharDisable := 0x78 } (.echar 0 0x31) = .ok (.eOther 0 0x31) := by
  decide

/-- R268. -/
theorem test_decode_hostStore :
    dec (.hostStore (.inUpd 11) 0) = .ok (.clrupdIn 11) ∧ dec (.hostStore (.outUpd 3) 0) = .ok (.clrupdOut 3) ∧
    dec (.hostStore (.inUpd 11) 1) = .error .hostStore ∧ dec (.hostStore (.inConn 0) 0) = .error .hostStore := by
  decide

/-- R86. -/
theorem test_decode_inState :
    [0b00000, 0b00001, 0b00010, 0b00011, 0b00100, 0b00101, 0b00110, 0b00111, 0b01000, 0b01001, 0b01010, 0b01011, 0b01100,
      0b01101, 0b01110, 0b01111, 0b10000, 0b10001, 0b11111].map (fun c => decodeInState 7 c) =
    [.inInit 7, .inFloatingDelay 7, .inFloating 7, .inConnection 7, .inPin2Low 7, .inNxtTouchCheck 7,
      .inNxtColorInit 7, .inNxtColorWait 7, .inNxtColorBusy 7, .inPin1Loaded 7, .inPin6High 7, .inPin5Low 7,
      .inWaitPin2High 7, .inWaitPin1ToFloat 7, .inWaitPin6Low 7, .inWaitPin5High 7, .inDisabled 7, .inReserved 7 17,
      .inReserved 7 31] := by decide

/-- R87. -/
theorem test_decode_outState :
    [0b000, 0b001, 0b010, 0b011, 0b100, 0b101, 0b110, 0b111].map (fun c => decodeOutState 2 c) =
    [.outInit 2, .outFloatingDelay 2, .outFloating 2, .outWaitPin6Low 2, .outConnection 2, .outWaitPin5Low 2,
      .outWaitPortOpen 2, .outReserved 2] := by decide

/-- The fixed words of opcode_table.json. -/
theorem test_decode_table_words :
    decodeTableWord 8 0x01 = some (.tickS 0) ∧ decodeTableWord 8 0x02 = some .tickD ∧
    decodeTableWord 8 0x30 = some (.eDisable 0) ∧ decodeTableWord 8 0x31 = some (.eEnable 0) ∧
    decodeTableWord 8 0x2D = some (.eNop 0) ∧ decodeTableWord 8 0x0D = some (.bareColor0D 0) ∧
    decodeTableWord 8 0x0E = some (.bareColor0E 0) ∧ decodeTableWord 8 0x0F = some (.bareColor0F 0) ∧
    decodeTableWord 8 0x10 = some (.bareColor10 0) ∧ decodeTableWord 8 0x11 = some (.bareColor11 0) := by decide

/-- R95. -/
theorem test_drive_codes :
    (ClockFlag.drive .float).code = 0b00 ∧ (ClockFlag.drive .low).code = 0b01 ∧ (ClockFlag.drive .high).code = 0b10 ∧
    ClockFlag.keep.code = 0b11 ∧ clockFlagOf 0b10 = .drive .high := by decide

/-- R63: a 16-bit cell as bytes is little-endian. -/
theorem test_cellBytes : cellBytes 0x0ABC = [0xBC, 0x0A] := by decide

/-- R100, program P2: `DISABLE 2` and `FORCE 2, 0x7A`. -/
theorem test_pseudo :
    pseudoDisable Platform.standard 2 = [0x65, 0x2D, 0x2D, 0x30, 0x2D, 0x2D, 0x2D, 0x2D, 0x2D, 0x2D, 0x2D, 0x2D, 0x2D] ∧
    pseudoForce (List.replicate 12 0x7E) 2 0x7A =
      [0x74, 0x7E, 0x7E, 0x7A, 0x7E, 0x7E, 0x7E, 0x7E, 0x7E, 0x7E, 0x7E, 0x7E, 0x7E] := by decide

/-- The first step after reset runs the word's row, the DCM tick's among them. -/
theorem test_step_tickD_after_reset : ∃ t, step (State.reset.withFetchWord 8 0x02) = .next t := ⟨_, rfl⟩

/-- R111, R112: the first sampler tick after reset is an exchange too. -/
theorem test_step_tickS_after_reset : ∃ t, step (State.reset.withFetchWord 8 0x01) = .next t := ⟨_, rfl⟩

/-! ## Comparators and event words (95_test_vectors.md 2.2, 2.3) -/

theorem test_near :
    near 490 500 10 = true ∧ near 489 500 10 = false ∧ near 509 500 10 = true ∧ near 510 500 10 = false ∧
    near 5 15 10 = true ∧ near 15 5 10 = false ∧ near 0 3 10 = true := by decide

theorem test_evIn :
    evIn ((withIn 3931 idle).ctxIn 0) = 0b0000 ∧ evIn ((withIn 3930 idle).ctxIn 0) = 0b0001 ∧
    evIn ((answerIn (fun _ => ⟨false, false, true, false, []⟩) (withIn 100 idle)).ctxIn 0) = 0b1101 ∧
    evIn ((detecting (answerIn (fun _ => ⟨false, false, true, false, []⟩) (withIn 100 idle))).ctxIn 0) = 0b1111 := by
  decide

theorem test_evOut :
    evOut (base.ctxOut 0) = 0b00 ∧ evOut ((outPin6Low (withOut 147 resetOutPort)).ctxOut 0) = 0b11 ∧
    evOut ((withOut 2129 resetOutPort).ctxOut 0) = 0b01 ∧
    evOut ((outPin6Low (withOut 1965 resetOutPort)).ctxOut 0) = 0b10 := by decide

/-! ## Sampler (95_test_vectors.md 2.5) -/

/-- S3. -/
theorem test_tickS_S3 :
    seen (fun t => ((t.samp, (t.inAt 0).ring.head?, (t.inAt 0).ringIdx), ((t.shInAt 11).upd, (t.shOutAt 3).upd), t.calls))
      (exec (.tickS 0xF456)
        (sampling .short 1 ((base.setBuf (.inPin1 0) 0x0ABC).setBuf (.inPin6 0) 0x0123))) =
    some ((⟨.short, 0⟩, some ⟨0xABC, 0x123⟩, 1), (true, true), [.spiExchange 0x1880]) := by decide

/-- S7. -/
theorem test_tickS_S7 :
    seen (fun t => (t.bufAt (.inPin6 4), t.drvAt 4 .auxA, t.drvAt 4 .auxB, t.drvAt 5 .auxA, t.calls))
      (exec (.tickS 0x0AAA) (sampling .long 0 (base.setIn 4 { idle with colorActive := true }))) =
    some (0x0AAA, .high, .float, .float, [.spiExchange 0x1810, .drive (.inp 4 .auxA) .high]) := by decide

/-! ## The DCM tick -/

/-- I28, and R321 for an output port. -/
theorem test_tickD_I28 :
    seen (fun t => ((t.inAt 0).state, (t.inAt 0).oldState, (t.outAt 3).state))
      (exec .tickD (base.setIn 0 { idle with state := 16 })) = some (1, 16, 1) := by decide

/-! ## Input state rules (95_test_vectors.md 2.6) -/

/-- I1. -/
theorem test_inInit_I1 :
    (seenIn (exec (.inInit 0)
      ((withIn 4095 { idle with event := 1, timer := 9, connected := true, value := 40 }).setShIn 0
        ⟨125, 122, false, []⟩))).map (fun r => (r.1, r.2.1)) = some ((1, 0, 0, 40), (126, 126)) := by decide

/-- I2. -/
theorem test_inInit_I2 :
    seen (fun t => (t.calls.head?, (t.inAt 0).sessionOpen, (t.inAt 0).colorActive))
      (exec (.inInit 0) (withIn 4095 { idle with sessionOpen := true, colorActive := true })) =
    some (some (.colorStop 0), false, false) := by decide

/-- I3. -/
theorem test_inFloatingDelay_I3 :
    seenIn (exec (.inFloatingDelay 0) (withIn 4095 { idle with state := 1 })) = some ((1, 0, 1, 0), (126, 126), []) := by
  decide

/-- I4. -/
theorem test_inFloatingDelay_I4 :
    seenIn (exec (.inFloatingDelay 0) (withIn 4095 { idle with state := 1, timer := 1 })) =
      some ((2, 0, 0, 0), (126, 126), []) := by decide

/-- I6. -/
theorem test_inFloating_I6 :
    seenIn (exec (.inFloating 0) (answerIn (fun a => { a with pin6 := true })
      (withIn 4095 { idle with state := 2, event := 8, timer := 34 }))) = some ((3, 8, 0, 0), (126, 126), []) := by decide

/-- I5. -/
theorem test_inFloating_I5 :
    seenIn (exec (.inFloating 0) (withIn 4095 { idle with state := 2, timer := 500 })) =
      some ((2, 0, 501, 0), (126, 126), []) := by decide

/-- I8. -/
theorem test_inConnection_I8 :
    seenIn (exec (.inConnection 0) (withIn 4095 { idle with state := 3, event := 0b1101 })) =
      some ((9, 0b1101, 0, 0), (126, 126), []) := by decide

/-- T1.4: 0b1100. -/
theorem test_inConnection_T14 :
    seenIn (exec (.inConnection 0) (withIn 4095 { idle with state := 3, event := 0b1100 })) =
      some ((10, 0b1100, 0, 0), (126, 126), []) := by decide

/-- C1. -/
theorem test_inPin2Low_C1 :
    seenIn (exec (.inPin2Low 0) (withIn 700 { idle with state := 4, event := 0b0011 })) =
      some ((12, 0b0011, 0, 700), (123, 120), []) := by decide

/-- C2. -/
theorem test_inPin2Low_C2 :
    seenIn (exec (.inPin2Low 0) (withIn 500 { idle with state := 4, event := 0b0011 })) =
      some ((5, 0b0011, 0, 500), (126, 126), []) := by decide

/-- C5. -/
theorem test_inNxtTouchCheck_C5 :
    seenIn (exec (.inNxtTouchCheck 0) (withIn 490 { idle with state := 5, value := 500, timer := 1 })) =
      some ((12, 0, 0, 500), (1, 119), []) := by decide

/-- C6. -/
theorem test_inNxtTouchCheck_C6 :
    seenIn (exec (.inNxtTouchCheck 0) (withIn 510 { idle with state := 5, value := 500, timer := 1 })) =
      some ((12, 0, 0, 500), (3, 119), []) := by decide

/-- C9. -/
theorem test_inNxtColorInit_C9 :
    seenIn (exec (.inNxtColorInit 0) (withIn 500 { idle with state := 6, timer := 5 })) =
      some ((7, 0, 0, 0), (126, 126), [.colorStart 0 0x42]) := by decide

/-- C12. -/
theorem test_inNxtColorWait_C12 :
    seenIn (exec (.inNxtColorWait 0) (withIn 500 { idle with state := 7, timer := 49, sessionOpen := true })) =
      some ((12, 0, 0, 0), (126, 126), [.colorStop 0]) := by decide

/-- C13. -/
theorem test_inNxtColorWait_C13 :
    seenIn (exec (.inNxtColorWait 0) (answerIn (fun a => { a with ready := true })
      (withIn 500 { idle with state := 7, timer := 49 }))) = some ((8, 0, 0, 0), (126, 126), []) := by decide

/-- C14. -/
theorem test_inNxtColorBusy_C14 :
    seen (fun t => (((t.shInAt 0).colorRes, t.calls), (t.inAt 0).sessionOpen, (t.inAt 0).colorActive, (t.inAt 0).state))
      (exec (.inNxtColorBusy 0) (withIn 500 { idle with state := 8, sessionOpen := true })) =
    some (([0x55, 0x55], [.colorStop 0]), false, true, 12) := by decide

/-- I9. -/
theorem test_inPin1Loaded_I9 :
    seenIn (exec (.inPin1Loaded 0) (withIn 2538 { idle with state := 9, event := 1 })) =
      some ((13, 1, 0, 2538), (125, 121), []) := by decide

/-- I12. -/
theorem test_inPin1Loaded_I12 :
    seenIn (exec (.inPin1Loaded 0) (withIn 80 { idle with state := 9, event := 1 })) =
      some ((13, 1, 0, 80), (125, 122), []) := by decide

/-- I15. -/
theorem test_inPin6High_I15 :
    seenIn (exec (.inPin6High 0) (withIn 4095 { idle with state := 10, event := 8 })) =
      some ((14, 8, 0, 0), (123, 120), []) := by decide

/-- I16. -/
theorem test_inPin5Low_I16 :
    seenIn (exec (.inPin5Low 0) (withIn 4095 { idle with state := 11, event := 4 })) =
      some ((15, 4, 0, 0), (127, 127), []) := by decide

/-- I24. -/
theorem test_inWaitPin2High_I24 :
    seenIn (exec (.inWaitPin2High 0) (withIn 4095 { idle with state := 12, timer := 65535 })) =
      some ((12, 0, 65535, 0), (126, 126), []) := by decide

/-- I25. -/
theorem test_inWaitPin2High_I25 :
    seenIn (exec (.inWaitPin2High 0) (detecting (withIn 4095 { idle with state := 12, timer := 9 }))) =
      some ((0, 0, 0, 0), (126, 126), []) := by decide

/-- I19. -/
theorem test_inWaitPin1ToFloat_I19 :
    seenIn (exec (.inWaitPin1ToFloat 0) (withIn 3931 { idle with state := 13, timer := 9 })) =
      some ((0, 0, 0, 0), (126, 126), []) := by decide

/-- I20. -/
theorem test_inWaitPin1ToFloat_I20 :
    seenIn (exec (.inWaitPin1ToFloat 0) (answerIn (fun a => { a with pin6 := true })
      (withIn 100 { idle with state := 13, event := 1, timer := 9 }))) =
    some ((13, 0b1001, 0, 0), (126, 126), []) := by decide

/-- I21. -/
theorem test_inWaitPin6Low_I21 :
    seenIn (exec (.inWaitPin6Low 0) (withIn 4095 { idle with state := 14, timer := 9 })) =
      some ((0, 0, 0, 0), (126, 126), []) := by decide

/-- I22. -/
theorem test_inWaitPin5High_I22 :
    seenIn (exec (.inWaitPin5High 0) (withIn 4095 { idle with state := 15, timer := 9 })) =
      some ((0, 0, 0, 0), (126, 126), []) := by decide

/-- I23. -/
theorem test_inWaitPin5High_I23 :
    seenIn (exec (.inWaitPin5High 0) (answerIn (fun a => { a with pin5 := false })
      (withIn 4095 { idle with state := 15, event := 4, timer := 60000 }))) =
    some ((15, 4, 60001, 0), (126, 126), []) := by decide

/-- I26. -/
theorem test_inDisabled_I26 :
    seen (fun t => ((t.inAt 0).state, (t.inAt 0).connected, (t.inAt 0).timer, (t.shInAt 0).connClass))
      (exec (.inDisabled 0)
        ((withIn 4095 { idle with state := 16, fsmEnabled := false }).setShIn 0 ⟨126, 0x7A, false, []⟩)) =
    some (16, true, 0, 0x7A) := by decide

/-- I29. -/
theorem test_inReserved_I29 :
    (seenIn (exec (.inReserved 0 20) (withIn 4095 { idle with state := 20 }))).map (fun r => (r.1, r.2.1)) =
      some ((1, 0, 0, 0), (126, 126)) := by decide

/-! ## Output state rules (95_test_vectors.md 2.7) -/

/-- O1. -/
theorem test_outInit_O1 :
    seenOut (exec (.outInit 0) ((withOut 2047 ⟨0, 0, 3, 3, 7, 5, 6, true, ⟨.low, .high⟩⟩).setShOut 0 ⟨7, 125, false⟩)) =
      some (⟨1, 0, 0, 0, 0, 5, 6, false, ⟨.float, .float⟩⟩, (126, 126)) := by decide

/-- As I3 (R222). -/
theorem test_outFloatingDelay :
    seenOut (exec (.outFloatingDelay 0) (withOut 2047 { resetOutPort with state := 1 })) =
      some ({ resetOutPort with state := 1, timer := 1 }, (126, 126)) := by decide

/-- O2. -/
theorem test_outFloating_O2 :
    seenOut (exec (.outFloating 0) (withOut 2047 { resetOutPort with state := 2, timer := 3 })) =
      some ({ resetOutPort with state := 2, timer := 4, value5Float := 2047 }, (126, 126)) := by decide

/-- O3. -/
theorem test_outFloating_O3 :
    seenOut (exec (.outFloating 0) (outPin6Low (withOut 147 { resetOutPort with state := 2, event := 3, timer := 34 }))) =
      some (⟨3, 0, 3, 3, 0, 147, 0, false, ⟨.low, .float⟩⟩, (126, 126)) := by decide

/-- O4. -/
theorem test_outWaitPin6Low_O4 :
    seenOut (exec (.outWaitPin6Low 0) (withOut 150 { resetOutPort with state := 3, timer := 1 })) =
      some ({ resetOutPort with state := 4, value5Low := 150 }, (126, 126)) := by decide

/-- O6. -/
theorem test_outConnection_O6 :
    seenOut (exec (.outConnection 0) (withOut 147 ⟨4, 0, 3, 3, 0, 147, 197, false, ⟨.low, .float⟩⟩)) =
      some (⟨6, 0, 3, 3, 0, 147, 197, true, ⟨.float, .float⟩⟩, (7, 125)) := by decide

/-- O7. -/
theorem test_outConnection_O7 :
    seenOut (exec (.outConnection 0) (withOut 147 ⟨4, 0, 3, 3, 0, 147, 97, false, ⟨.low, .float⟩⟩)) =
      some (⟨5, 0, 3, 3, 0, 147, 97, false, ⟨.low, .float⟩⟩, (126, 126)) := by decide

/-- O18. -/
theorem test_outWaitPin5Low_O18 :
    seenOut (exec (.outWaitPin5Low 0) (withOut 147 { resetOutPort with state := 5 })) =
      some ({ resetOutPort with state := 5, timer := 1 }, (126, 126)) := by decide

/-- O19. -/
theorem test_outWaitPin5Low_O19 :
    seenOut (exec (.outWaitPin5Low 0) (withOut 300 ⟨5, 0, 3, 3, 1, 147, 97, false, ⟨.low, .float⟩⟩)) =
      some (⟨6, 0, 3, 3, 0, 147, 300, true, ⟨.float, .float⟩⟩, (8, 125)) := by decide

/-- O22. -/
theorem test_outWaitPortOpen_O22 :
    seenOut (exec (.outWaitPortOpen 0) (withOut 2047 { resetOutPort with state := 6, event := 3, connEvent := 3, timer := 100 })) =
      some ({ resetOutPort with state := 6, event := 0, connEvent := 3, timer := 0 }, (126, 126)) := by decide

/-- O23. -/
theorem test_outWaitPortOpen_O23 :
    seenOut (exec (.outWaitPortOpen 0) (withOut 2047 { resetOutPort with state := 6, connEvent := 3, timer := 9 })) =
      some ({ resetOutPort with state := 0, connEvent := 3 }, (126, 126)) := by decide

/-- O25. -/
theorem test_outReserved_O25 :
    seenOut (exec (.outReserved 0) (withOut 2047 { resetOutPort with state := 7, timer := 3 })) =
      some ({ resetOutPort with state := 1 }, (126, 126)) := by decide

/-! ## Host commands (95_test_vectors.md 2.8) -/

/-- H7. -/
theorem test_writeE_H7 :
    seen (fun t => t.inp.map (fun p => p.fsmEnabled))
      (exec (.writeE [0x30, 0x31, 0x2D, 0x58, 0x30, 0x2D, 0x2D, 0x2D, 0x2D, 0x2D, 0x2D, 0x2D]) base) =
    some [false, true, true, true, false, true, true, true, true, true, true, true] := by decide

/-- H5, H6, H10: the writes of the wrong length come to nothing. -/
theorem test_write_lengths :
    decodeRequest Platform.standard (.write (0x65 :: 0x30 :: List.replicate 10 0x2D)) = .operations [] ∧
    decodeRequest Platform.standard (.write (0x65 :: 0x30 :: List.replicate 12 0x2D)) = .operations [] ∧
    decodeRequest Platform.standard (.write [0x74, 0x7A]) = .operations [] := by decide

/-- H8. -/
theorem test_writeT_H8 :
    seen (fun t => ((t.shInAt 2).connClass, (t.shInAt 2).devType, (t.shInAt 3).connClass))
      (exec (.writeT [0x7E, 0x7E, 0x7A, 0x11, 0x7E, 0x7E, 0x7E, 0x7E, 0x7E, 0x7E, 0x7E, 0x7E])
        (base.setIn 2 { idle with fsmEnabled := false, state := 16 })) = some (0x7A, 126, 126) := by decide

/-- H1. -/
theorem test_eDisable_H1 :
    seen (fun t => (((t.inAt 0).fsmEnabled, (t.inAt 0).connected), ((t.inAt 0).state, (t.inAt 0).event, (t.inAt 0).timer),
        (t.shInAt 0).connClass))
      (exec (.eDisable 0)
        ((withIn 4095 { idle with state := 13, connected := true, event := 1, timer := 4 }).setShIn 0
          ⟨125, 122, false, []⟩)) =
    some ((false, true), (16, 0, 0), 126) := by decide

/-- H3. -/
theorem test_eEnable_H3 :
    seen (fun t => ((t.inAt 0).fsmEnabled, (t.inAt 0).state, (t.inAt 0).timer))
      (exec (.eEnable 0) (withIn 4095 { idle with state := 16, fsmEnabled := false, timer := 3 })) =
    some (true, 0, 0) := by decide

/-- H4. -/
theorem test_eEnable_H4 :
    seenIn (exec (.eEnable 0) (withIn 4095 { idle with state := 2, timer := 20 })) =
      some ((2, 0, 20, 0), (126, 126), []) := by decide

/-- H14: a bare write, byte for byte; the two bytes past `NUM_IN` are ignored. -/
theorem test_bare_H14 :
    decodeRequest Platform.standard (.write ([0x11, 0x0D] ++ List.replicate 10 0x0E ++ [0xFF, 0xFF])) =
    .operations [.bareColor11 0, .bareColor0D 1, .bareColor0E 2, .bareColor0E 3, .bareColor0E 4, .bareColor0E 5,
      .bareColor0E 6, .bareColor0E 7, .bareColor0E 8, .bareColor0E 9, .bareColor0E 10, .bareColor0E 11] := by decide

/-- H11, H14: the five colour commands on a disabled port. -/
theorem test_bareColor_H11 :
    [Instr.bareColor0D 0, .bareColor0E 0, .bareColor0F 0, .bareColor10 0, .bareColor11 0].map (fun ins =>
      seen (fun t => ((t.inAt 0).sessionOpen, (t.inAt 0).colorActive, t.calls))
        (exec ins (withIn 4095 { idle with state := 16, fsmEnabled := false }))) =
    [some (true, false, [.colorStart 0 0x0D]), some (true, false, [.colorStart 0 0x0E]),
      some (true, false, [.colorStart 0 0x0F]), some (true, false, [.colorStart 0 0x10]),
      some (true, false, [.colorStart 0 0x11])] := by decide

/-- H12. -/
theorem test_bareColor_H12 : seenIn (exec (.bareColor0D 0) base) = some ((0, 0, 0, 0), (126, 126), []) := by decide

/-- R267, with the decode of `prm`: `KEEP` is no drive. -/
theorem test_bareRawpin :
    seen (fun t => (t.drvAt 0 .pin1, t.drvAt 0 .pin5, t.drvAt 0 .auxB, t.calls))
      (exec (.bareRawpin 0 0x02) (withIn 4095 { idle with state := 16, fsmEnabled := false })) =
    some (.high, .float, .low, [.drive (.inp 0 .pin1) .high, .drive (.inp 0 .auxB) .low]) := by decide

/-- H13: the byte 0x42 on the disabled port 1 where `RAWPIN_DECODE` is not given. -/
theorem test_bareRawpin_H13 :
    stop (step { base with
      cfg := { prm with rawpinDecode := none }
      inp := putPort base.inp 1 { idle with state := 16, fsmEnabled := false }
      pending := [⟨base.env, .write [0x00, 0x42]⟩] }) = some .rawpinDecodeAbsent := by decide

/-- H16. -/
theorem test_clrupdIn_H16 :
    seen (fun t => (t.shInAt 3).upd) (exec (.clrupdIn 3) (base.setShIn 3 ⟨126, 126, true, []⟩)) = some false := by decide

/-- H17, and the flag of another port stands. -/
theorem test_clrupdOut_H17 :
    seen (fun t => ((t.shOutAt 1).upd, (t.shOutAt 2).upd))
      (exec (.clrupdOut 1) ((base.setShOut 1 ⟨126, 126, false⟩).setShOut 2 ⟨126, 126, true⟩)) = some (false, true) := by
  decide

/-! ## Witnesses: for each statement with hypotheses, states and operands that meet them, clause by clause -/

/-- The empty block with the request `r` waiting. -/
def asked (r : Request) : State := { base with pending := [⟨base.env, r⟩] }

/-- Input port 0 is in the state `code`, its event word has changed. -/
abbrev ChangesIn (code : BitVec 5) (s : State) : Prop := (s.inAt 0).state = code ∧ evIn (s.ctxIn 0) ≠ (s.inAt 0).event

/-- Input port 0 is in the state `code`, its event word has not changed, and this tick makes its timer `n`. -/
abbrev HoldsIn (code : BitVec 5) (n : Nat) (s : State) : Prop :=
  (s.inAt 0).state = code ∧ evIn (s.ctxIn 0) = (s.inAt 0).event ∧ tickUp s.cfg (s.inAt 0).timer = n

/-- As `ChangesIn`, for output port 0. -/
abbrev ChangesOut (code : BitVec 3) (s : State) : Prop :=
  (s.outAt 0).state = code ∧ evOut (s.ctxOut 0) ≠ (s.outAt 0).event

/-- As `HoldsIn`, for output port 0. -/
abbrev HoldsOut (code : BitVec 3) (n : Nat) (s : State) : Prop :=
  (s.outAt 0).state = code ∧ evOut (s.ctxOut 0) = (s.outAt 0).event ∧ tickUp s.cfg (s.outAt 0).timer = n

/-- Output port 0 is in `CONNECTION` with the latched values `v` and `l`. -/
def matching (v l : Count) : State := withOut 0 { resetOutPort with state := 4, value5Float := v, value5Low := l }

theorem witness_DecodeInvertsEncode :
    ∀ i ∈ [Instr.eOther 11 0xFF, .eEnable 11, .eNop 0, .inReserved 0 17, .inReserved 11 31, .bareRawpin 0 0x0C,
      .bareRawpin 1 0x65, .writeE (List.replicate 12 0), .outReserved 3], i.WellFormed std := by decide

theorem witness_DecodedRowsAreWellFormed :
    dec (.bareByte 1 0x65) = .ok (.bareRawpin 1 0x65) ∧
    dec (.hostStore (.outUpd 3) 0) = .ok (.clrupdOut 3) := by decide

theorem witness_EveryRequestDecodes : 11 < Platform.standard.numIn ∧ 3 < Platform.standard.numOut := by decide

theorem witness_StepRunsDecodedInstruction :
    base.pending = [] ∧
    (∀ r ∈ [Request.strobe 0b00 0, .write [], .write [0x65, 0x30], .write (0x74 :: List.replicate 13 0)],
      decodeRequest Platform.standard r = .operations [] ∧ (asked r).pending = [⟨base.env, r⟩]) ∧
    decodeRequest Platform.standard (.write [0x0D]) = .operations [.bareColor0D 0] ∧
    (asked (.write [0x0D])).pending = [⟨base.env, .write [0x0D]⟩] ∧
    decodeRequest Platform.standard (.write [0x0D, 0x00]) = .operations (.bareColor0D 0 :: [.bareRawpin 1 0]) ∧
    (asked (.write [0x0D, 0x00])).pending = [⟨base.env, .write [0x0D, 0x00]⟩] := by decide

theorem witness_OtherHostStoresAndIoctlsRefused :
    (asked (.store (.inConn 3) 0)).pending = [⟨base.env, .store (.inConn 3) 0⟩] ∧
    (∀ i < 12, HostField.inConn 3 ≠ .inUpd i) ∧ (∀ j < 4, HostField.inConn 3 ≠ .outUpd j) ∧
    (asked (.store (.inUpd 12) 0)).pending = [⟨base.env, .store (.inUpd 12) 0⟩] ∧
    (∀ i < 12, HostField.inUpd 12 ≠ .inUpd i) ∧ (∀ j < 4, HostField.inUpd 12 ≠ .outUpd j) ∧
    (asked (.ioctl 0)).pending = [⟨base.env, .ioctl 0⟩] := by decide

/-- Inside a cycle, at its end under the short table, and at its end with a colour-active port. -/
theorem witness_SamplerStoresAndAdvances :
    (sampling .short 0 base).table.entries[0]? = some ⟨0x0000, some (.inPin1 0), .keep, .keep⟩ ∧
    (sampling .short 0 base).samp.ptr + 1 ≠ (sampling .short 0 base).table.entries.length ∧
    (sampling .short 1 base).table.entries[1]? = some ⟨0x0080, none, .keep, .keep⟩ ∧
    (sampling .short 1 base).samp.ptr + 1 = (sampling .short 1 base).table.entries.length ∧
    ((sampling .short 1 (base.setIn 11 { idle with colorActive := true })).inAt 11).colorActive = true := by decide

theorem witness_MissingEntriesAndPortsStop :
    (sampling .short 2 base).table.entries.length ≤ (sampling .short 2 base).samp.ptr ∧
    base.cfg.numIn ≤ 12 ∧ base.cfg.numOut ≤ 4 := by decide

theorem witness_SamplerCalls :
    (sampling .long 0 base).table.entries[0]? = some ⟨0x0010, some (.inPin6 4), .drive .high, .keep⟩ ∧
    ∃ t, exec (.tickS 0xFFFF) (sampling .long 0 base) = .next t := ⟨by decide, _, rfl⟩

/-- Port 4 colour-active, at a long table's one entry, which drives the roles by `a` and `b`; both roles on one pin if
`shared`. -/
def clocking (a b : ClockFlag) (shared : Bool) : State :=
  { sampling .long 0 (base.setIn 4 { idle with colorActive := true }) with
    cfg := { prm with
      schedLong := ⟨⟨0x0010, some (.inPin6 4), a, b⟩, []⟩
      auxPinB := if shared then prm.auxPinA else prm.auxPinB } }

/-- The premises with both roles driven, on pins of their own and on one pin, and with role B alone. -/
theorem witness_SamplerAuxiliaryClocking_roleB :
    (∀ a ∈ [ClockFlag.drive .high, .keep], ∀ shared,
      (clocking a (.drive .low) shared).table.entries[0]? = some ⟨0x0010, some (.inPin6 4), a, .drive .low⟩ ∧
      (clocking a (.drive .low) shared).samp = ⟨.long, 0⟩ ∧
      ((clocking a (.drive .low) shared).inAt 4).colorActive = true) ∧
    (clocking (.drive .high) (.drive .low) true).cfg.auxPinA = (clocking (.drive .high) (.drive .low) true).cfg.auxPinB ∧
    (clocking (.drive .high) (.drive .low) false).cfg.auxPinA ≠
      (clocking (.drive .high) (.drive .low) false).cfg.auxPinB ∧
    (∀ a b shared, ∃ t, exec (.tickS 0) (clocking a b shared) = .next t) :=
  ⟨by decide, by decide, by decide, fun _ _ _ => ⟨_, rfl⟩⟩

/-- R33, R115: on a pin that both roles name, the drive of role B stands; on pins of their own, each has its drive. -/
theorem test_clock_shared_pin :
    seen (fun t => (t.drvAt 4 .auxA, t.drvAt 4 .auxB)) (exec (.tickS 0) (clocking (.drive .high) (.drive .low) true)) =
      some (.low, .low) ∧
    seen (fun t => (t.drvAt 4 .auxA, t.drvAt 4 .auxB)) (exec (.tickS 0) (clocking (.drive .high) (.drive .low) false)) =
      some (.high, .low) := by decide

/-- The short table; the long one on a colour-active port, with a flag and a `KEEP`; a cell neither role drives. -/
theorem witness_SamplerAuxiliaryClocking :
    (sampling .long 0 (base.setIn 4 { idle with colorActive := true })).table.entries[0]? =
      some ⟨0x0010, some (.inPin6 4), .drive .high, .keep⟩ ∧
    ((sampling .long 0 (base.setIn 4 { idle with colorActive := true })).inAt 4).colorActive = true ∧
    PinCell.pin1 ≠ prmShort.auxPinA ∧ prmShort.auxPinA ≠ prmShort.auxPinB ∧
    (∃ t, exec (.tickS 0) (sampling .long 0 (base.setIn 4 { idle with colorActive := true })) = .next t) ∧
    (sampling .short 0 base).samp.sel = .short ∧ ∃ t, exec (.tickS 0) (sampling .short 0 base) = .next t :=
  ⟨by decide, by decide, by decide, by decide, ⟨_, rfl⟩, rfl, _, rfl⟩

theorem witness_SamplerPublication :
    (∃ t, exec (.tickS 0) (sampling .short 0 base) = .next t) ∧ (sampling .short 0 base).samp.ptr + 1 ≠ 2 ∧
    (∃ t, exec (.tickS 0) (sampling .short 1 base) = .next t) ∧ (sampling .short 1 base).samp.ptr + 1 = 2 ∧
    (sampling .short 1 base).table.entries.length = 2 := ⟨⟨_, rfl⟩, by decide, ⟨_, rfl⟩, by decide, by decide⟩

theorem witness_SamplerFrame : ∃ t, exec (.tickS 0xFFFF) (sampling .long 0 base) = .next t := ⟨_, rfl⟩

theorem witness_FullCycleRefreshesSlots :
    (sampling .short 0 base).samp.ptr = 0 ∧ [0x0123, 0xF456].length = (sampling .short 0 base).table.entries.length ∧
    ∃ e ∈ (sampling .short 0 base).table.entries, e.dest = some (.inPin1 0) := by decide

theorem witness_ComparatorsAreHalfOpen : (11 : Nat) ≤ 11 := by decide

/-- The premise that the port is one of the block's, at the last port, and on the block of one port. -/
theorem witness_ports :
    11 < base.cfg.numIn ∧ 3 < base.cfg.numOut ∧ 0 < (State.resetWith prmOne draws).cfg.numIn ∧
    0 < (State.resetWith prmOne draws).cfg.numOut := by decide

theorem witness_InInitClearsPort :
    ((withIn 4095 idle).inAt 0).state = 0 ∧ 17 ≤ ((withIn 4095 { idle with state := 17 }).inAt 0).state.toNat ∧
    17 ≤ ((withIn 4095 { idle with state := 31 }).inAt 0).state.toNat ∧
    (∀ role, cellOf { prm with auxPinB := .pin2 } role ≠ PinCell.auxB) := by
  refine ⟨by decide, by decide, by decide, fun role => by cases role <;> decide⟩

theorem witness_FloatingDelayWaits :
    HoldsIn 1 2 (withIn 4095 { idle with state := 1, timer := 1 }) ∧ HoldsIn 1 1 (withIn 4095 { idle with state := 1 }) ∧
    HoldsOut 1 2 (withOut 2047 { resetOutPort with state := 1, timer := 1 }) ∧
    HoldsOut 1 1 (withOut 2047 { resetOutPort with state := 1 }) := by decide

/-- A change; no change at 34 ticks before (fires) and at 33 (does not). -/
theorem witness_InFloatingDebounces :
    ChangesIn 2 (withIn 100 { idle with state := 2 }) ∧
    HoldsIn 2 35 (withIn 100 { idle with state := 2, event := 1, timer := 34 }) ∧
    HoldsIn 2 34 (withIn 100 { idle with state := 2, event := 1, timer := 33 }) ∧
    HoldsIn 2 35 (withIn 4095 { idle with state := 2, timer := 34 }) := by decide

theorem witness_InConnectionPriority :
    ((withIn 100 { idle with state := 3, event := 0b1101 }).inAt 0).state = 3 := by decide

/-- Each outcome is the outcome of some pin-1 count and event bits. -/
theorem witness_InPin2LowOutcomes :
    ∃ tree, prm.pin2Tree = some tree ∧ ((withIn 300 { idle with state := 4, event := 2 }).inAt 0).state = 4 ∧
      pin2TreeEval tree false false 299 = .sound ∧ pin2TreeEval tree false false 300 = .touchCandidate ∧
      pin2TreeEval tree false false 600 = .iic ∧ pin2TreeEval tree true false 0 = .color ∧
      pin2TreeEval tree false true 0 = .light ∧ pin2TreeEval tree true true 0 = .test :=
  ⟨_, rfl, by decide, by decide, by decide, by decide, by decide, by decide, by decide⟩

theorem witness_InTouchCheck :
    ((withIn 490 { idle with state := 5, value := 500, timer := 1 }).inAt 0).state = 5 ∧
    2 ≤ tickUp prm ((withIn 490 { idle with state := 5, value := 500, timer := 1 }).inAt 0).timer ∧
    tickUp prm ((withIn 490 { idle with state := 5, value := 500 }).inAt 0).timer < 2 := by decide

theorem witness_InColorSession :
    ((withIn 490 { idle with state := 6 }).inAt 0).state = 6 ∧ ((withIn 490 { idle with state := 8 }).inAt 0).state = 8 := by
  decide

/-- Ready, the 50th tick, the 49th tick. -/
theorem witness_InColorWait :
    ((answerIn (fun a => { a with ready := true }) (withIn 490 { idle with state := 7 })).inAnswers 0).ready = true ∧
    ((answerIn (fun a => { a with ready := true }) (withIn 490 { idle with state := 7 })).inAt 0).state = 7 ∧
    ((withIn 490 { idle with state := 7, timer := 49 }).inAnswers 0).ready = false ∧
    50 ≤ tickUp prm ((withIn 490 { idle with state := 7, timer := 49 }).inAt 0).timer ∧
    tickUp prm ((withIn 490 { idle with state := 7, timer := 48 }).inAt 0).timer < 50 := by decide

theorem witness_InPin1LoadedBands : ((withIn 81 { idle with state := 9 }).inAt 0).state = 9 := by decide

theorem witness_InPin6HighAndPin5Low :
    ((withIn 490 { idle with state := 10 }).inAt 0).state = 10 ∧
    ((withIn 490 { idle with state := 11 }).inAt 0).state = 11 := by decide

/-- A change; no change with the threshold reached and one tick short of it. -/
theorem witness_InWaitPin2High :
    ChangesIn 12 (withIn 4095 { idle with state := 12, event := 2 }) ∧
    HoldsIn 12 10 (detecting (withIn 4095 { idle with state := 12, timer := 9 })) ∧
    HoldsIn 12 9 (detecting (withIn 4095 { idle with state := 12, timer := 8 })) ∧
    HoldsIn 12 10 (withIn 4095 { idle with state := 12, timer := 9 }) := by decide

theorem witness_InWaitForRelease :
    ChangesIn 13 (withIn 3930 { idle with state := 13 }) ∧ ChangesIn 14 (withIn 3930 { idle with state := 14 }) ∧
    ChangesIn 15 (withIn 3930 { idle with state := 15 }) ∧
    HoldsIn 13 10 (withIn 3931 { idle with state := 13, timer := 9 }) ∧
    HoldsIn 13 9 (withIn 3931 { idle with state := 13, timer := 8 }) ∧
    HoldsIn 14 10 (withIn 3930 { idle with state := 14, event := 1, timer := 9 }) ∧
    HoldsIn 15 10 (withIn 3930 { idle with state := 15, event := 1, timer := 9 }) := by decide

theorem witness_InDisabledForcesConnected : ((withIn 0 { idle with state := 16 }).inAt 0).state = 16 := by decide

theorem witness_OutInitClearsPort :
    (base.outAt 3).state = 0 ∧ ((withOut 0 { resetOutPort with state := 7 }).outAt 0).state = 7 := by decide

/-- A change; no change with the threshold reached; no change on an empty port and one tick short of the threshold. -/
theorem witness_OutFloatingDebounces :
    ChangesOut 2 (withOut 147 { resetOutPort with state := 2 }) ∧
    HoldsOut 2 35 (withOut 147 { resetOutPort with state := 2, event := 1, timer := 34 }) ∧
    HoldsOut 2 34 (withOut 147 { resetOutPort with state := 2, event := 1, timer := 33 }) ∧
    HoldsOut 2 35 (withOut 2047 { resetOutPort with state := 2, timer := 34 }) := by decide

theorem witness_OutWaitPin6Low :
    HoldsOut 3 2 (withOut 2047 { resetOutPort with state := 3, timer := 1 }) ∧
    HoldsOut 3 1 (withOut 2047 { resetOutPort with state := 3 }) := by decide

/-- The balance band at its lower end; just outside it, with Float ≈ Low at the last near value and not at the next. -/
theorem witness_OutConnectionDecides :
    (∀ l ∈ [matching 1965 0, matching 2129 2179, matching 2129 2180, matching 2129 2079], (l.outAt 0).state = 4) ∧
    (1965 ≤ ((matching 1965 0).outAt 0).value5Float.toNat ∧ ((matching 1965 0).outAt 0).value5Float.toNat < 2129) ∧
    ¬((matching 2129 2179).outAt 0).value5Float.toNat < 2129 ∧
    (((matching 2129 2179).outAt 0).value5Low.toNat : Int) - 50 ≤ 2129 ∧
    (2129 : Int) < ((matching 2129 2179).outAt 0).value5Low.toNat + 50 ∧
    ¬(((matching 2129 2180).outAt 0).value5Low.toNat : Int) - 50 ≤ 2129 ∧
    ¬(2129 : Int) < ((matching 2129 2079).outAt 0).value5Low.toNat + 50 := by decide

theorem witness_OutWaitPin5Low :
    ((withOut 300 { resetOutPort with state := 5, timer := 1 }).outAt 0).state = 5 ∧
    2 ≤ tickUp prm ((withOut 300 { resetOutPort with state := 5, timer := 1 }).outAt 0).timer ∧
    tickUp prm ((withOut 300 { resetOutPort with state := 5 }).outAt 0).timer < 2 := by decide

theorem witness_OutWaitPortOpen :
    ChangesOut 6 (withOut 2129 { resetOutPort with state := 6 }) ∧
    HoldsOut 6 10 (withOut 2047 { resetOutPort with state := 6, connEvent := 3, timer := 9 }) ∧
    HoldsOut 6 9 (withOut 2047 { resetOutPort with state := 6, connEvent := 3, timer := 8 }) ∧
    HoldsOut 6 10 (withOut 2047 { resetOutPort with state := 6, timer := 9 }) := by decide

/-- With a tree; without one, on the platform's block and with a disabled port in `PIN2_LOW`. -/
theorem witness_DcmTickStepsEachPortAlone :
    TreeReady base ∧ TreeReady (treeless base) ∧
    TreeReady (treeless (withIn 0 { idle with state := 4, fsmEnabled := false })) :=
  ⟨.inl (by decide), .inr (by decide), .inr (by decide)⟩

/-- A port that would run `PIN2_LOW` with no tree; a block whose tick does not stop. -/
theorem witness_DcmTickStopsOnlyForMissingTree :
    stop (exec .tickD (treeless (withIn 0 { idle with state := 4 }))) =
      some .pin2TreeAbsent ∧
    stop (exec .tickD base) = none ∧ (treeless base).cfg.pin2Tree = none := by decide

/-- T1.5 (a). -/
theorem witness_InputConnectionLatency :
    TreeNeverMissed (withIn 3500 idle) ∧ TreeNeverMissed (treeless (withIn 3500 idle)) ∧ 35 < 2 ^ base.cfg.timerBits ∧
    ((withIn 3500 idle).inAt 0).fsmEnabled = true ∧
    ((withIn 3500 idle).inAt 0).state = 0 ∧ (evIn ((withIn 3500 idle).ctxIn 0)).getLsbD 0 = true ∧
    (evIn ((withIn 3500 idle).ctxIn 0)).getLsbD 1 = false ∧ 1 ≤ 40 ∧ 40 ≤ 40 :=
  ⟨.inl (by decide), .inr (by decide), by decide⟩

/-- T1.6. -/
theorem witness_OutputConnectionLatency :
    TreeNeverMissed (withOut 147 resetOutPort) ∧ TreeNeverMissed (treeless (withOut 147 resetOutPort)) ∧
    35 < 2 ^ base.cfg.timerBits ∧ ((withOut 147 resetOutPort).outAt 0).state = 0 ∧
    (evOut ((withOut 147 resetOutPort).ctxOut 0)).getLsbD 0 = true ∧ 1 ≤ 41 ∧ 41 ≤ 41 :=
  ⟨.inl (by decide), .inr (by decide), by decide⟩

theorem witness_EmptyPortSettlesInFloating :
    TreeNeverMissed base ∧ TreeNeverMissed (treeless base) ∧ 2 < 2 ^ base.cfg.timerBits ∧
    (base.inAt 0).fsmEnabled = true ∧ (base.inAt 0).state = 0 ∧ evIn (base.ctxIn 0) = 0 ∧ 3 ≤ 3 :=
  ⟨.inl (by decide), .inr (by decide), by decide⟩

theorem witness_EnableCharacterEffects :
    (base.inAt 0).fsmEnabled = true ∧ ((withIn 0 { idle with fsmEnabled := false }).inAt 0).fsmEnabled = false := by decide

theorem witness_EnableWriteIsPerPort :
    (List.replicate 12 (0x30 : Byte)).length = base.cfg.numIn ∧ (List.replicate 11 (0x30 : Byte)).length ≠ base.cfg.numIn ∧
    (List.replicate 12 (0x30 : Byte))[11]? = some base.cfg.eCharDisable ∧
    (List.replicate 12 (0x31 : Byte))[11]? = some base.cfg.eCharEnable ∧
    base.cfg.eCharDisable ≠ base.cfg.eCharEnable ∧ (base.inAt 11).fsmEnabled = true ∧
    ((base.setIn 11 { idle with fsmEnabled := false }).inAt 11).fsmEnabled = false := by decide

theorem witness_ForceWriteIsPerPort :
    (List.replicate 12 (0xFF : Byte)).length = base.cfg.numIn ∧ (List.replicate 13 (0xFF : Byte)).length ≠ base.cfg.numIn ∧
    (List.replicate 12 (0xFF : Byte))[11]? = some 0xFF := by decide

/-- The last port of each kind. -/
theorem witness_ClearUpdateFlags : 11 < base.cfg.numIn ∧ 3 < base.cfg.numOut := by decide

theorem witness_BareColorCommands :
    (base.inAt 0).fsmEnabled = true ∧ ((withIn 0 { idle with fsmEnabled := false }).inAt 0).fsmEnabled = false := by decide

theorem witness_RawpinDrivesPins :
    (base.inAt 0).fsmEnabled = true ∧ ((withIn 0 { idle with fsmEnabled := false }).inAt 0).fsmEnabled = false ∧
    (∃ tab, prm.rawpinDecode = some tab) ∧ ({ prm with rawpinDecode := none } : Params).rawpinDecode = none :=
  ⟨by decide, by decide, ⟨_, rfl⟩, rfl⟩

/-- The codes of program P2. -/
theorem witness_ForcedClassRoundTrip :
    TreeNeverMissed base ∧ TreeNeverMissed (treeless base) ∧
    ((List.replicate 12 (0x7E : Byte)).set 2 0x7A).length = base.cfg.numIn ∧
    ((List.replicate 12 (0x7E : Byte)).set 2 0x7A)[2]? = some 0x7A ∧ base.cfg.eCharDisable ≠ base.cfg.eCharEnable :=
  ⟨.inl (by decide), .inr (by decide), by decide⟩

/-- A ring position and the first past the ring; ports past the block's. -/
theorem witness_HostReadsLogicalFields :
    (base.inAt 11).ring[3]? = some ⟨0, 0⟩ ∧ (base.inAt 11).ring.length ≤ 4 ∧ 11 < base.cfg.numIn ∧ 3 < base.cfg.numOut ∧
    base.cfg.numIn ≤ 12 ∧ base.cfg.numOut ≤ 4 := by decide

theorem witness_OnlySamplerWritesSamplerFields :
    (∀ r, Instr.tickD ≠ .tickS r) ∧ ∃ t, exec .tickD base = .next t := ⟨nofun, _, rfl⟩

theorem witness_OnlyEnableCommandWritesFsmEnabled :
    (∀ cs, Instr.tickD ≠ .writeE cs) ∧ (∀ i, Instr.tickD ≠ .eDisable i) ∧ (∀ i, Instr.tickD ≠ .eEnable i) ∧
    ∃ t, exec .tickD base = .next t := ⟨nofun, nofun, nofun, _, rfl⟩

theorem witness_OnlyDcmWritesDcmFields :
    Instr.eDisable 3 ≠ .tickD ∧ (∀ p, (encode p (.eDisable 3)).format ≠ .inState) ∧
    (∀ p, (encode p (.eDisable 3)).format ≠ .outState) ∧ ∃ t, exec (.eDisable 3) base = .next t :=
  ⟨nofun, fun _ => nofun, fun _ => nofun, _, rfl⟩

theorem witness_ParametersNeverChange : ∃ t, exec .tickD base = .next t := ⟨_, rfl⟩

/-- Every slot of the empty block holds a 12-bit count. -/
theorem slots_base (x : Slot) : (base.bufAt x).toNat < 4096 := by
  have draw : ∀ y, (resetSlot draws y).toNat < 4096 := by
    intro y
    have := (draws.sample y).isLt
    simp only [resetSlot, BitVec.toNat_setWidth]
    omega
  have key : ∀ l : List Cell16, (∀ v ∈ l, v.toNat < 4096) → ∀ i, (portAt l i).toNat < 4096 := by
    intro l h i
    unfold portAt
    rw [List.getD_eq_getElem?_getD]
    cases hx : l[i]? with
    | none => decide
    | some v => exact h v (List.mem_of_getElem? hx)
  have mapped : ∀ (n : Nat) (f : Nat → Slot) (i : Nat),
      (portAt ((List.range n).map fun k => resetSlot draws (f k)) i).toNat < 4096 := by
    refine fun n f => key _ fun v hv => ?_
    obtain ⟨k, -, rfl⟩ := List.mem_map.mp hv
    exact draw _
  cases x with
  | inPin1 i => exact mapped _ _ i
  | inPin6 i => exact mapped _ _ i
  | outPin5 j => exact mapped _ _ j
  | rail k =>
    have : base.bufAt (.rail k) = resetSlot draws (.rail k) := by
      simp [base, State.bufAt, SampleBuf.read, State.resetWith]
    rw [this]
    exact draw _

/-- The invariants hold in the empty block with a DCM strobe waiting, and its step answers a next state. -/
theorem witness_StepKeepsInv : Inv (asked (.strobe 0b10 0)) ∧ ∃ t, step (asked (.strobe 0b10 0)) = .next t :=
  ⟨{ cfg := by decide, shaped := ⟨rfl, rfl, rfl, rfl, rfl, rfl, rfl⟩, ptr := by decide, buf := fun x => slots_base x
     inTimer := by decide, outTimer := by decide, ring := by decide, ringIdx := by decide, inState := by decide
     inOldState := by decide, outState := by decide, outOldState := by decide, manual := by decide
     colorRes := by decide, env := by unfold answersFit; decide, pending := by unfold answersFit; decide }, _, rfl⟩

theorem witness_StepKeepsSessionInv :
    SessionInv (asked (.strobe 0b10 0)) ∧ ∃ t, step (asked (.strobe 0b10 0)) = .next t :=
  ⟨⟨by decide, by decide⟩, _, rfl⟩

theorem witness_StepKeepsPlatformInv :
    PlatformInv (asked (.strobe 0b10 0)) ∧ ∃ t, step (asked (.strobe 0b10 0)) = .next t :=
  ⟨⟨by decide, by decide, by decide, by decide, by decide⟩, _, rfl⟩

/-- Program P3: a block of one input and one output port is launched, and a DCM tick steps its two ports. -/
theorem test_launch_P3 :
    seen (fun t => (t.inp.map (fun p => p.state), t.out.map (fun p => p.state)))
      (andThen (launch prmOne draws) (exec .tickD)) = some ([1], [1]) := by decide

/-- R121 and R7: tables too short, a ring of no entry. -/
theorem test_launch_refused :
    stop (launch prmShort draws) = some .scheduleTablesIllFormed ∧
    stop (launch { prm with ringDepth := 0 } draws) = some .ringDepthZero ∧
    stop (launch { prmOne with numIn := 2 } draws) = some .scheduleTablesIllFormed := by decide

/-- R14, R30: a 3-bit timer stops at 7. -/
theorem test_timer_width :
    seen (fun t => (t.inAt 0).timer)
      (exec (.inDisabled 0) { withIn 4095 { idle with state := 16 } with cfg := { prm with timerBits := 3 } }) = some 0 ∧
    seen (fun t => (t.inAt 0).timer)
      (exec (.inFloating 0) { withIn 4095 { idle with state := 2, timer := 7 } with cfg := { prm with timerBits := 3 } }) =
        some 7 := by decide

/-- A row for a port past the block's (log 12). -/
theorem test_portOutside :
    stop (exec (.inInit 12) base) = some .portOutside ∧ stop (exec (.clrupdOut 4) base) = some .portOutside := by decide

/-- R269: a byte of the colour result, and no field past the block's ports. -/
theorem test_hostRead :
    base.hostRead (.colorRes 0) = some (.bytes [0, 0]) ∧ base.hostRead (.outConn 3) = some (.code 126) ∧
    base.hostRead (.sample (.rail 0)) = some (.cell 0) ∧ base.hostRead (.outConn 4) = none ∧
    base.hostRead (.ring 0 4) = none := by decide

/-- Tables that satisfy R121, with a ring and with none; tables that do not. -/
theorem witness_LaunchRefusesIllFormedTables :
    (prmOne.schedShort.entries.length < prmOne.schedLong.entries.length ∧
      ∀ tab ∈ [prmOne.schedShort, prmOne.schedLong],
        (∀ e ∈ tab.entries, ∀ i, e.dest = some (Slot.inPin1 i) ∨ e.dest = some (Slot.inPin6 i) → i < prmOne.numIn) ∧
        (∀ e ∈ tab.entries, ∀ j, e.dest = some (Slot.outPin5 j) → j < prmOne.numOut) ∧
        (∀ i < prmOne.numIn, ∃ e ∈ tab.entries, e.dest = some (Slot.inPin1 i)) ∧
        (∀ i < prmOne.numIn, ∃ e ∈ tab.entries, e.dest = some (Slot.inPin6 i)) ∧
        (∀ j < prmOne.numOut, ∃ e ∈ tab.entries, e.dest = some (Slot.outPin5 j))) ∧
    1 ≤ prmOne.ringDepth ∧ ({ prmOne with ringDepth := 0 } : Params).ringDepth = 0 ∧
    ¬prmShort.schedShort.entries.length < prmShort.schedLong.entries.length := by
  refine ⟨⟨by decide, ?_⟩, by decide, rfl, by decide⟩
  intro tab ht
  rcases List.mem_cons.1 ht with rfl | ht
  · refine ⟨?_, ?_, by decide, by decide, by decide⟩ <;>
      simp [prmOne, Schedule.entries]
  · rw [List.mem_singleton.1 ht]
    refine ⟨?_, ?_, by decide, by decide, by decide⟩ <;>
      simp [prmOne, Schedule.entries]

end Sys2Proof.Tests
end

section
/-! SUPPORT. The invariant of the block, port by port: what it asks of one port, that every operation on a port keeps
that, and that every row a request comes to keeps the whole; then the comparators, and the statements of the scope. -/

namespace Sys2Proof.Machine

open Sys2Proof Config

/-! ## What the invariant asks of one port -/

/-- The clauses of `Inv` on input port `i`'s record and its fields of `Sh` (R30, R36, R43, R94, R302). -/
structure InPortOk (cfg : Params) (p : InPort) (h : InShared) : Prop where
  timer : p.timer < 2 ^ cfg.timerBits
  ring : p.ring.length = cfg.ringDepth
  ringIdx : p.ringIdx < cfg.ringDepth
  state : p.state.toNat ≤ 16
  oldState : p.oldState.toNat ≤ 16
  manual : p.fsmEnabled = false ↔ p.state = 16#5
  colorRes : h.colorRes.length = cfg.colorResultLen

/-- The clauses of `Inv` on output port `j`'s record (R39, R94, R231). -/
structure OutPortOk (cfg : Params) (p : OutPort) : Prop where
  timer : p.timer < 2 ^ cfg.timerBits
  state : p.state.toNat ≤ 6
  oldState : p.oldState.toNat ≤ 6

theorem Inv.inOk {s : State} (h : Inv s) {i : Nat} (hi : i < s.cfg.numIn) :
    InPortOk s.cfg (s.inAt i) (s.shInAt i) :=
  ⟨h.inTimer i hi, h.ring i hi, h.ringIdx i hi, h.inState i hi, h.inOldState i hi, h.manual i hi, h.colorRes i hi⟩

theorem Inv.outOk {s : State} (h : Inv s) {j : Nat} (hj : j < s.cfg.numOut) : OutPortOk s.cfg (s.outAt j) :=
  ⟨h.outTimer j hj, h.outState j hj, h.outOldState j hj⟩

/-- The invariant of a next state, from its clauses on the lists, the sampler, the buffer and each port alone. -/
theorem Inv.next {s t : State} (h : Inv s) (hs : SameInputs s t) (hsh : Shaped t)
    (hptr : t.samp.ptr < t.table.entries.length) (hbuf : ∀ x, (t.bufAt x).toNat < 4096)
    (hin : ∀ i < s.cfg.numIn, InPortOk s.cfg (t.inAt i) (t.shInAt i))
    (hout : ∀ j < s.cfg.numOut, OutPortOk s.cfg (t.outAt j)) : Inv t := by
  obtain ⟨hc, he, hp⟩ := hs
  rw [← hc] at hin hout
  exact {
    cfg := hc ▸ h.cfg
    shaped := hsh
    ptr := hptr
    buf := hbuf
    inTimer := fun i hi => (hin i hi).timer
    outTimer := fun j hj => (hout j hj).timer
    ring := fun i hi => (hin i hi).ring
    ringIdx := fun i hi => (hin i hi).ringIdx
    inState := fun i hi => (hin i hi).state
    inOldState := fun i hi => (hin i hi).oldState
    outState := fun j hj => (hout j hj).state
    outOldState := fun j hj => (hout j hj).oldState
    manual := fun i hi => (hin i hi).manual
    colorRes := fun i hi => (hin i hi).colorRes
    env := by rw [hc, he]; exact h.env
    pending := by rw [hc, hp]; exact h.pending }

/-- Taking a request keeps the invariant: the answers it brings keep their contract (R12). -/
theorem Inv.accept {s : State} (h : Inv s) {a : Arrival} {rest : List Arrival} (hp : s.pending = a :: rest) :
    Inv (s.accept a rest) := by
  have hall : ∀ b ∈ a :: rest, answersFit s.cfg b.env := hp ▸ h.pending
  obtain ⟨ha, hrest⟩ := List.forall_mem_cons.1 hall
  obtain ⟨g1, g2, g3, g4, g5, g6, g7⟩ := h.shaped
  exact { h with shaped := ⟨g1, g2, g3, g4, g5, g6, g7⟩, env := ha, pending := hrest }

/-! ## Writing back a port that is as the invariant asks -/

theorem Inv.putIn {s : State} (h : Inv s) {i : Nat} (hi : i < s.cfg.numIn) {w : InView}
    (hw : InPortOk s.cfg w.port w.sh) : Inv (s.putIn i w) := by
  refine h.next ⟨rfl, rfl, rfl⟩ (h.shaped.putIn hi w) h.ptr h.buf (fun k hk => ?_) fun j hj => h.outOk hj
  rw [inAt_putIn, shInAt_putIn]
  split
  · exact hw
  · exact h.inOk hk

theorem Inv.putOut {s : State} (h : Inv s) {j : Nat} (hj : j < s.cfg.numOut) {w : OutView}
    (hw : OutPortOk s.cfg w.port) : Inv (s.putOut j w) := by
  refine h.next ⟨rfl, rfl, rfl⟩ (h.shaped.putOut hj w) h.ptr h.buf (fun i hi => h.inOk hi) fun k hk => ?_
  rw [outAt_putOut]
  split
  · exact hw
  · exact h.outOk hk

/-- An operation on one port's view that keeps what the invariant asks of the port keeps the invariant. -/
theorem Inv.runIn {s : State} (h : Inv s) {i : Nat} (hi : i < s.cfg.numIn) {f : InCtx → InView → InView}
    (hf : ∀ c v, InPortOk c.cfg v.port v.sh → InPortOk c.cfg (f c v).port (f c v).sh) : Inv (s.runIn i f) :=
  h.putIn hi (hf (s.ctxIn i) (s.viewIn i) (h.inOk hi))

/-- The same for an operation on every input port in turn. -/
theorem Inv.foldl_runIn {s : State} (h : Inv s) {f : Nat → InCtx → InView → InView}
    (hf : ∀ i c v, InPortOk c.cfg v.port v.sh → InPortOk c.cfg (f i c v).port (f i c v).sh) :
    Inv ((List.range s.cfg.numIn).foldl (fun s i => s.runIn i (f i)) s) :=
  (List.foldlRecOn (motive := fun u => Inv u ∧ u.cfg = s.cfg) _ _ ⟨h, rfl⟩ fun u hu i hi =>
    ⟨hu.1.runIn (by rw [hu.2]; exact List.mem_range.1 hi) (hf i), hu.2⟩).1

/-! ## The host's commands on one port -/

/-- An `'e'` character disables a port together with its state, or enables it together with its state (R262, R302). -/
theorem InPortOk.eCharView {c : InCtx} {v : InView} (h : InPortOk c.cfg v.port v.sh) (ch : Byte) :
    InPortOk c.cfg (eCharView ch c v).port (eCharView ch c v).sh := by
  have h0 : 0 < 2 ^ c.cfg.timerBits := Nat.two_pow_pos _
  rcases eCharView_cases ch c v with ⟨-, e⟩ | ⟨-, e⟩ | e <;> rw [e]
  · exact ⟨h0, h.ring, h.ringIdx, le_rfl, h.oldState, iff_of_true rfl rfl, h.colorRes⟩
  · exact ⟨h0, h.ring, h.ringIdx, Nat.zero_le _, h.oldState, by simp [enableView, InState.code], h.colorRes⟩
  · exact h

theorem InPortOk.forceView {c : InCtx} {v : InView} (h : InPortOk c.cfg v.port v.sh) (k : Byte) :
    InPortOk c.cfg (forceView k c v).port (forceView k c v).sh := by
  unfold Machine.forceView
  split
  · exact h
  · exact { h with }

theorem InPortOk.openSession {c : InCtx} {v : InView} (h : InPortOk c.cfg v.port v.sh) (b : Byte) :
    InPortOk c.cfg (v.openSession c b).port (v.openSession c b).sh := { h with }

theorem InPortOk.driveView {c : InCtx} {v : InView} (h : InPortOk c.cfg v.port v.sh) (ds : List (Role × ClockFlag)) :
    InPortOk c.cfg (driveView ds c v).port (driveView ds c v).sh := by
  obtain ⟨hsh, hport, -⟩ := driveView_frame c ds v
  rw [hsh, hport]
  exact { h with }

/-- A colour command byte keeps the invariant (R266). -/
theorem Inv.bareColor {s t : State} (h : Inv s) {b : Byte} {i : Nat} (ht : bareColor b i s = .next t) : Inv t := by
  obtain ⟨hi, ht⟩ := onIn_eq_next ht
  cases ht
  split
  · exact h
  · exact h.runIn hi fun c v hv => hv.openSession b

/-! ## The DCM tick -/

/-- A listed code names a state (R86, R94). -/
theorem inStateOf_of_le {st : BitVec 5} (h : st.toNat ≤ 16) : ∃ x, inStateOf st = some x := by
  cases hx : inStateOf st with
  | none => have := inStateOf_none hx; omega
  | some x => exact ⟨x, rfl⟩

/-- A rule leaves its port in a listed state, `DISABLED` exactly where it started there (R94, R302). -/
theorem successors_listed {x : InState} {st : BitVec 5} (h : st ∈ successors x) :
    st.toNat ≤ 16 ∧ (st = 16#5 ↔ x.code = 16#5) := by
  revert st
  cases x <;> decide

/-- One input port's step keeps what the invariant asks of the port. -/
theorem InPortOk.step {c : InCtx} {v w : InView} (h : InPortOk c.cfg v.port v.sh)
    (ha : c.ans.result.length = c.cfg.colorResultLen) (hw : inStepView c v = some w) :
    InPortOk c.cfg w.port w.sh := by
  obtain ⟨x, hx⟩ := inStateOf_of_le h.state
  obtain ⟨hold, hfsm, hring, hidx, -, -⟩ := inStepView_frame hw
  have hf := inStepView_facts h.manual hx hw
  obtain ⟨hle, h16⟩ := successors_listed hf.state
  exact {
    timer := hf.timer.elim (fun e => e ▸ h.timer) id
    ring := hring ▸ h.ring
    ringIdx := hidx ▸ h.ringIdx
    state := hle
    oldState := hold ▸ h.state
    manual := by rw [hfsm, h16, ← code_of_inStateOf hx]; exact h.manual
    colorRes := hf.colorRes.elim (fun e => e ▸ h.colorRes) fun e => e ▸ ha }

/-- One output port's step keeps what the invariant asks of the port. -/
theorem OutPortOk.step {c : OutCtx} {v : OutView} (h : OutPortOk c.cfg v.port) :
    OutPortOk c.cfg (outStepView c v).port where
  timer := outDispatchView_timer c _ h.timer
  state := outDispatchView_state c _
  oldState := by rw [outStepView_oldState]; exact h.state

theorem Inv.stepIn {s t : State} (h : Inv s) {i : Nat} (hi : i < s.cfg.numIn) (ht : stepIn i s = .next t) :
    Inv t ∧ t.cfg = s.cfg := by
  rw [stepIn_eq i s hi] at ht
  cases hv : inStepView (s.ctxIn i) (s.viewIn i) with
  | none => rw [hv] at ht; cases ht
  | some w =>
    rw [hv] at ht; cases ht
    exact ⟨h.putIn hi (InPortOk.step (c := s.ctxIn i) (v := s.viewIn i) (h.inOk hi) (h.env i hi) hv), rfl⟩

theorem Inv.stepOut {s t : State} (h : Inv s) {j : Nat} (hj : j < s.cfg.numOut) (ht : stepOut j s = .next t) :
    Inv t ∧ t.cfg = s.cfg := by
  rw [stepOut_eq j s hj] at ht
  cases ht
  exact ⟨h.putOut hj (OutPortOk.step (c := s.ctxOut j) (v := s.viewOut j) (h.outOk hj)), rfl⟩

/-- A DCM tick keeps the invariant: each port's step in turn does. -/
theorem Inv.tickD {s t : State} (h : Inv s) (ht : execTickD s = .next t) : Inv t := by
  obtain ⟨u, hu, ht⟩ := andThen_eq_next ht
  have hin : Inv u ∧ u.cfg = s.cfg :=
    forEach_induct (P := fun v => Inv v ∧ v.cfg = s.cfg) (fun i hi v w ⟨hv, hc⟩ hw =>
      (hv.stepIn (by rw [hc]; exact List.mem_range.1 hi) hw).imp id fun e => e.trans hc) ⟨h, rfl⟩ hu
  exact (forEach_induct (P := fun v => Inv v ∧ v.cfg = s.cfg) (fun j hj v w ⟨hv, hc⟩ hw =>
    (hv.stepOut (by rw [hc]; exact List.mem_range.1 hj) hw).imp id fun e => e.trans hc) hin ht).1

/-! ## The sampler tick -/

/-- The pointer lies in its table after a tick: it stays short of the length, or starts the next table (R23, R116). -/
theorem samplerTick_ptr_lt {s : State} (h : s.samp.ptr < s.table.entries.length) (e : ScheduleEntry) (r : Cell16) :
    (samplerTick e r s).samp.ptr < (samplerTick e r s).table.entries.length := by
  obtain ⟨hc, -, -, -, -, -, hsamp, -, -, -⟩ := samplerTick_eq e r s
  by_cases hend : s.samp.ptr + 1 = s.table.entries.length
  · rw [if_pos hend] at hsamp
    rw [hsamp]
    exact Nat.succ_pos _
  · rw [if_neg hend] at hsamp
    have htable : (samplerTick e r s).table = s.table := by simp only [State.table, hc, hsamp]
    rw [htable, hsamp]
    show s.samp.ptr + 1 < _
    omega

/-- A tick that clocks a port's pins and pushes its ring keeps what the invariant asks of the record (R36, R118). -/
theorem InPortOk.samplerPort {s : State} {i : Nat} {h : InShared} (hp : InPortOk s.cfg (s.inAt i) h)
    (e : ScheduleEntry) (r : Cell16) : InPortOk s.cfg (samplerPort e r s i) h := by
  have hclock : ∀ d, InPortOk s.cfg { s.inAt i with drv := d } h := fun d => { hp with }
  have hpush : ∀ (p : InPort) (x : RingEntry), InPortOk s.cfg p h →
      InPortOk s.cfg { p with ring := p.ring.set p.ringIdx x, ringIdx := (p.ringIdx + 1) % s.cfg.ringDepth } h :=
    fun p x hp => { hp with
      ring := by rw [List.length_set]; exact hp.ring
      ringIdx := Nat.mod_lt _ (Nat.zero_lt_of_lt hp.ringIdx) }
  unfold Machine.samplerPort
  simp only []
  split_ifs
  · exact hpush _ _ (hclock _)
  · exact hpush _ _ hp
  · exact hclock _
  · exact hp

/-- A masked answer is a 12-bit count (R25, R114). -/
theorem and_0FFF_lt (r : Cell16) : (r &&& 0x0FFF).toNat < 4096 :=
  Nat.lt_succ_of_le (BitVec.toNat_and r 0x0FFF ▸ Nat.and_le_right)

/-- A sampler tick keeps the invariant. -/
theorem Inv.tickS {s t : State} (h : Inv s) {r : Cell16} (ht : Machine.exec (.tickS r) s = .next t) : Inv t := by
  obtain ⟨e, he, rfl⟩ := tickS_next ht
  obtain ⟨hc, henv, hpend, hbuf, hout, -, -, hin, hsh, -⟩ := samplerTick_eq e r s
  refine h.next ⟨hc, henv, hpend⟩
    (h.shaped.samplerTick (fun x hx => dest_exists h.cfg (List.mem_of_getElem? he) hx) r)
    (samplerTick_ptr_lt h.ptr e r) (fun x => ?_) (fun i hi => ?_) fun j hj => ?_
  · rw [hbuf x]
    split
    · exact and_0FFF_lt r
    · exact h.buf x
  · have hp := (h.inOk hi).samplerPort e r
    rw [hin i, hsh i]
    split
    · exact { hp with }
    · exact hp
  · rw [hout j]; exact h.outOk hj

/-! ## Every row that a request comes to -/

/-- Clearing an input port's update flag keeps the invariant (R268). -/
theorem Inv.clearInUpd {s : State} (h : Inv s) {i : Nat} (hi : i < s.cfg.numIn) :
    Inv (s.setShIn i { s.shInAt i with upd := false }) := by
  refine h.next ⟨rfl, rfl, rfl⟩ (h.shaped.setShIn hi _) h.ptr h.buf (fun k hk => ?_) fun j hj => h.outOk hj
  have hk := h.inOk hk
  rw [inAt_setShIn, shInAt_setShIn]
  split
  · next e => subst e; exact { hk with }
  · exact hk

/-- Every row that a request comes to keeps the invariant. -/
theorem Inv.exec {s t : State} (h : Inv s) {ins : Instr} (hr : Requested ins)
    (ht : Machine.exec ins s = .next t) : Inv t := by
  have hp := hr Platform.standard
  cases ins <;> try (simp [encode, Encoding.format] at hp; done)
  case tickS r => exact h.tickS ht
  case tickD => exact h.tickD ht
  case writeE cs =>
    cases ht; split
    · exact h.foldl_runIn fun i c v hv => hv.eCharView (cs.getD i 0x2D)
    · exact h
  case writeT ks =>
    cases ht; split
    · exact h.foldl_runIn fun i c v hv => hv.forceView (ks.getD i 0)
    · exact h
  case bareColor0D => exact h.bareColor ht
  case bareColor0E => exact h.bareColor ht
  case bareColor0F => exact h.bareColor ht
  case bareColor10 => exact h.bareColor ht
  case bareColor11 => exact h.bareColor ht
  case bareRawpin i b =>
    obtain ⟨hi, ht⟩ := onIn_eq_next ht
    split at ht
    · cases ht; exact h
    · split at ht
      · cases ht; exact h.runIn hi fun c v hv => hv.driveView _
      · cases ht
  case clrupdIn i => obtain ⟨hi, ht⟩ := onIn_eq_next ht; cases ht; exact h.clearInUpd hi
  case clrupdOut j =>
    obtain ⟨hj, ht⟩ := onOut_eq_next ht
    cases ht
    exact h.next ⟨rfl, rfl, rfl⟩ (h.shaped.setShOut hj _) h.ptr h.buf (fun i hi => h.inOk hi) fun k hk => h.outOk hk

/-! ## Comparators -/

/-- `inband` over the integers (R141). -/
theorem inband_iff (x lo hi : Int) : inband x lo hi = true ↔ lo ≤ x ∧ x < hi := by
  simp [inband]

/-- `near` is the band of its tolerance (R142). -/
theorem near_iff (x ref tol : Nat) : near x ref tol = true ↔ (ref : Int) - tol ≤ x ∧ (x : Int) < ref + tol :=
  inband_iff _ _ _

end Sys2Proof.Machine

open Sys2Proof Sys2Proof.Config Sys2Proof.Machine

/-- Settles O55: taking a request keeps the invariant, and so does every row that it comes to. -/
theorem stepKeepsInv : Obligations.StepKeepsInv := fun _ _ hs h =>
  step_induct (fun _ _ _ h hp => h.accept hp) (fun _ _ _ hr h ht => h.exec hr ht) hs h

/-- Settles O1: the conversions are their formulas, and the constants are computed from the values of R7. -/
theorem thresholdsAndTicks : Obligations.ThresholdsAndTicks :=
  ⟨fun _ => rfl, fun _ => rfl, by decide⟩

/-- Settles O9: a pointer past the table finds no entry, and each port row stops before its meaning is run. -/
theorem missingEntriesAndPortsStop : Obligations.MissingEntriesAndPortsStop := by
  refine ⟨fun s r hptr => ?_, fun s i hi => ⟨fun ins hins => ?_, fun b => ⟨?_, ?_⟩, fun code => ?_⟩,
    fun s j hj ins hins => ?_⟩
  · show execTickS r s = _
    rw [execTickS, List.getElem?_eq_none hptr]
  · fin_cases hins <;> exact onIn_of_le hi _
  · exact onIn_of_le hi _
  · exact onIn_of_le hi _
  · exact onIn_of_le hi _
  · fin_cases hins <;> exact onOut_of_le hj _

/-- Settles O15: the corner values of R143 follow from the band that `near` is. -/
theorem comparatorsAreHalfOpen : Obligations.ComparatorsAreHalfOpen := by
  refine ⟨fun x t => ⟨decide_eq_true_iff, decide_eq_true_iff⟩, inband_iff, near_iff, fun ref href => ?_⟩
  simp only [← Bool.not_eq_true, near_iff]
  omega
end

section
/-! SUPPORT. What each row leaves of the parameters, the enables and the sessions, said once for each format of the opcode
table; what `INIT` and the clocking leave on the pins; then the statements of the state. -/

namespace Sys2Proof.Machine

open Sys2Proof Config

/-! ## What a row leaves, by the format of its encoding -/

theorem SameButIn.refl (i : Nat) (s : State) : SameButIn i s s :=
  ⟨rfl, rfl, fun _ => rfl, fun _ _ => rfl, fun _ _ => rfl, fun _ => rfl, fun _ => rfl, rfl, rfl⟩

theorem SameButIn.inputs {i : Nat} {s t : State} (h : SameButIn i s t) : SameInputs s t := ⟨h.cfg, h.env, h.pending⟩

/-- What is so of every input record before and of the one that changed is so of every record after. -/
theorem SameButIn.forall_inAt {i : Nat} {s t : State} (h : SameButIn i s t) {R : InPort → InPort → Prop}
    (hr : ∀ p, R p p) (hi : R (s.inAt i) (t.inAt i)) (k : Nat) : R (s.inAt k) (t.inAt k) := by
  by_cases hk : k = i
  · rw [hk]; exact hi
  · rw [h.inp k hk]; exact hr _

/-- Writing port `i`'s fields of `Sh` changes these alone. -/
theorem sameButIn_setShIn (s : State) (i : Nat) (h : InShared) : SameButIn i s (s.setShIn i h) :=
  { SameButIn.refl i s with shIn := fun k hk => by simp [hk] }

/-- Writing output port `j`'s fields of `Sh` changes these alone. -/
theorem sameButOut_setShOut (s : State) (j : Nat) (h : OutShared) : SameButOut j s (s.setShOut j h) :=
  ⟨rfl, rfl, fun _ => rfl, fun _ => rfl, fun _ => rfl, fun _ _ => rfl, fun k hk => by simp [hk], rfl, rfl⟩

/-- What an operation on the view of port `i` leaves in the port's record. -/
theorem inAt_runIn_self (s : State) (i : Nat) (f : InCtx → InView → InView) :
    (s.runIn i f).inAt i = (f (s.ctxIn i) (s.viewIn i)).port := by
  rw [State.runIn, inAt_putIn, if_pos rfl]

theorem shInAt_runIn_self (s : State) (i : Nat) (f : InCtx → InView → InView) :
    (s.runIn i f).shInAt i = (f (s.ctxIn i) (s.viewIn i)).sh := by
  rw [State.runIn, shInAt_putIn, if_pos rfl]

theorem calls_runIn (s : State) (i : Nat) (f : InCtx → InView → InView) :
    (s.runIn i f).calls = s.calls ++ (f (s.ctxIn i) (s.viewIn i)).calls := rfl

/-- The strobes are the two ticks (R80). -/
theorem strobe_cases {p : Platform} {ins : Instr} (hf : (encode p ins).format = .strobe) :
    (∃ r, ins = .tickS r) ∨ ins = .tickD := by
  cases ins <;> first | (simp [encode, Encoding.format] at hf; done) | skip
  case tickS r => exact .inl ⟨r, rfl⟩
  case tickD => exact .inr rfl

/-- The control writes that are rows are the `'e'` and the `'t'` write (R81). -/
theorem hostWrite_cases {p : Platform} {ins : Instr} (hf : (encode p ins).format = .hostWrite) :
    (∃ cs, ins = .writeE cs) ∨ ∃ ks, ins = .writeT ks := by
  cases ins <;> first | (simp [encode, Encoding.format] at hf; done) | skip
  case writeE cs => exact .inl ⟨cs, rfl⟩
  case writeT ks => exact .inr ⟨ks, rfl⟩

/-- A sampler tick writes drives and rings of input records, nothing else of them (R113). -/
theorem tickS_next_inAt {r : Cell16} {s t : State} (h : exec (.tickS r) s = .next t) :
    SameInputs s t ∧ ∀ i, ∃ d g k, t.inAt i = { s.inAt i with drv := d, ring := g, ringIdx := k } := by
  obtain ⟨e, -, rfl⟩ := tickS_next h
  obtain ⟨hc, he, hp, -, -, -, -, hin, -⟩ := samplerTick_eq e r s
  refine ⟨⟨hc, he, hp⟩, fun i => ?_⟩
  rw [hin i]
  unfold samplerPort
  simp only []
  split_ifs <;> exact ⟨_, _, _, rfl⟩

/-- An `'e'` write runs one character on each input record, or is ignored (R261, R262). -/
theorem writeE_next {cs : List Byte} {s t : State} (h : exec (.writeE cs) s = .next t) :
    SameInputs s t ∧
      ∀ i, t.inAt i = s.inAt i ∨ ∃ ch, t.inAt i = (eCharView ch (s.ctxIn i) (s.viewIn i)).port := by
  have h : execWriteE cs s = .next t := h
  by_cases hl : cs.length = s.cfg.numIn
  · obtain ⟨u, hu, hc, -, he, hp, -, -, -, -, hi, -⟩ := execWriteE_eq cs s hl
    rw [hu] at h; cases h
    refine ⟨⟨hc, he, hp⟩, fun i => ?_⟩
    rw [hi i]
    split
    · exact .inr ⟨_, rfl⟩
    · exact .inl rfl
  · rw [execWriteE, if_neg hl] at h; cases h
    exact ⟨⟨rfl, rfl, rfl⟩, fun _ => .inl rfl⟩

/-- A `'t'` write changes no input record (R263, R264). -/
theorem writeT_next {ks : List Byte} {s t : State} (h : exec (.writeT ks) s = .next t) :
    SameInputs s t ∧ ∀ i, t.inAt i = s.inAt i := by
  have h : execWriteT ks s = .next t := h
  by_cases hl : ks.length = s.cfg.numIn
  · obtain ⟨u, hu, hc, -, he, hp, -, -, -, -, hi, -⟩ := execWriteT_eq ks s hl
    rw [hu] at h; cases h
    exact ⟨⟨hc, he, hp⟩, hi⟩
  · rw [execWriteT, if_neg hl] at h; cases h
    exact ⟨⟨rfl, rfl, rfl⟩, fun _ => rfl⟩

/-- An `'e'` character row changes one port at most, and only the two named characters change it (R262). -/
theorem exec_eChar {p : Platform} {ins : Instr} {s t : State} (hf : (encode p ins).format = .echar)
    (h : exec ins s = .next t) : ∃ i, SameButIn i s t ∧ (ins = .eDisable i ∨ ins = .eEnable i ∨ t = s) := by
  cases ins <;> first | (simp [encode, Encoding.format] at hf; done) | skip
  case eDisable i =>
    obtain ⟨-, h⟩ := onIn_eq_next h
    cases h
    refine ⟨i, ?_, .inl rfl⟩
    split
    · exact sameButIn_putIn _ _ _
    · exact .refl _ _
  case eEnable i =>
    obtain ⟨-, h⟩ := onIn_eq_next h
    cases h
    refine ⟨i, ?_, .inr (.inl rfl)⟩
    split
    · exact .refl _ _
    · exact sameButIn_putIn _ _ _
  case eNop i => obtain ⟨-, h⟩ := onIn_eq_next h; cases h; exact ⟨i, .refl _ _, .inr (.inr rfl)⟩
  case eOther i c => obtain ⟨-, h⟩ := onIn_eq_next h; cases h; exact ⟨i, .refl _ _, .inr (.inr rfl)⟩

/-- What a bare byte may make of an input record: drives and the session of a disabled port (R265 to R267). -/
def BareChange (p q : InPort) : Prop :=
  q = p ∨ p.fsmEnabled = false ∧ ∃ d o, q = { p with drv := d, sessionOpen := o }

/-- A bare byte row changes one port at most, a disabled one, and of its record the drives and the session. -/
theorem exec_bareByte {p : Platform} {ins : Instr} {s t : State} (hf : (encode p ins).format = .bareByte)
    (h : exec ins s = .next t) : ∃ i, SameButIn i s t ∧ BareChange (s.inAt i) (t.inAt i) := by
  have hcolor : ∀ {b i}, bareColor b i s = .next t → ∃ i, SameButIn i s t ∧ BareChange (s.inAt i) (t.inAt i) := by
    intro b i h
    obtain ⟨-, h⟩ := onIn_eq_next h
    cases h
    split
    · exact ⟨i, .refl _ _, .inl rfl⟩
    · next he =>
      exact ⟨i, sameButIn_putIn _ _ _, .inr ⟨Bool.eq_false_of_not_eq_true he, (s.inAt i).drv, true, by
        rw [inAt_runIn_self]; rfl⟩⟩
  cases ins <;> first | (simp [encode, Encoding.format] at hf; done) | skip
  case bareColor0D => exact hcolor h
  case bareColor0E => exact hcolor h
  case bareColor0F => exact hcolor h
  case bareColor10 => exact hcolor h
  case bareColor11 => exact hcolor h
  case bareRawpin i b =>
    obtain ⟨-, h⟩ := onIn_eq_next h
    split at h
    · cases h; exact ⟨i, .refl _ _, .inl rfl⟩
    · next he =>
      split at h
      · cases h
        obtain ⟨-, hport, -⟩ := driveView_frame (s.ctxIn i) (rawpinEval _ b) (s.viewIn i)
        exact ⟨i, sameButIn_putIn _ _ _, .inr ⟨Bool.eq_false_of_not_eq_true he, _, _, by
          rw [inAt_runIn_self]; exact hport⟩⟩
      · cases h

/-- A host store that is a row clears one update flag: it changes no record (R268). -/
theorem exec_hostStore {p : Platform} {ins : Instr} {s t : State} (hf : (encode p ins).format = .hostStore)
    (h : exec ins s = .next t) : SameInputs s t ∧ ∀ i, t.inAt i = s.inAt i := by
  cases ins <;> first | (simp [encode, Encoding.format] at hf; done) | skip
  case clrupdIn i => obtain ⟨-, h⟩ := onIn_eq_next h; cases h; exact ⟨⟨rfl, rfl, rfl⟩, fun _ => rfl⟩
  case clrupdOut j => obtain ⟨-, h⟩ := onOut_eq_next h; cases h; exact ⟨⟨rfl, rfl, rfl⟩, fun _ => rfl⟩

/-- No row writes the parameters, the environment's answers or the waiting requests (R46, R62). -/
theorem exec_sameInputs {ins : Instr} {s t : State} (h : exec ins s = .next t) : SameInputs s t := by
  cases hf : (encode Platform.standard ins).format with
  | strobe =>
    obtain ⟨r, rfl⟩ | rfl := strobe_cases hf
    · exact (tickS_next_inAt h).1
    · obtain ⟨hc, he, hp, -⟩ := tickD_next h
      exact ⟨hc, he, hp⟩
  | hostWrite =>
    obtain ⟨cs, rfl⟩ | ⟨ks, rfl⟩ := hostWrite_cases hf
    · exact (writeE_next h).1
    · exact (writeT_next h).1
  | echar => obtain ⟨i, hi, -⟩ := exec_eChar hf h; exact hi.inputs
  | bareByte => obtain ⟨i, hi, -⟩ := exec_bareByte hf h; exact hi.inputs
  | hostStore => exact (exec_hostStore hf h).1
  | inState => obtain ⟨i, w, -, rfl, -⟩ := exec_inState hf h; exact ⟨rfl, rfl, rfl⟩
  | outState => obtain ⟨j, w, -, rfl, -⟩ := exec_outState hf h; exact ⟨rfl, rfl, rfl⟩

/-- A DCM tick writes no enable (R34, R307). -/
theorem tickD_next_fsmEnabled {s t : State} (h : exec .tickD s = .next t) (i : Nat) :
    (t.inAt i).fsmEnabled = (s.inAt i).fsmEnabled := by
  obtain ⟨-, -, -, -, -, -, hge, -, hlt, -⟩ := tickD_next h
  by_cases hi : i < s.cfg.numIn
  · obtain ⟨w, hw, hp, -⟩ := hlt i hi
    rw [hp]; exact (inStepView_frame hw).2.1
  · rw [(hge i (Nat.not_lt.1 hi)).1]

/-- Only the `'e'` write and its two named characters write an enable (R34, R307). -/
theorem exec_fsmEnabled {ins : Instr} {s t : State} (hw : ∀ cs, ins ≠ .writeE cs) (hd : ∀ i, ins ≠ .eDisable i)
    (he : ∀ i, ins ≠ .eEnable i) (h : exec ins s = .next t) (i : Nat) :
    (t.inAt i).fsmEnabled = (s.inAt i).fsmEnabled := by
  cases hf : (encode Platform.standard ins).format with
  | strobe =>
    obtain ⟨r, rfl⟩ | rfl := strobe_cases hf
    · obtain ⟨d, g, k, e⟩ := (tickS_next_inAt h).2 i
      rw [e]
    · exact tickD_next_fsmEnabled h i
  | hostWrite =>
    obtain ⟨cs, rfl⟩ | ⟨ks, rfl⟩ := hostWrite_cases hf
    · exact absurd rfl (hw cs)
    · rw [(writeT_next h).2 i]
  | echar =>
    obtain ⟨k, -, rfl | rfl | rfl⟩ := exec_eChar hf h
    · exact absurd rfl (hd k)
    · exact absurd rfl (he k)
    · rfl
  | bareByte =>
    obtain ⟨k, hk, hb⟩ := exec_bareByte hf h
    refine hk.forall_inAt (R := fun p q => q.fsmEnabled = p.fsmEnabled) (fun _ => rfl) ?_ i
    obtain e | ⟨-, d, o, e⟩ := hb <;> rw [e]
  | hostStore => rw [(exec_hostStore hf h).2 i]
  | inState =>
    obtain ⟨k, w, -, rfl, hr⟩ := exec_inState hf h
    refine (sameButIn_putIn s k w).forall_inAt (R := fun p q => q.fsmEnabled = p.fsmEnabled) (fun _ => rfl) ?_ i
    rw [inAt_putIn, if_pos rfl]; exact hr.fsmEnabled
  | outState => obtain ⟨j, w, -, rfl, -⟩ := exec_outState hf h; rfl

/-! ## The `INIT` rule -/

/-- The roles that `INIT` floats, in the order in which R175 lists them (log 20). -/
def initRoles : List Role := [.pin1, .pin2, .pin5, .pin6, .auxA, .auxB]

theorem mem_initRoles (role : Role) : role ∈ initRoles := by cases role <;> decide

/-- Everything the `INIT` rule makes of its view, in whichever state the port is (R175, R193). -/
theorem inInitRule_eq (c : InCtx) (v : InView) :
    inRule .none inInitBody c v =
      { port := { v.port with
          state := 1, event := 0, timer := 0, connected := false, colorActive := false, sessionOpen := false,
          drv := (driveView (initRoles.map (·, .drive .float)) c v).port.drv }
        sh := { v.sh with devType := c.cfg.codes.typeNone, connClass := c.cfg.codes.connNone }
        calls := v.calls ++ (if v.port.sessionOpen then [OracleCall.colorStop c.idx] else []) ++
          initRoles.map fun role => OracleCall.drive (.inp c.idx role) .float } := by
  have hsettle : ∀ w : InView, w.port.timer = 0 → w.settle v.port.state = w := fun w hw => by
    unfold InView.settle
    split
    · rw [← hw]
    · rfl
  rw [inRule, hsettle _ rfl]
  cases hs : v.port.sessionOpen <;>
    simp [hs, inInitBody, InView.tick, InView.closeSession, InView.drive, InView.classify, InView.goto, InState.code,
      driveView, InView.flag, initRoles]

/-- Floating every role floats each pin that some role names and leaves the others (R33). -/
theorem floatRoles_read (c : InCtx) (roles : List Role) (v : InView) (cell : PinCell) :
    (driveView (roles.map (·, .drive .float)) c v).port.drv.read cell =
      if ∃ role ∈ roles, cellOf c.cfg role = cell then .float else v.port.drv.read cell := by
  induction roles generalizing v with
  | nil => simp [driveView]
  | cons role roles ih =>
    show (driveView (roles.map (·, .drive .float)) c (v.drive c role .float)).port.drv.read cell = _
    rw [ih]
    by_cases hr : ∃ role ∈ roles, cellOf c.cfg role = cell <;> by_cases hc : cellOf c.cfg role = cell <;>
      simp [InView.drive, hr, hc, eq_comm (a := cell)]

/-- The `INIT` rule floats the pin of every role (R175). -/
theorem inInitRule_read_role (c : InCtx) (v : InView) (role : Role) :
    (inRule .none inInitBody c v).port.drv.read (cellOf c.cfg role) = .float := by
  rw [inInitRule_eq]
  exact (floatRoles_read c initRoles v _).trans (if_pos ⟨role, mem_initRoles role, rfl⟩)

/-- The `INIT` rule leaves a pin that no role names (R33). -/
theorem inInitRule_read_other (c : InCtx) (v : InView) {cell : PinCell} (h : ∀ role, cellOf c.cfg role ≠ cell) :
    (inRule .none inInitBody c v).port.drv.read cell = v.port.drv.read cell := by
  rw [inInitRule_eq]
  exact (floatRoles_read c initRoles v cell).trans (if_neg fun ⟨role, _, hr⟩ => h role hr)

/-! ## The auxiliary clocking on the pins (R115) -/

/-- A port's drives after a sampler tick: clocked under the long table only. -/
theorem samplerPort_drv (e : ScheduleEntry) (r : Cell16) {s : State} {i : Nat} (hi : i < s.cfg.numIn) :
    (samplerPort e r s i).drv = if s.samp.sel = .long then clockDrives e s.cfg (s.inAt i) else (s.inAt i).drv := by
  unfold samplerPort
  simp only [hi, and_true]
  split_ifs <;> rfl

theorem clockDrives_inactive (e : ScheduleEntry) (cfg : Params) {p : InPort} (h : p.colorActive = false) :
    clockDrives e cfg p = p.drv := by
  simp [clockDrives, h]

/-- The drives after a clock flag at a pin: driven where the flag has a level, left where it is `KEEP` (R95, R115). -/
def flagDrive (d : Drives) (f : ClockFlag) (cell : PinCell) : Drives :=
  match f with
  | .drive l => d.write cell l
  | .keep => d

theorem flagDrive_read_self {d : Drives} {f : ClockFlag} {l : Level} (h : f = .drive l) (cell : PinCell) :
    (flagDrive d f cell).read cell = l := by
  rw [h, flagDrive, drives_read_write, if_pos rfl]

theorem flagDrive_read_other {d : Drives} {f : ClockFlag} {k cell : PinCell} (h : f = .keep ∨ k ≠ cell) :
    (flagDrive d f cell).read k = d.read k := by
  cases f with
  | keep => rfl
  | drive l => rw [flagDrive, drives_read_write, if_neg (h.resolve_left nofun)]

/-- A colour-active port's clocking is role A's flag and then role B's. -/
theorem clockDrives_active (e : ScheduleEntry) (cfg : Params) {p : InPort} (h : p.colorActive = true) :
    clockDrives e cfg p = flagDrive (flagDrive p.drv e.clkA cfg.auxPinA) e.clkB cfg.auxPinB := by
  rw [clockDrives, if_pos h]; rfl

/-! ## The session invariant, port by port -/

/-- What the session invariant asks of one input record (R35, R182, R302, R306). -/
structure SessionOk (p : InPort) : Prop where
  manual : p.fsmEnabled = false ↔ p.state = 16#5
  opened : p.sessionOpen = true → p.state ∈ [0#5, 7#5, 8#5, 16#5]

theorem sessionInv_iff (s : State) : SessionInv s ↔ ∀ i < s.cfg.numIn, SessionOk (s.inAt i) :=
  ⟨fun h i hi => ⟨h.manual i hi, h.opened i hi⟩, fun h => ⟨fun i hi => (h i hi).manual, fun i hi => (h i hi).opened⟩⟩

/-- A next state keeps the session invariant where each of its input records does. -/
theorem SessionInv.next {s t : State} (h : SessionInv s) (hc : t.cfg = s.cfg)
    (hk : ∀ i < s.cfg.numIn, SessionOk (s.inAt i) → SessionOk (t.inAt i)) : SessionInv t := by
  rw [sessionInv_iff] at h ⊢
  rw [hc]
  exact fun i hi => hk i hi (h i hi)

/-- An `'e'` character moves an open session to `DISABLED` or to `INIT`, which is about to stop it (R262). -/
theorem SessionOk.eCharView {c : InCtx} {v : InView} (h : SessionOk v.port) (ch : Byte) :
    SessionOk (eCharView ch c v).port := by
  rcases eCharView_cases ch c v with ⟨-, e⟩ | ⟨-, e⟩ | e <;> rw [e]
  · exact ⟨iff_of_true rfl rfl, fun _ => by simp [disableView, InState.code]⟩
  · exact ⟨by simp [enableView, InState.code], fun _ => by simp [enableView, InState.code]⟩
  · exact h

/-- A bare byte opens a session on a disabled port only (R265, R266). -/
theorem SessionOk.bareChange {p q : InPort} (h : SessionOk p) (hb : BareChange p q) : SessionOk q := by
  obtain rfl | ⟨he, d, o, rfl⟩ := hb
  · exact h
  · exact ⟨h.manual, fun _ => by simp [h.manual.1 he]⟩

/-- The `INIT` rule leaves no session open (R175). -/
theorem SessionOk.inInitRule {c : InCtx} {v : InView} (he : v.port.fsmEnabled = true) :
    SessionOk (inRule .none inInitBody c v).port := by
  rw [inInitRule_eq]
  exact ⟨by simp [he], fun h => nomatch h⟩

/-- The rule of a listed state leaves a session open only where `SessionInv` allows one: it opens one on the way to
`NXT_COLOR_WAIT`, and leaves the states that wait for one only with it closed (R175, R182 to R184). -/
theorem session_of_facts {x : InState} {c : InCtx} {v w : InView} (hf : RuleFacts x c v w) (hx : v.port.state = x.code)
    (h : SessionOk v.port) (hw : w.port.sessionOpen = true) : w.port.state ∈ [0#5, 7#5, 8#5, 16#5] := by
  have hmem := hf.state
  obtain rfl | ⟨hopen, hi, hb, hwait⟩ := hf.session hw
  · revert hmem; generalize w.port.state = st; revert st; decide
  · have hv := h.opened hopen
    rw [hx] at hv
    revert hmem hv hi hb hwait
    generalize w.port.state = st
    cases x <;> revert st <;> decide

/-- One input port's step keeps what the session invariant asks of the port. -/
theorem SessionOk.step {c : InCtx} {v w : InView} (h : SessionOk v.port) (hw : inStepView c v = some w) :
    SessionOk w.port := by
  cases hx : inStateOf v.port.state with
  | none =>
    have h17 := inStateOf_none hx
    have hne : v.port.state ≠ 16#5 := fun e => by rw [e] at h17; exact absurd h17 (by decide)
    have ho : fsmOverride { v.port with oldState := v.port.state } = { v.port with oldState := v.port.state } :=
      fsmOverride_agree h.manual
    rw [inStepView, ho] at hw
    simp only [inDispatchView, hx] at hw
    cases hw
    exact .inInitRule (Bool.eq_true_of_not_eq_false (mt h.manual.1 hne))
  | some x =>
    have hf := inStepView_facts h.manual hx hw
    have hc := code_of_inStateOf hx
    refine ⟨?_, session_of_facts hf hc h⟩
    rw [(inStepView_frame hw).2.1, (successors_listed hf.state).2, ← hc]
    exact h.manual

/-- Every row that a request comes to keeps the session invariant. -/
theorem SessionInv.exec {s t : State} (h : SessionInv s) {ins : Instr} (hr : Requested ins)
    (ht : Machine.exec ins s = .next t) : SessionInv t := by
  refine h.next (exec_sameInputs ht).cfg fun i hi hp => ?_
  have hq := hr Platform.standard
  cases hf : (encode Platform.standard ins).format with
  | strobe =>
    obtain ⟨r, rfl⟩ | rfl := strobe_cases hf
    · obtain ⟨d, g, k, e⟩ := (tickS_next_inAt ht).2 i
      rw [e]
      exact ⟨hp.manual, hp.opened⟩
    · obtain ⟨-, -, -, -, -, -, -, -, hin, -⟩ := tickD_next ht
      obtain ⟨w, hw, e, -⟩ := hin i hi
      rw [e]
      exact SessionOk.step (v := s.viewIn i) hp hw
  | hostWrite =>
    obtain ⟨cs, rfl⟩ | ⟨ks, rfl⟩ := hostWrite_cases hf
    · obtain e | ⟨ch, e⟩ := (writeE_next ht).2 i <;> rw [e]
      · exact hp
      · exact SessionOk.eCharView (v := s.viewIn i) hp ch
    · rw [(writeT_next ht).2 i]; exact hp
  | bareByte =>
    obtain ⟨k, hk, hb⟩ := exec_bareByte hf ht
    exact hp.bareChange (hk.forall_inAt (fun _ => .inl rfl) hb i)
  | hostStore => rw [(exec_hostStore hf ht).2 i]; exact hp
  | echar => simp [hf] at hq
  | inState => simp [hf] at hq
  | outState => simp [hf] at hq

/-! ## The host's readings (R43, R44, R269) -/

theorem hostRead_of_exists {s : State} {f : HostField} {v : Option HostValue}
    (h : fieldExists s.cfg.toPlatform f = true) (hv : s.fieldAt f = v) : s.hostRead f = v := (if_pos h).trans hv

theorem hostRead_of_not_exists {s : State} {f : HostField} (h : fieldExists s.cfg.toPlatform f = false) :
    s.hostRead f = none := if_neg (by simp [h])

end Sys2Proof.Machine

open Sys2Proof Sys2Proof.Config Sys2Proof.Machine

/-- Settles O57: taking a request changes no input record, and every row that it comes to keeps what the invariant asks of
each. -/
theorem stepKeepsSessionInv : Obligations.StepKeepsSessionInv := fun _ _ hs h =>
  step_induct (fun _ _ _ h _ => h.next rfl fun _ _ hp => hp) (fun _ _ _ hr h ht => h.exec hr ht) hs h

/-- Settles O54: the frame of every format's rows. -/
theorem parametersNeverChange : Obligations.ParametersNeverChange := fun _ _ _ h => exec_sameInputs h

/-- Settles O52: format by format, the rows that are left write no enable. -/
theorem onlyEnableCommandWritesFsmEnabled : Obligations.OnlyEnableCommandWritesFsmEnabled :=
  fun _ _ _ hw hd he h i => exec_fsmEnabled hw hd he h i

/-- Settles O11: the drives after the tick are those of the port's clocking, role A's flag first and then role B's. -/
theorem samplerAuxiliaryClocking : Obligations.SamplerAuxiliaryClocking := by
  intro s t r e i hi he ht
  obtain ⟨e', he', rfl⟩ := tickS_next ht
  obtain rfl : e = e' := Option.some.inj (he.symm.trans he')
  obtain ⟨hc, -, -, -, -, -, -, hin, -⟩ := samplerTick_eq e r s
  have hdrv : ((samplerTick e r s).inAt i).drv = if s.samp.sel = .long then clockDrives e s.cfg (s.inAt i)
      else (s.inAt i).drv := by rw [hin i, samplerPort_drv e r hi]
  refine ⟨fun hidle => ?_, fun hsel hca => ?_⟩
  · rw [hdrv]
    rcases hidle with hsel | hca
    · rw [hsel]; rfl
    · rw [clockDrives_inactive e s.cfg hca, ite_self]
  · rw [if_pos hsel] at hdrv
    rw [clockDrives_active e s.cfg hca] at hdrv
    simp only [drvAt_eq, hdrv, hc]
    exact ⟨fun d hB => flagDrive_read_self hB _,
      fun d hA hB => (flagDrive_read_other hB).trans (flagDrive_read_self hA _),
      fun c hA hB => (flagDrive_read_other hB).trans (flagDrive_read_other hA)⟩

/-- Settles O17: both rows run the `INIT` rule on the view of the port. -/
theorem inInitClearsPort : Obligations.InInitClearsPort := by
  intro s i ins hi hins
  have hrun : exec ins s = .next (s.runIn i (inRule .none inInitBody)) := by
    rcases hins with ⟨rfl, -⟩ | ⟨rfl, -⟩ <;> exact onIn_of_lt hi _
  have hport := inAt_runIn_self s i (inRule .none inInitBody)
  refine ⟨_, hrun, sameButIn_putIn _ _ _, ?_, fun role => ?_, fun c hc => ?_, ?_, ?_⟩
  · rw [hport, inInitRule_eq]; rfl
  · rw [drvAt_eq, hport]
    exact inInitRule_read_role (s.ctxIn i) (s.viewIn i) role
  · rw [hport]
    exact inInitRule_read_other (s.ctxIn i) (s.viewIn i) hc
  · rw [shInAt_runIn_self, inInitRule_eq]; rfl
  · rw [List.append_assoc s.calls, calls_runIn, inInitRule_eq]; rfl

/-- Settles O47: the enable and the decode table select the case; the drives are those of `driveView`. -/
theorem rawpinDrivesPins : Obligations.RawpinDrivesPins := by
  intro s i b hi
  have hexec : exec (.bareRawpin i b) s = _ := onIn_of_lt hi _
  refine ⟨fun he => ?_, fun he htab => ?_, fun tab he htab => ?_⟩
  · rw [hexec, if_pos he]
  · rw [hexec, he, htab]; rfl
  · obtain ⟨hsh, hport, hcalls⟩ := driveView_frame (s.ctxIn i) (rawpinEval tab b) (s.viewIn i)
    have hin := inAt_runIn_self s i (driveView (rawpinEval tab b))
    refine ⟨s.runIn i (driveView (rawpinEval tab b)), ?_, sameButIn_putIn _ _ _, ?_, ?_, ?_, fun c => ?_⟩
    · rw [hexec, he, htab]; rfl
    · rw [shInAt_runIn_self, hsh]; rfl
    · rw [hin]; exact hport
    · rw [calls_runIn, hcalls]; rfl
    · rw [hin]; exact driveView_read (s.ctxIn i) (rawpinEval tab b) (s.viewIn i) c

/-- Settles O48: each row writes one update flag through `setShIn` or `setShOut`. -/
theorem clearUpdateFlags : Obligations.ClearUpdateFlags := by
  refine ⟨fun s i hi => ⟨_, onIn_of_lt hi _, rfl, ?_, ?_, sameButIn_setShIn s i _⟩,
    fun s j hj => ⟨_, onOut_of_lt hj _, rfl, ?_, ?_, sameButOut_setShOut s j _⟩⟩
  · rw [shInAt_setShIn, if_pos rfl]
  · rw [calls_setShIn, List.append_nil]
  · rw [shOutAt_setShOut, if_pos rfl]
  · rw [calls_setShOut, List.append_nil]

/-- Settles O50: a field is read as it stands where the block has it, and not at all where it has not. -/
theorem hostReadsLogicalFields : Obligations.HostReadsLogicalFields := by
  intro s
  refine ⟨fun i hi => ?_, fun j hj => ?_, fun k => hostRead_of_exists rfl rfl, fun i k hi f hf => ?_,
    fun j hj f hf => ?_⟩
  · have hin : decide (i < s.cfg.numIn) = true := decide_eq_true hi
    refine ⟨hostRead_of_exists hin rfl, hostRead_of_exists hin rfl, hostRead_of_exists hin rfl,
      hostRead_of_exists hin rfl, fun k e hk => ?_, fun k hk => ?_, hostRead_of_exists hin rfl,
      hostRead_of_exists hin rfl, hostRead_of_exists hin rfl⟩
    · exact hostRead_of_exists hin (congrArg (Option.map HostValue.pair) hk)
    · exact hostRead_of_exists hin (congrArg (Option.map HostValue.pair) (List.getElem?_eq_none hk))
  · have hout : decide (j < s.cfg.numOut) = true := decide_eq_true hj
    exact ⟨hostRead_of_exists hout rfl, hostRead_of_exists hout rfl, hostRead_of_exists hout rfl,
      hostRead_of_exists hout rfl⟩
  · have hnot : decide (i < s.cfg.numIn) = false := decide_eq_false (Nat.not_lt.2 hi)
    fin_cases hf <;> exact hostRead_of_not_exists hnot
  · have hnot : decide (j < s.cfg.numOut) = false := decide_eq_false (Nat.not_lt.2 hj)
    fin_cases hf <;> exact hostRead_of_not_exists hnot
end

section
/-! SUPPORT. What a step is, said once for each kind of list of requests (R66, R80, R310). -/

namespace Sys2Proof.Machine

open Sys2Proof

/-- An operation on its own ends as it ends: nothing follows it. -/
theorem forEach_singleton {α : Type} (f : α → State → Host.Outcome State Fault Refusal) (a : α) (s : State) :
    forEach f [a] s = f a s := by
  rw [forEach_cons]
  cases f a s <;> rfl

theorem step_of_no_request {s : State} (hp : s.pending = []) : step s = .next s := by
  rw [step, hp]

theorem step_of_operations {s : State} {a : Arrival} {rest : List Arrival} {is : List Instr}
    (hp : s.pending = a :: rest) (hd : decodeRequest s.cfg.toPlatform a.request = .operations is) :
    step s = forEach exec is { s with env := a.env, pending := rest, calls := [] } := by
  simp only [step, hp, hd, State.accept]

end Sys2Proof.Machine

open Sys2Proof.Machine

/-- Settles O6: the step runs the decoded rows as a sequence from the state that has taken the request; the cases are the
empty sequence, one row, and a row with those that follow it. -/
theorem stepRunsDecodedInstruction : Obligations.StepRunsDecodedInstruction := by
  refine ⟨fun s hp => step_of_no_request hp, fun s a rest hp hd => ?_, fun s a rest i hp hd => ?_,
    fun s a rest i is hp hd => ?_⟩
  · rw [step_of_operations hp hd, forEach_nil]
  · rw [step_of_operations hp hd, forEach_singleton]
  · rw [step_of_operations hp hd, forEach_cons]
end

section
/-! SUPPORT. The encodings of the opcode table (R80 to R87): what each format decodes to, that its rows are well formed and
keep the format, and the bare writes as a list; then the statements of the encoding. -/

namespace Sys2Proof

/-! ## The rows with more than one check on their operands -/

theorem wellFormed_eEnable {p : Platform} {i : Nat} :
    (Instr.eEnable i).WellFormed p ↔ i < p.numIn ∧ p.eCharEnable ≠ p.eCharDisable := by
  simp [Instr.WellFormed, Instr.wellFormed]

theorem wellFormed_eNop {p : Platform} {i : Nat} :
    (Instr.eNop i).WellFormed p ↔ i < p.numIn ∧ 0x2D ≠ p.eCharDisable ∧ 0x2D ≠ p.eCharEnable := by
  simp [Instr.WellFormed, Instr.wellFormed, and_assoc]

theorem wellFormed_eOther {p : Platform} {i : Nat} {c : Byte} :
    (Instr.eOther i c).WellFormed p ↔ i < p.numIn ∧ c ≠ p.eCharDisable ∧ c ≠ p.eCharEnable ∧ c ≠ 0x2D := by
  simp [Instr.WellFormed, Instr.wellFormed, and_assoc]

theorem wellFormed_bareRawpin {p : Platform} {i : Nat} {b : Byte} :
    (Instr.bareRawpin i b).WellFormed p ↔
      i < p.numIn ∧ isColorCommand b = false ∧ ¬(i = 0 ∧ selectsCommand b) := by
  simp [Instr.WellFormed, Instr.wellFormed, isRawpinByte, imp_iff_not_or]

theorem wellFormed_inReserved {p : Platform} {i : Nat} {code : BitVec 5} :
    (Instr.inReserved i code).WellFormed p ↔ i < p.numIn ∧ 17 ≤ code.toNat := by
  simp [Instr.WellFormed, Instr.wellFormed]

/-! ## Each format's decoding where the port is one of the block -/

theorem decode_echar {p : Platform} {i : Nat} (hi : i < p.numIn) (c : Byte) :
    decode p (.echar i c) = .ok (decodeEChar p i c) := if_pos hi

theorem decode_inState {p : Platform} {i : Nat} (hi : i < p.numIn) (code : BitVec 5) :
    decode p (.inState i code) = .ok (decodeInState i code) := if_pos hi

theorem decode_outState {p : Platform} {j : Nat} (hj : j < p.numOut) (code : BitVec 3) :
    decode p (.outState j code) = .ok (decodeOutState j code) := if_pos hj

theorem decode_bareByte {p : Platform} {i : Nat} {b : Byte} (hi : i < p.numIn) (hb : ¬(i = 0 ∧ selectsCommand b)) :
    decode p (.bareByte i b) = .ok (decodeBareByte i b) := (if_neg (Nat.not_le.2 hi)).trans (if_neg hb)

/-- A write of one byte or more, by its first byte (R81, R82, R84). -/
theorem decodeHostWrite_cons (p : Platform) (b : Byte) (rest : List Byte) :
    decodeHostWrite p (b :: rest) =
      if b = 0x65 then (if rest.length = p.numIn then .ok (.writeE rest) else .error .wrongLength)
      else if b = 0x74 then (if rest.length = p.numIn then .ok (.writeT rest) else .error .wrongLength)
      else .error .bareBytes := rfl

theorem decodeHostWrite_e {p : Platform} {chars : List Byte} (h : chars.length = p.numIn) :
    decodeHostWrite p (0x65 :: chars) = .ok (.writeE chars) := if_pos h

theorem decodeHostWrite_t {p : Platform} {codes : List Byte} (h : codes.length = p.numIn) :
    decodeHostWrite p (0x74 :: codes) = .ok (.writeT codes) := if_pos h

theorem decodeStore_inUpd {p : Platform} {i : Nat} (hi : i < p.numIn) :
    decodeStore p (.inUpd i) 0 = .ok (.clrupdIn i) := if_pos hi

theorem decodeStore_outUpd {p : Platform} {j : Nat} (hj : j < p.numOut) :
    decodeStore p (.outUpd j) 0 = .ok (.clrupdOut j) := if_pos hj

/-! ## The row a byte or a code stands for -/

/-- The colour commands are five bytes (R85). -/
theorem isColorCommand_eq_false {b : Byte} :
    isColorCommand b = false ↔ b ≠ 0x0D ∧ b ≠ 0x0E ∧ b ≠ 0x0F ∧ b ≠ 0x10 ∧ b ≠ 0x11 := by
  simp only [isColorCommand, Bool.and_eq_false_iff, decide_eq_false_iff_not]
  bv_omega

theorem decodeBareByte_rawpin {b : Byte} (h : isColorCommand b = false) (i : Nat) :
    decodeBareByte i b = .bareRawpin i b := by
  obtain ⟨h0, h1, h2, h3, h4⟩ := isColorCommand_eq_false.1 h
  rw [decodeBareByte, if_neg h0, if_neg h1, if_neg h2, if_neg h3, if_neg h4]

theorem decodeEChar_eDisable (p : Platform) (i : Nat) : decodeEChar p i p.eCharDisable = .eDisable i := if_pos rfl

theorem decodeEChar_eEnable {p : Platform} (h : p.eCharEnable ≠ p.eCharDisable) (i : Nat) :
    decodeEChar p i p.eCharEnable = .eEnable i := (if_neg h).trans (if_pos rfl)

theorem decodeEChar_eNop {p : Platform} (hd : 0x2D ≠ p.eCharDisable) (he : 0x2D ≠ p.eCharEnable) (i : Nat) :
    decodeEChar p i 0x2D = .eNop i := (if_neg hd).trans ((if_neg he).trans (if_pos rfl))

theorem decodeEChar_eOther {p : Platform} {c : Byte} (hd : c ≠ p.eCharDisable) (he : c ≠ p.eCharEnable)
    (hn : c ≠ 0x2D) (i : Nat) : decodeEChar p i c = .eOther i c :=
  (if_neg hd).trans ((if_neg he).trans (if_neg hn))

/-- A code past the 17 states is a reserved one (R86, R94). -/
theorem decodeInState_reserved {code : BitVec 5} (h : 17 ≤ code.toNat) (i : Nat) :
    decodeInState i code = .inReserved i code := by
  have hn : inStateOf code = none := by revert code; decide
  rw [decodeInState, hn]

/-- Decoding inverts encoding on every well-formed row. -/
theorem decode_encode {p : Platform} {i : Instr} (h : i.WellFormed p) : decode p (encode p i) = .ok i := by
  cases i
  case tickS | tickD => rfl
  case writeE => exact decodeHostWrite_e (of_decide_eq_true h)
  case writeT => exact decodeHostWrite_t (of_decide_eq_true h)
  case clrupdIn => exact decodeStore_inUpd (of_decide_eq_true h)
  case clrupdOut => exact decodeStore_outUpd (of_decide_eq_true h)
  case eDisable i => rw [encode, decode_echar (of_decide_eq_true h), decodeEChar_eDisable]
  case eEnable i =>
    obtain ⟨hi, he⟩ := wellFormed_eEnable.1 h
    rw [encode, decode_echar hi, decodeEChar_eEnable he]
  case eNop i =>
    obtain ⟨hi, hd, he⟩ := wellFormed_eNop.1 h
    rw [encode, decode_echar hi, decodeEChar_eNop hd he]
  case eOther i c =>
    obtain ⟨hi, hd, he, hn⟩ := wellFormed_eOther.1 h
    rw [encode, decode_echar hi, decodeEChar_eOther hd he hn]
  case bareColor0D | bareColor0E | bareColor0F | bareColor10 | bareColor11 =>
    exact decode_bareByte (of_decide_eq_true h) fun hs => absurd hs.2 (by decide)
  case bareRawpin i b =>
    obtain ⟨hi, hc, hs⟩ := wellFormed_bareRawpin.1 h
    rw [encode, decode_bareByte hi hs, decodeBareByte_rawpin hc]
  case inReserved i code =>
    obtain ⟨hi, hc⟩ := wellFormed_inReserved.1 h
    rw [encode, decode_inState hi, decodeInState_reserved hc]
  case outInit | outFloatingDelay | outFloating | outWaitPin6Low | outConnection | outWaitPin5Low | outWaitPortOpen |
      outReserved => exact decode_outState (of_decide_eq_true h) _
  all_goals exact decode_inState (of_decide_eq_true h) _

/-! ## What each format decodes to is a well-formed row of the format -/

theorem decodeEChar_row {p : Platform} {i : Nat} (hi : i < p.numIn) (c : Byte) :
    (decodeEChar p i c).WellFormed p ∧ (encode p (decodeEChar p i c)).format = .echar := by
  unfold decodeEChar
  split_ifs with hd he hn
  · exact ⟨decide_eq_true hi, rfl⟩
  · exact ⟨wellFormed_eEnable.2 ⟨hi, he ▸ hd⟩, rfl⟩
  · exact ⟨wellFormed_eNop.2 ⟨hi, hn ▸ hd, hn ▸ he⟩, rfl⟩
  · exact ⟨wellFormed_eOther.2 ⟨hi, hd, he, hn⟩, rfl⟩

theorem decodeBareByte_wellFormed {p : Platform} {i : Nat} {b : Byte} (hi : i < p.numIn)
    (hb : ¬(i = 0 ∧ selectsCommand b)) : (decodeBareByte i b).WellFormed p := by
  by_cases hc : isColorCommand b = false
  · rw [decodeBareByte_rawpin hc]
    exact wellFormed_bareRawpin.2 ⟨hi, hc, hb⟩
  · unfold decodeBareByte
    split_ifs with h0 h1 h2 h3 h4
    case neg => exact absurd (isColorCommand_eq_false.2 ⟨h0, h1, h2, h3, h4⟩) hc
    all_goals exact decide_eq_true hi

theorem decodeInState_row {p : Platform} {i : Nat} (hi : i < p.numIn) (code : BitVec 5) :
    (decodeInState i code).WellFormed p ∧ (encode p (decodeInState i code)).format = .inState := by
  unfold decodeInState
  cases hx : inStateOf code with
  | none => exact ⟨wellFormed_inReserved.2 ⟨hi, Machine.inStateOf_none hx⟩, rfl⟩
  | some x => cases x <;> exact ⟨decide_eq_true hi, rfl⟩

theorem decodeOutState_row {p : Platform} {j : Nat} (hj : j < p.numOut) (code : BitVec 3) :
    (decodeOutState j code).WellFormed p ∧ (encode p (decodeOutState j code)).format = .outState := by
  unfold decodeOutState
  cases outStateOf code with
  | none => exact ⟨decide_eq_true hj, rfl⟩
  | some x => cases x <;> exact ⟨decide_eq_true hj, rfl⟩

theorem decodeStrobe_row {p : Platform} {v : BitVec 2} {spi : Cell16} {i : Instr} (h : decodeStrobe v spi = .ok i) :
    i.WellFormed p ∧ (encode p i).format = .strobe := by
  unfold decodeStrobe at h
  split at h <;> cases h <;> exact ⟨rfl, rfl⟩

theorem decodeHostWrite_row {p : Platform} {bytes : List Byte} {i : Instr} (h : decodeHostWrite p bytes = .ok i) :
    i.WellFormed p ∧ (encode p i).format = .hostWrite := by
  cases bytes with
  | nil => cases h
  | cons b rest =>
    rw [decodeHostWrite_cons] at h
    split_ifs at h with _ hl _ hl <;> cases h <;> exact ⟨decide_eq_true hl, rfl⟩

theorem decodeStore_row {p : Platform} {f : HostField} {v : Nat} {i : Instr} (h : decodeStore p f v = .ok i) :
    i.WellFormed p ∧ (encode p i).format = .hostStore := by
  unfold decodeStore at h
  split at h
  · split_ifs at h with hi; cases h; exact ⟨decide_eq_true hi, rfl⟩
  · split_ifs at h with hj; cases h; exact ⟨decide_eq_true hj, rfl⟩
  · cases h

/-- What the decoder accepts is a well-formed row of the encoding's format. -/
theorem decode_row {p : Platform} {e : Encoding} {i : Instr} (h : decode p e = .ok i) :
    i.WellFormed p ∧ (encode p i).format = e.format := by
  cases e with
  | strobe v spi => exact decodeStrobe_row h
  | hostWrite bytes => exact decodeHostWrite_row h
  | echar k c =>
    by_cases hk : k < p.numIn
    · rw [decode_echar hk] at h; cases h; exact decodeEChar_row hk c
    · cases (if_neg hk).symm.trans h
  | bareByte k b =>
    by_cases hk : k < p.numIn
    · by_cases hb : k = 0 ∧ selectsCommand b
      · cases ((if_neg (Nat.not_le.2 hk)).trans (if_pos hb)).symm.trans h
      · rw [decode_bareByte hk hb] at h; cases h
        exact ⟨decodeBareByte_wellFormed hk hb, Machine.decodeBareByte_format p k b⟩
    · cases (if_pos (Nat.not_lt.1 hk)).symm.trans h
  | hostStore f v => exact decodeStore_row h
  | inState k code =>
    by_cases hk : k < p.numIn
    · rw [decode_inState hk] at h; cases h; exact decodeInState_row hk code
    · cases (if_neg hk).symm.trans h
  | outState j code =>
    by_cases hj : j < p.numOut
    · rw [decode_outState hj] at h; cases h; exact decodeOutState_row hj code
    · cases (if_neg hj).symm.trans h

/-! ## Control writes -/

/-- The positions below `n` that a list has, in order, each with its element. -/
theorem filterMap_getElem?_range {α β : Type} (f : Nat → α → β) (l : List α) (x : α) (n : Nat) :
    (List.range n).filterMap (fun i => (l[i]?).map (f i)) =
      (List.range (min n l.length)).map fun i => f i (l.getD i x) := by
  induction n with
  | zero => simp
  | succ n ih =>
    rw [List.range_succ, List.filterMap_append, ih]
    by_cases h : n < l.length
    · rw [Nat.min_eq_left h.le, Nat.min_eq_left (Nat.succ_le_of_lt h), List.range_succ]
      simp [h]
    · have hl : l.length ≤ n := Nat.not_lt.1 h
      rw [Nat.min_eq_right hl, Nat.min_eq_right (Nat.le_succ_of_le hl)]
      simp [hl]

/-- A bare write is one row for each of its first `NUM_IN` bytes (R85, R265). -/
theorem bareInstrs_eq (p : Platform) (bytes : List Byte) :
    bareInstrs p bytes =
      (List.range (min p.numIn bytes.length)).map fun i => decodeBareByte i (bytes.getD i 0) :=
  filterMap_getElem?_range decodeBareByte bytes 0 p.numIn

/-- The rows that a control write of one byte or more comes to. -/
theorem decodeWrite_cons (p : Platform) (b : Byte) (rest : List Byte) :
    decodeWrite p (b :: rest) =
      if b = 0x65 then (if rest.length = p.numIn then [.writeE rest] else [])
      else if b = 0x74 then (if rest.length = p.numIn then [.writeT rest] else [])
      else bareInstrs p (b :: rest) := by
  rw [decodeWrite, decodeHostWrite_cons]
  split_ifs <;> rfl

end Sys2Proof

open Sys2Proof

/-- Settles O3: each row's encoding, by its format, decodes to the row, where the row is well formed. -/
theorem decodeInvertsEncode : Obligations.DecodeInvertsEncode := fun _ _ => decode_encode

/-- Settles O4: each format decodes to well-formed rows of that format, and these decode from their own encodings. -/
theorem decodedRowsAreWellFormed : Obligations.DecodedRowsAreWellFormed := fun _ _ _ h =>
  have ⟨hw, hf⟩ := decode_row h
  ⟨hw, hf, decode_encode hw⟩

/-- Settles O5: strobes and stores decode by their tables, and a control write by its first byte. -/
theorem everyRequestDecodes : Obligations.EveryRequestDecodes := by
  intro p
  refine ⟨fun spi => ⟨rfl, rfl, rfl⟩, fun i hi => ?_, fun j hj => ?_, rfl, fun b rest => ?_⟩
  · simp only [decodeRequest, decodeStore_inUpd hi]
  · simp only [decodeRequest, decodeStore_outUpd hj]
  · rw [decodeRequest, decodeWrite_cons, bareInstrs_eq]
    rfl

/-- Settles O2: each word is evaluated in its table. -/
theorem sampleEncodingsDecode : Obligations.SampleEncodingsDecode :=
  ⟨rfl, rfl, rfl, rfl, rfl, rfl, rfl, rfl, rfl, rfl, rfl, rfl, rfl, rfl, rfl⟩
end

section
/-! SUPPORT. A port under host control across the `'e'` and `'t'` writes and the DCM ticks (R171, R192, R262, R264); then the
round trip of R271. -/

namespace Sys2Proof.Machine

open Sys2Proof Config

/-! ## A port that is disabled, and one that is enabled again -/

/-- The disabling character leaves a port disabled, whether it was so or not (R262). -/
theorem eCharView_disable {c : InCtx} (hde : c.cfg.eCharDisable ≠ c.cfg.eCharEnable) (v : InView) :
    (eCharView c.cfg.eCharDisable c v).port.fsmEnabled = false := by
  unfold eCharView
  cases he : v.port.fsmEnabled with
  | true => rw [if_pos ⟨rfl, rfl⟩]; rfl
  | false => rw [if_neg (fun h => nomatch h.2), if_neg fun h => hde h.1]; exact he

/-- The enabling character enables a disabled port and puts it in `INIT` (R262). -/
theorem eCharView_enable {c : InCtx} {v : InView} (he : v.port.fsmEnabled = false) :
    eCharView c.cfg.eCharEnable c v = enableView v := by
  rw [eCharView, he, if_neg (fun h => nomatch h.2), if_pos ⟨rfl, rfl⟩]

/-- A disabled port's step runs the `DISABLED` rule, in whichever state the port is (R171, R192). -/
theorem inStepView_disabled {c : InCtx} {v : InView} (he : v.port.fsmEnabled = false) :
    inStepView c v = some { v with port := { v.port with
      oldState := v.port.state, state := 16#5, connected := true, timer := 0 } } := by
  have ho : fsmOverride { v.port with oldState := v.port.state } =
      { v.port with oldState := v.port.state, state := 16#5 } := by
    by_cases hs : v.port.state = 16#5 <;> simp [fsmOverride, he, hs, InState.code]
  rw [inStepView, ho]
  rfl

/-- An enabled port in `INIT` steps to no class (R93, R175). -/
theorem inStepView_init {c : InCtx} {v w : InView} (he : v.port.fsmEnabled = true) (hs : v.port.state = 0#5)
    (h : inStepView c v = some w) : w.sh.devType = c.cfg.codes.typeNone ∧ w.sh.connClass = c.cfg.codes.connNone := by
  have ho : fsmOverride { v.port with oldState := v.port.state } = { v.port with oldState := v.port.state } :=
    fsmOverride_agree (by simp [he, hs])
  have hd : inStepView c v =
      some (inRule .none inInitBody c { v with port := { v.port with oldState := v.port.state } }) := by
    rw [inStepView, ho]
    simp only [inDispatchView, hs]
    rfl
  rw [hd, inInitRule_eq] at h
  cases h
  exact ⟨rfl, rfl⟩

/-! ## The writes and ticks of the round trip, seen from one port -/

/-- An `'e'` write at port `i` has a character for each port. -/
theorem length_eWriteAt_tail (p : Platform) (i : Nat) (c : Byte) : (eWriteAt p i c).tail.length = p.numIn := by
  simp [eWriteAt]

/-- The character that it has for port `i`. -/
theorem getD_eWriteAt_tail {p : Platform} {i : Nat} (hi : i < p.numIn) (c : Byte) :
    (eWriteAt p i c).tail.getD i 0x2D = c := by
  simp [eWriteAt, hi]

/-- An `'e'` write at port `i` completes, gives the port its character, and keeps `TreeNeverMissed`: a port that it leaves
enabled is in `INIT` or as it was. -/
theorem eWriteAt_port {s : State} {i : Nat} (htree : TreeNeverMissed s) (hi : i < s.cfg.numIn) (c : Byte) :
    ∃ t, exec (.writeE (eWriteAt s.cfg.toPlatform i c).tail) s = .next t ∧ t.cfg = s.cfg ∧ TreeNeverMissed t ∧
      t.inAt i = (eCharView c (s.ctxIn i) (s.viewIn i)).port := by
  obtain ⟨t, ht, hc, -, -, -, -, -, -, -, hin, -⟩ := execWriteE_eq _ s (length_eWriteAt_tail s.cfg.toPlatform i c)
  refine ⟨t, ht, hc, htree.congr hc fun k hk he => ?_, by rw [hin i, if_pos hi, getD_eWriteAt_tail hi]⟩
  rw [hin k, if_pos hk] at he ⊢
  exact eCharView_enabled he

/-- A `'t'` write of the right length completes and gives a disabled port its code (R264). -/
theorem writeT_port {s : State} {ks : List Byte} {i : Nat} (htree : TreeNeverMissed s) (hl : ks.length = s.cfg.numIn)
    (hi : i < s.cfg.numIn) (he : (s.inAt i).fsmEnabled = false) :
    ∃ t, exec (.writeT ks) s = .next t ∧ t.cfg = s.cfg ∧ TreeNeverMissed t ∧ (t.inAt i).fsmEnabled = false ∧
      (t.shInAt i).connClass = ks.getD i 0 := by
  obtain ⟨t, ht, hc, -, -, -, -, -, -, -, hin, hsh⟩ := execWriteT_eq ks s hl
  exact ⟨t, ht, hc, htree.congr hc fun k _ _ => .inr (hin k), by rw [hin i]; exact he, by rw [hsh i, if_pos ⟨hi, he⟩]⟩

/-- DCM ticks leave a disabled port's enable and class alone (R192). -/
theorem ticksD_disabled {s : State} {i : Nat} (htree : TreeNeverMissed s) (hi : i < s.cfg.numIn)
    (he : (s.inAt i).fsmEnabled = false) (n : Nat) :
    ∃ t, ticksD n s = .next t ∧ t.cfg = s.cfg ∧ TreeNeverMissed t ∧ (t.inAt i).fsmEnabled = false ∧
      (t.shInAt i).connClass = (s.shInAt i).connClass := by
  obtain ⟨t, ht, hc, -, htr, -, hP⟩ := ticksD_in s i hi htree
    (fun _ p h => p.fsmEnabled = false ∧ h.connClass = (s.shInAt i).connClass) ⟨he, rfl⟩
    (fun _ _ _ _ hp hv => by rw [inStepView_disabled hp.1] at hv; cases hv; exact hp) n
  exact ⟨t, ht, hc, htr, hP⟩

/-- A DCM tick leaves a port that is enabled in `INIT` without a class (R175). -/
theorem tickD_init {s : State} {i : Nat} (htree : TreeNeverMissed s) (hi : i < s.cfg.numIn)
    (he : (s.inAt i).fsmEnabled = true) (hs : (s.inAt i).state = 0#5) :
    ∃ t, exec .tickD s = .next t ∧ t.cfg = s.cfg ∧ (t.shInAt i).devType = s.cfg.codes.typeNone ∧
      (t.shInAt i).connClass = s.cfg.codes.connNone := by
  obtain ⟨t, ht, hc, -, -, -, -, -, -, -, hin, -⟩ := execTickD_next s fun _ hk => inStepView_ne_none htree.ready hk
  obtain ⟨w, hw, -, hsh⟩ := hin i hi
  have hcodes := inStepView_init (c := s.ctxIn i) (v := s.viewIn i) he hs hw
  rw [← hsh] at hcodes
  exact ⟨t, ht, hc, hcodes⟩

/-- Disabling port `i`, forcing its code and any DCM ticks complete and leave the port disabled with the code (R271). -/
theorem disable_force_ticks {s : State} {i : Nat} {ks : List Byte} (htree : TreeNeverMissed s)
    (hl : ks.length = s.cfg.numIn) (hi : i < s.cfg.numIn) (hde : s.cfg.eCharDisable ≠ s.cfg.eCharEnable) (n : Nat) :
    ∃ s1 s2 s3, exec (.writeE (pseudoDisable s.cfg.toPlatform i).tail) s = .next s1 ∧
      exec (.writeT ks) s1 = .next s2 ∧ ticksD n s2 = .next s3 ∧ s3.cfg = s.cfg ∧ TreeNeverMissed s3 ∧
      (s3.inAt i).fsmEnabled = false ∧ (s3.shInAt i).connClass = ks.getD i 0 := by
  obtain ⟨s1, h1, hc1, ht1, hin1⟩ := eWriteAt_port htree hi s.cfg.eCharDisable
  have hdis1 : (s1.inAt i).fsmEnabled = false := by
    rw [hin1]; exact eCharView_disable (c := s.ctxIn i) hde (s.viewIn i)
  obtain ⟨s2, h2, hc2, ht2, hdis2, hconn2⟩ := writeT_port ht1 (hc1 ▸ hl) (hc1 ▸ hi) hdis1
  have hcfg2 : s2.cfg = s.cfg := hc2.trans hc1
  obtain ⟨s3, h3, hc3, ht3, hdis3, hconn3⟩ := ticksD_disabled ht2 (hcfg2 ▸ hi) hdis2 n
  exact ⟨s1, s2, s3, h1, h2, h3, hc3.trans hcfg2, ht3, hdis3, hconn3.trans hconn2⟩

/-- Enabling a disabled port and one DCM tick complete and leave the port without a class (R271). -/
theorem enable_tick {s : State} {i : Nat} (htree : TreeNeverMissed s) (hi : i < s.cfg.numIn)
    (he : (s.inAt i).fsmEnabled = false) :
    ∃ s1 s2, exec (.writeE (pseudoEnable s.cfg.toPlatform i).tail) s = .next s1 ∧ exec .tickD s1 = .next s2 ∧
      s2.cfg = s.cfg ∧ (s2.shInAt i).devType = s.cfg.codes.typeNone ∧
      (s2.shInAt i).connClass = s.cfg.codes.connNone := by
  obtain ⟨s1, h1, hc1, ht1, hin1⟩ := eWriteAt_port htree hi s.cfg.eCharEnable
  have hport : s1.inAt i = (enableView (s.viewIn i)).port :=
    hin1.trans (congrArg _ (eCharView_enable (c := s.ctxIn i) (v := s.viewIn i) he))
  obtain ⟨s2, h2, hc2, hcodes⟩ := tickD_init ht1 (hc1 ▸ hi) (by rw [hport]; rfl) (by rw [hport]; rfl)
  rw [hc1] at hcodes
  exact ⟨s1, s2, h1, h2, hc2.trans hc1, hcodes⟩

end Sys2Proof.Machine

open Sys2Proof Sys2Proof.Config Sys2Proof.Machine

/-- Settles O49: the disabled port keeps the forced class through the ticks, since each runs the `DISABLED` rule on it; the
enabling character puts it in `INIT`, whose rule clears the class. -/
theorem forcedClassRoundTrip : Obligations.ForcedClassRoundTrip := by
  intro s i ks k n htree hlen hk hde
  obtain ⟨hik, rfl⟩ := List.getElem?_eq_some_iff.1 hk
  have hi : i < s.cfg.numIn := hlen ▸ hik
  obtain ⟨s1, s2, s3, h1, h2, h3, hc3, ht3, hdis3, hconn3⟩ := disable_force_ticks htree hlen hi hde n
  have hi3 : i < s3.cfg.numIn := hc3 ▸ hi
  obtain ⟨s4, s5, h4, h5, hc5, htype5, hconn5⟩ := enable_tick ht3 hi3 hdis3
  have hi5 : i < s5.cfg.numIn := hc5 ▸ hi3
  rw [hc3] at h4 htype5 hconn5
  refine ⟨s1, s2, s3, s4, s5, h1, h2, h3, hostRead_of_exists (decide_eq_true hi3) ?_, h4, h5,
    hostRead_of_exists (decide_eq_true hi5) ?_, hostRead_of_exists (decide_eq_true hi5) ?_⟩
  · rw [State.fieldAt, hconn3, List.getD_eq_getElem _ _ hik]
  · rw [State.fieldAt, hconn5]
  · rw [State.fieldAt, htype5]
end

section
/-! SUPPORT. The state after reset, place by place (R320), and that it is as each invariant asks. -/

namespace Sys2Proof.Machine

open Sys2Proof Config

/-- What is so of the default and of every place of a list is so wherever the list is read. -/
theorem portAt_induct {α : Type} [Inhabited α] {P : α → Prop} {l : List α} (h0 : P default) (hl : ∀ x ∈ l, P x)
    (i : Nat) : P (portAt l i) := by
  rw [portAt, List.getD_eq_getElem?_getD]
  cases hx : l[i]? with
  | none => exact h0
  | some x => exact hl x (List.mem_of_getElem? hx)

/-- A slot holds a 12-bit draw after reset (R25). -/
theorem resetSlot_lt (d : ResetDraws) (x : Slot) : (resetSlot d x).toNat < 4096 := by
  rw [resetSlot, BitVec.toNat_setWidth]
  exact (Nat.mod_le _ _).trans_lt (d.sample x).isLt

theorem bufAt_resetWith_lt (p : Params) (d : ResetDraws) (x : Slot) :
    ((State.resetWith p d).bufAt x).toNat < 4096 := by
  have hports : ∀ (f : Nat → Slot) (n i : Nat),
      (portAt ((List.range n).map fun k => resetSlot d (f k)) i).toNat < 4096 := fun f n =>
    portAt_induct (P := fun v : Cell16 => v.toNat < 4096) (by decide) fun v hv => by
      obtain ⟨k, -, rfl⟩ := List.mem_map.1 hv
      exact resetSlot_lt d (f k)
  cases x with
  | inPin1 i => exact hports .inPin1 _ i
  | inPin6 i => exact hports .inPin6 _ i
  | outPin5 j => exact hports .outPin5 _ j
  | rail k =>
    show ((Vector.ofFn fun k => resetSlot d (.rail k)).get k).toNat < 4096
    rw [Vector.get_eq_getElem, Vector.getElem_ofFn]
    exact resetSlot_lt d _

theorem inAt_resetWith (p : Params) (d : ResetDraws) {i : Nat} (hi : i < p.numIn) :
    (State.resetWith p d).inAt i = resetInPort p d i := portAt_map_range _ hi

theorem outAt_resetWith (p : Params) (d : ResetDraws) {j : Nat} (hj : j < p.numOut) :
    (State.resetWith p d).outAt j = resetOutPort := portAt_replicate _ hj

theorem shInAt_resetWith (p : Params) (d : ResetDraws) {i : Nat} (hi : i < p.numIn) :
    (State.resetWith p d).shInAt i =
      { devType := p.codes.typeNone, connClass := p.codes.connNone, upd := false,
        colorRes := (List.range p.colorResultLen).map (d.colorRes i) } := portAt_map_range _ hi

/-- After reset the lists have one place for each port (log 12). -/
theorem shaped_resetWith (p : Params) (d : ResetDraws) : Shaped (State.resetWith p d) := by
  constructor <;> simp [State.resetWith]

/-- The standing answers after reset keep the environment's contract (R12, log 14). -/
theorem answersFit_resetEnv (p : Params) (d : ResetDraws) : answersFit p (resetEnv p d) := by
  intro i hi
  rw [resetEnv, portAt_map_range _ hi, List.length_map, List.length_range]

/-- An input record after reset is as the invariant of the block asks. -/
theorem inPortOk_reset {p : Params} (hp : 1 ≤ p.ringDepth) (d : ResetDraws) {i : Nat} (hi : i < p.numIn) :
    InPortOk p ((State.resetWith p d).inAt i) ((State.resetWith p d).shInAt i) := by
  rw [inAt_resetWith p d hi, shInAt_resetWith p d hi]
  exact {
    timer := Nat.two_pow_pos _
    ring := by simp [resetInPort]
    ringIdx := hp
    state := Nat.zero_le _
    oldState := Nat.zero_le _
    manual := iff_of_false nofun nofun
    colorRes := by simp }

theorem outPortOk_reset (p : Params) (d : ResetDraws) {j : Nat} (hj : j < p.numOut) :
    OutPortOk p ((State.resetWith p d).outAt j) := by
  rw [outAt_resetWith p d hj]
  exact ⟨Nat.two_pow_pos _, Nat.zero_le _, Nat.zero_le _⟩

/-- A reset with the parameters of an accepted launch meets the invariant of the block. -/
theorem inv_resetWith {p : Params} (hp : p.wellFormed = true) (d : ResetDraws) : Inv (State.resetWith p d) := by
  have hring : 1 ≤ p.ringDepth := of_decide_eq_true (Bool.and_eq_true_iff.1 hp).2
  have hin := fun (i : Nat) (hi : i < p.numIn) => inPortOk_reset hring d hi
  have hout := fun (j : Nat) (hj : j < p.numOut) => outPortOk_reset p d hj
  exact {
    cfg := hp
    shaped := shaped_resetWith p d
    ptr := Nat.succ_pos _
    buf := bufAt_resetWith_lt p d
    inTimer := fun i hi => (hin i hi).timer
    outTimer := fun j hj => (hout j hj).timer
    ring := fun i hi => (hin i hi).ring
    ringIdx := fun i hi => (hin i hi).ringIdx
    inState := fun i hi => (hin i hi).state
    inOldState := fun i hi => (hin i hi).oldState
    outState := fun j hj => (hout j hj).state
    outOldState := fun j hj => (hout j hj).oldState
    manual := fun i hi => (hin i hi).manual
    colorRes := fun i hi => (hin i hi).colorRes
    env := answersFit_resetEnv p d
    pending := fun a ha => nomatch ha }

/-- Every reset meets the session invariant: each port is enabled, in `INIT`, with no session (R320). -/
theorem sessionInv_resetWith (p : Params) (d : ResetDraws) : SessionInv (State.resetWith p d) :=
  (sessionInv_iff _).2 fun i hi => by
    rw [inAt_resetWith p d hi]
    exact ⟨iff_of_false nofun nofun, nofun⟩

/-- A reset without pin-2 detection meets the platform invariant (R194). -/
theorem platformInv_resetWith {p : Params} (hp : p.pin2Detect = false) (d : ResetDraws) :
    PlatformInv (State.resetWith p d) where
  detect := hp
  sel := rfl
  states i hi := by rw [inAt_resetWith p d hi]; exact List.mem_cons_self
  event i hi := by rw [inAt_resetWith p d hi]; exact BitVec.getLsbD_zero
  color i hi := by rw [inAt_resetWith p d hi]; rfl

/-- The parameters at reset are those of the accepted launch (log 1). -/
theorem resetParams_eq : resetParams = launchParams.params := by
  rw [resetParams, ← launchParams.platform]

end Sys2Proof.Machine

open Sys2Proof Sys2Proof.Config Sys2Proof.Machine

/-- Settles O56: the parameters at reset are well formed and without pin-2 detection, and a reset with such parameters meets
each invariant. -/
theorem resetMeetsInvariants : Obligations.ResetMeetsInvariants :=
  ⟨inv_resetWith (resetParams_eq ▸ launchParams.ok) _, sessionInv_resetWith _ _, platformInv_resetWith rfl _⟩
end

section
/-! SUPPORT. What a sampler tick leaves, case by case, and a whole cycle of ticks (R110 to R122); that no other row
touches what the sampler owns (R113, R307); the tables that a launch accepts (R121); then the statements of the
sampler. -/

namespace Sys2Proof.Machine

open Sys2Proof Config

/-! ## One tick -/

/-- A tick on an entry of the table completes with the whole tick (R110, R119). -/
theorem exec_tickS {s : State} {e : ScheduleEntry} (h : s.table.entries[s.samp.ptr]? = some e) (r : Cell16) :
    exec (.tickS r) s = .next (samplerTick e r s) := by
  show execTickS r s = _
  rw [execTickS, h]

/-- A tick that completes was on the entry that the pointer names. -/
theorem eq_samplerTick {s t : State} {e : ScheduleEntry} {r : Cell16} (he : s.table.entries[s.samp.ptr]? = some e)
    (h : exec (.tickS r) s = .next t) : t = samplerTick e r s := by
  rw [exec_tickS he] at h
  exact (Host.Outcome.next.inj h).symm

/-- The pair that a tick pushes is of the slots as the tick leaves them (R118). -/
theorem ringEntry_samplerTick (e : ScheduleEntry) (r : Cell16) (s : State) (i : Nat) :
    ringEntry (samplerTick e r s) i = ringEntry (sampleStore e r s) i := by
  obtain ⟨-, -, -, hbuf, -⟩ := samplerTick_eq e r s
  simp only [ringEntry, hbuf, sampleStore_bufAt]

/-- At the end of a cycle a port's ring takes the pair and its index advances (R118). -/
theorem samplerPort_ring_end (e : ScheduleEntry) (r : Cell16) {s : State} {i : Nat}
    (hend : s.samp.ptr + 1 = s.table.entries.length) (hi : i < s.cfg.numIn) :
    (samplerPort e r s i).ring = (s.inAt i).ring.set (s.inAt i).ringIdx (ringEntry (sampleStore e r s) i) ∧
      (samplerPort e r s i).ringIdx = ((s.inAt i).ringIdx + 1) % s.cfg.ringDepth := by
  unfold samplerPort
  simp only [if_pos (And.intro hend hi)]
  split <;> exact ⟨rfl, rfl⟩

/-- Within a cycle a port keeps its ring and its index (R118). -/
theorem samplerPort_ring_within (e : ScheduleEntry) (r : Cell16) {s : State} (i : Nat)
    (hend : s.samp.ptr + 1 ≠ s.table.entries.length) :
    (samplerPort e r s i).ring = (s.inAt i).ring ∧ (samplerPort e r s i).ringIdx = (s.inAt i).ringIdx := by
  unfold samplerPort
  simp only [if_neg (fun h : _ ∧ _ => hend h.1)]
  split <;> exact ⟨rfl, rfl⟩

/-! ## A cycle of ticks (R117, R122) -/

/-- A tick within a cycle advances the pointer and keeps the table (R116). -/
theorem samplerTick_within (e : ScheduleEntry) (r : Cell16) {s : State}
    (hend : s.samp.ptr + 1 ≠ s.table.entries.length) :
    (samplerTick e r s).samp.ptr = s.samp.ptr + 1 ∧ (samplerTick e r s).table = s.table := by
  obtain ⟨hc, -, -, -, -, -, hsamp, -⟩ := samplerTick_eq e r s
  rw [if_neg hend] at hsamp
  exact ⟨by rw [hsamp], by simp only [State.table, hc, hsamp]⟩

/-- What slot `x` holds after entries served with their answers, where it held `v` before (R114). -/
def slotAfter (x : Slot) (v : Cell16) (l : List (ScheduleEntry × Cell16)) : Cell16 :=
  l.foldl (fun v p => if p.1.dest = some x then p.2 &&& 0x0FFF else v) v

/-- A slot that some entry names holds the answer to the last such entry. -/
theorem slotAfter_last (x : Slot) (v : Cell16) {l : List (ScheduleEntry × Cell16)}
    (h : ∃ p ∈ l, p.1.dest = some x) :
    ∃ (n : Nat) (p : ScheduleEntry × Cell16), l[n]? = some p ∧ p.1.dest = some x ∧
      slotAfter x v l = p.2 &&& 0x0FFF ∧
      ∀ (m : Nat) (q : ScheduleEntry × Cell16), n < m → l[m]? = some q → q.1.dest ≠ some x := by
  induction l using List.reverseRecOn with
  | nil => obtain ⟨p, hp, -⟩ := h; cases hp
  | append_singleton l q ih =>
    rw [slotAfter, List.foldl_append]
    by_cases hq : q.1.dest = some x
    · refine ⟨l.length, q, List.getElem?_concat_length, hq, if_pos hq, fun m q' hm hq' => ?_⟩
      have hlt := (List.getElem?_eq_some_iff.1 hq').1
      rw [List.length_append, List.length_singleton] at hlt
      omega
    · have hl : ∃ p ∈ l, p.1.dest = some x := by
        obtain ⟨p, hp, hx⟩ := h
        rcases List.mem_append.1 hp with hp | hp
        · exact ⟨p, hp, hx⟩
        · rw [List.mem_singleton.1 hp] at hx; exact absurd hx hq
      obtain ⟨n, p, hn, hx, hv, hlast⟩ := ih hl
      have hlt := (List.getElem?_eq_some_iff.1 hn).1
      refine ⟨n, p, by rw [List.getElem?_append_left hlt, hn], hx, (if_neg hq).trans hv, fun m q' hm hq' => ?_⟩
      by_cases hml : m < l.length
      · exact hlast m q' hm (by rwa [List.getElem?_append_left hml] at hq')
      · have hmem := List.mem_of_getElem? ((List.getElem?_append_right (Nat.not_lt.1 hml)).symm.trans hq')
        rwa [List.mem_singleton.1 hmem]

/-- The same of a table's entries served with as many answers. -/
theorem slotAfter_zip_last (x : Slot) (v : Cell16) {l : List ScheduleEntry} {rs : List Cell16}
    (hlen : rs.length = l.length) (h : ∃ e ∈ l, e.dest = some x) :
    ∃ (n : Nat) (e : ScheduleEntry) (r : Cell16), l[n]? = some e ∧ e.dest = some x ∧ rs[n]? = some r ∧
      slotAfter x v (l.zip rs) = r &&& 0x0FFF ∧
      ∀ (m : Nat) (e' : ScheduleEntry), n < m → l[m]? = some e' → e'.dest ≠ some x := by
  have hserved : ∀ {n : Nat} {e : ScheduleEntry}, l[n]? = some e → ∃ r, (l.zip rs)[n]? = some (e, r) := by
    intro n e he
    have hn : n < rs.length := hlen ▸ (List.getElem?_eq_some_iff.1 he).1
    exact ⟨rs[n], List.getElem?_zip_eq_some.2 ⟨he, List.getElem?_eq_getElem hn⟩⟩
  obtain ⟨e, he, hx⟩ := h
  obtain ⟨k, hk⟩ := List.getElem?_of_mem he
  obtain ⟨r, hr⟩ := hserved hk
  obtain ⟨n, p, hn, hpx, hv, hlast⟩ := slotAfter_last x v ⟨(e, r), List.mem_of_getElem? hr, hx⟩
  obtain ⟨hl, hrs⟩ := List.getElem?_zip_eq_some.1 hn
  refine ⟨n, p.1, p.2, hl, hpx, hrs, hv, fun m e' hm he' => ?_⟩
  obtain ⟨r', hr'⟩ := hserved he'
  exact hlast m (e', r') hm hr'

/-- As many ticks as the table has entries left all complete, end the cycle, and serve these entries in order. -/
theorem ticksS_to_end (rs : List Cell16) (r : Cell16) (s : State)
    (hlen : s.samp.ptr + (r :: rs).length = s.table.entries.length) :
    ∃ t, ticksS (r :: rs) s = .next t ∧ t.samp.ptr = 0 ∧ (∀ i < s.cfg.numIn, (t.shInAt i).upd = true) ∧
      (∀ j < s.cfg.numOut, (t.shOutAt j).upd = true) ∧
      ∀ x, t.bufAt x = slotAfter x (s.bufAt x) ((s.table.entries.drop s.samp.ptr).zip (r :: rs)) := by
  induction rs generalizing r s with
  | nil =>
    have hend : s.samp.ptr + 1 = s.table.entries.length := hlen
    have hlt : s.samp.ptr < s.table.entries.length := hend ▸ Nat.lt_succ_self _
    obtain ⟨-, -, -, hbuf, -, -, hsamp, -, hsh, hsho⟩ := samplerTick_eq s.table.entries[s.samp.ptr] r s
    refine ⟨_, by rw [ticksS, exec_tickS (List.getElem?_eq_getElem hlt)]; rfl, by rw [hsamp, if_pos hend],
      fun i hi => by rw [hsh i, if_pos ⟨hend, hi⟩], fun j hj => by rw [hsho j, if_pos ⟨hend, hj⟩], fun x => ?_⟩
    rw [hbuf x, List.drop_eq_getElem_cons hlt, List.zip_cons_cons, List.zip_nil_right]
    rfl
  | cons r' rs ih =>
    rw [List.length_cons] at hlen
    have hend : s.samp.ptr + 1 ≠ s.table.entries.length := by rw [← hlen, List.length_cons]; omega
    have hlt : s.samp.ptr < s.table.entries.length := by omega
    obtain ⟨hc, -, -, hbuf, -⟩ := samplerTick_eq s.table.entries[s.samp.ptr] r s
    obtain ⟨hptr, htable⟩ := samplerTick_within s.table.entries[s.samp.ptr] r hend
    obtain ⟨t, ht, h0, hin, hout, hslot⟩ := ih r' (samplerTick s.table.entries[s.samp.ptr] r s)
      (by rw [hptr, htable, ← hlen]; omega)
    rw [hc] at hin hout
    refine ⟨t, by rw [ticksS, exec_tickS (List.getElem?_eq_getElem hlt)]; exact ht, h0, hin, hout, fun x => ?_⟩
    rw [hslot x, hbuf x, hptr, htable, List.drop_eq_getElem_cons hlt]
    rfl

/-! ## What the sampler owns (R113, R307) -/

/-- From `s` to `t` the sampler's registers, the slots and the rings are as before, and no SPI exchange was made. -/
structure KeepsSampler (s t : State) : Prop where
  samp : t.samp = s.samp
  buf : ∀ x, t.bufAt x = s.bufAt x
  ring : ∀ i, (t.inAt i).ring = (s.inAt i).ring ∧ (t.inAt i).ringIdx = (s.inAt i).ringIdx
  calls : ∃ cs, t.calls = s.calls ++ cs ∧ ∀ w, OracleCall.spiExchange w ∉ cs

/-- It is so where the registers, the slots, the input records and the calls are as before. -/
theorem KeepsSampler.of_eq {s t : State} (hs : t.samp = s.samp) (hb : ∀ x, t.bufAt x = s.bufAt x)
    (hi : ∀ i, t.inAt i = s.inAt i) (hk : t.calls = s.calls) : KeepsSampler s t :=
  ⟨hs, hb, fun i => by rw [hi i]; exact ⟨rfl, rfl⟩, [], by rw [hk, List.append_nil], fun _ => List.not_mem_nil⟩

theorem KeepsSampler.refl (s : State) : KeepsSampler s s := .of_eq rfl (fun _ => rfl) (fun _ => rfl) rfl

/-- Writing back an input view that has the port's ring and no SPI exchange. -/
theorem KeepsSampler.putIn {s : State} {i : Nat} {w : InView} (hr : w.port.ring = (s.inAt i).ring)
    (hx : w.port.ringIdx = (s.inAt i).ringIdx) (hk : ∀ a, OracleCall.spiExchange a ∉ w.calls) :
    KeepsSampler s (s.putIn i w) := by
  refine ⟨rfl, fun _ => rfl, fun k => ?_, w.calls, rfl, hk⟩
  rw [inAt_putIn]
  split
  · next e => rw [e]; exact ⟨hr, hx⟩
  · exact ⟨rfl, rfl⟩

/-- Writing back an output view that has no SPI exchange. -/
theorem KeepsSampler.putOut {s : State} {j : Nat} {w : OutView} (hk : ∀ a, OracleCall.spiExchange a ∉ w.calls) :
    KeepsSampler s (s.putOut j w) :=
  ⟨rfl, fun _ => rfl, fun _ => ⟨rfl, rfl⟩, w.calls, rfl, hk⟩

/-- A DCM tick: every port's step keeps its ring and makes no SPI exchange. -/
theorem KeepsSampler.tickD {s t : State} (h : exec .tickD s = .next t) : KeepsSampler s t := by
  obtain ⟨-, -, -, hs, hb, hk, hge, -, hlt, -⟩ := tickD_next h
  refine ⟨hs, hb, fun i => ?_, _, hk.trans (List.append_assoc ..), fun w hw => ?_⟩
  · by_cases hi : i < s.cfg.numIn
    · obtain ⟨v, hv, hp, -⟩ := hlt i hi
      obtain ⟨-, -, hring, hidx, -⟩ := inStepView_frame hv
      rw [hp]; exact ⟨hring, hidx⟩
    · rw [(hge i (Nat.not_lt.1 hi)).1]; exact ⟨rfl, rfl⟩
  · rcases List.mem_append.1 hw with hw | hw
    · obtain ⟨i, hi, hw⟩ := List.mem_flatMap.1 hw
      obtain ⟨v, hv, -⟩ := hlt i (List.mem_range.1 hi)
      obtain ⟨-, -, -, -, -, hspi⟩ := inStepView_frame hv
      rw [inStepCalls, hv] at hw
      exact spi_notMem hspi w hw
    · obtain ⟨j, -, hw⟩ := List.mem_flatMap.1 hw
      exact spi_notMem (outStepView_frame (s.ctxOut j) (s.viewOut j)).spi w hw

/-- An `'e'` character keeps a port's ring (R262). -/
theorem eCharView_ring (ch : Byte) (c : InCtx) (v : InView) :
    (eCharView ch c v).port.ring = v.port.ring ∧ (eCharView ch c v).port.ringIdx = v.port.ringIdx := by
  rcases eCharView_cases ch c v with ⟨-, e⟩ | ⟨-, e⟩ | e <;> rw [e] <;> exact ⟨rfl, rfl⟩

theorem KeepsSampler.writeE {cs : List Byte} {s t : State} (h : exec (.writeE cs) s = .next t) : KeepsSampler s t := by
  have h : execWriteE cs s = .next t := h
  by_cases hl : cs.length = s.cfg.numIn
  · obtain ⟨u, hu, -, hs, -, -, hb, -, -, hk, hi, -⟩ := execWriteE_eq cs s hl
    rw [hu] at h; cases h
    refine ⟨hs, fun x => by rw [State.bufAt, hb]; rfl, fun i => ?_, [], by rw [hk, List.append_nil],
      fun _ => List.not_mem_nil⟩
    rw [hi i]
    split
    · exact eCharView_ring _ _ _
    · exact ⟨rfl, rfl⟩
  · rw [execWriteE, if_neg hl] at h; cases h
    exact .refl s

theorem KeepsSampler.writeT {ks : List Byte} {s t : State} (h : exec (.writeT ks) s = .next t) : KeepsSampler s t := by
  have h : execWriteT ks s = .next t := h
  by_cases hl : ks.length = s.cfg.numIn
  · obtain ⟨u, hu, -, hs, -, -, hb, -, -, hk, hi, -⟩ := execWriteT_eq ks s hl
    rw [hu] at h; cases h
    exact .of_eq hs (fun x => by rw [State.bufAt, hb]; rfl) hi hk
  · rw [execWriteT, if_neg hl] at h; cases h
    exact .refl s

/-- A row for a port does so where its meaning does. -/
theorem KeepsSampler.onIn {i : Nat} {s t u : State} (h : onIn i s (.next u) = .next t) (hu : KeepsSampler s u) :
    KeepsSampler s t := by
  obtain ⟨-, h⟩ := onIn_eq_next h
  cases h
  exact hu

/-- Disabling a port writes no ring and makes no call (R262). -/
theorem KeepsSampler.eDisable {i : Nat} {s t : State} (h : exec (.eDisable i) s = .next t) : KeepsSampler s t :=
  .onIn h <| by
    split
    · exact .putIn rfl rfl fun _ => List.not_mem_nil
    · exact .refl s

/-- Enabling a port writes no ring and makes no call (R262). -/
theorem KeepsSampler.eEnable {i : Nat} {s t : State} (h : exec (.eEnable i) s = .next t) : KeepsSampler s t :=
  .onIn h <| by
    split
    · exact .refl s
    · exact .putIn rfl rfl fun _ => List.not_mem_nil

/-- A colour command byte starts a session at most (R266). -/
theorem KeepsSampler.bareColor {b : Byte} {i : Nat} {s t : State} (h : bareColor b i s = .next t) :
    KeepsSampler s t :=
  .onIn h <| by
    split
    · exact .refl s
    · exact .putIn rfl rfl (by simp [InView.openSession])

/-- A raw-pin byte drives pins at most (R267). -/
theorem KeepsSampler.bareRawpin {b : Byte} {i : Nat} {s t : State} (h : exec (.bareRawpin i b) s = .next t) :
    KeepsSampler s t := by
  obtain ⟨-, h⟩ := onIn_eq_next h
  split at h
  · cases h; exact .refl s
  · split at h
    · cases h
      obtain ⟨-, hport, hcalls⟩ := driveView_frame (s.ctxIn i) (rawpinEval _ b) (s.viewIn i)
      refine .putIn (by rw [hport]; rfl) (by rw [hport]; rfl) fun a ha => ?_
      rw [hcalls, viewIn_calls, List.nil_append] at ha
      obtain ⟨⟨role, d⟩, -, hd⟩ := List.mem_filterMap.1 ha
      cases d <;> cases hd
    · cases h

/-- A state rule keeps its port's ring and makes no SPI exchange. -/
theorem KeepsSampler.inState {ins : Instr} {s t : State} (h : exec ins s = .next t)
    (hf : (encode Platform.standard ins).format = .inState) : KeepsSampler s t := by
  obtain ⟨i, w, -, rfl, hw⟩ := exec_inState hf h
  exact .putIn hw.ring hw.ringIdx (spi_notMem hw.spi)

theorem KeepsSampler.outState {ins : Instr} {s t : State} (h : exec ins s = .next t)
    (hf : (encode Platform.standard ins).format = .outState) : KeepsSampler s t := by
  obtain ⟨j, w, -, rfl, hw⟩ := exec_outState hf h
  exact .putOut (spi_notMem hw.spi)

/-- Every row but `TICK_S` leaves what the sampler owns. -/
theorem KeepsSampler.exec {ins : Instr} {s t : State} (hne : ∀ r, ins ≠ .tickS r)
    (h : Machine.exec ins s = .next t) : KeepsSampler s t := by
  cases ins
  case tickS r => exact absurd rfl (hne r)
  case tickD => exact .tickD h
  case writeE => exact .writeE h
  case writeT => exact .writeT h
  case eDisable => exact .eDisable h
  case eEnable => exact .eEnable h
  case eNop | eOther => exact .onIn h (.refl s)
  case bareColor0D | bareColor0E | bareColor0F | bareColor10 | bareColor11 => exact .bareColor h
  case bareRawpin => exact .bareRawpin h
  case clrupdIn => exact .onIn h (.of_eq rfl (fun _ => rfl) (fun _ => rfl) rfl)
  case clrupdOut =>
    obtain ⟨-, h⟩ := onOut_eq_next h
    cases h; exact .of_eq rfl (fun _ => rfl) (fun _ => rfl) rfl
  case outInit | outFloatingDelay | outFloating | outWaitPin6Low | outConnection | outWaitPin5Low | outWaitPortOpen |
      outReserved => exact .outState h rfl
  all_goals exact .inState h rfl

end Sys2Proof.Machine

namespace Sys2Proof

open Config

/-! ## The tables of a launch (R121) -/

/-- Every destination is `DISCARD`, a rail or the slot of a port of the block. -/
theorem Schedule.aims_iff (p : Platform) (t : Schedule) :
    t.aims p = true ↔
      (∀ e ∈ t.entries, ∀ i, e.dest = some (.inPin1 i) ∨ e.dest = some (.inPin6 i) → i < p.numIn) ∧
        ∀ e ∈ t.entries, ∀ j, e.dest = some (.outPin5 j) → j < p.numOut := by
  have hentry : ∀ e : ScheduleEntry, e.dest.all (fun x => x.exists p) = true ↔
      (∀ i, e.dest = some (.inPin1 i) ∨ e.dest = some (.inPin6 i) → i < p.numIn) ∧
        ∀ j, e.dest = some (.outPin5 j) → j < p.numOut := by
    intro e
    cases e.dest with
    | none => simp
    | some x => cases x <;> simp [Slot.exists]
  simp only [Schedule.aims, List.all_eq_true, hentry]
  exact forall₂_and

/-- Every slot of a port of the block is a destination. -/
theorem Schedule.covers_iff (p : Platform) (t : Schedule) :
    t.covers p = true ↔
      (∀ i < p.numIn, ∃ e ∈ t.entries, e.dest = some (.inPin1 i)) ∧
        (∀ i < p.numIn, ∃ e ∈ t.entries, e.dest = some (.inPin6 i)) ∧
        ∀ j < p.numOut, ∃ e ∈ t.entries, e.dest = some (.outPin5 j) := by
  simp only [Schedule.covers, requiredSlots, List.all_append, Bool.and_eq_true, List.all_eq_true, List.any_eq_true,
    List.mem_map, List.mem_range, decide_eq_true_eq, forall_exists_index, and_imp, forall_apply_eq_imp_iff₂, and_assoc]

/-- R121 as a proposition: the lengths, and for each table its destinations and the slots it samples. -/
theorem Params.tablesWellFormed_iff (p : Params) :
    p.tablesWellFormed = true ↔
      p.schedShort.entries.length < p.schedLong.entries.length ∧
        ∀ t ∈ [p.schedShort, p.schedLong], t.aims p.toPlatform = true ∧ t.covers p.toPlatform = true := by
  simp only [Params.tablesWellFormed, Bool.and_eq_true, decide_eq_true_eq, List.forall_mem_cons, List.not_mem_nil,
    IsEmpty.forall_iff, implies_true, and_true]
  tauto

end Sys2Proof

open Sys2Proof Sys2Proof.Config Sys2Proof.Machine

/-- Settles O8: the whole tick's equations at the slots and the sampler's registers. -/
theorem samplerStoresAndAdvances : Obligations.SamplerStoresAndAdvances := by
  intro s r e he
  obtain ⟨hc, henv, hpend, hbuf, -, -, hsamp, -⟩ := samplerTick_eq e r s
  refine ⟨_, exec_tickS he r, ⟨hc, henv, hpend⟩, hbuf, fun hend => ?_, fun hend => ?_⟩
  · rw [hsamp, if_neg hend]
  · rw [hsamp, if_pos hend, ← anyColorActive_iff]
    refine ⟨rfl, ?_⟩
    cases anyColorActive s <;> decide

/-- Settles O10: the whole tick's equation at the calls. -/
theorem samplerCalls : Obligations.SamplerCalls := by
  intro s t r e he h
  obtain ⟨-, -, -, -, -, hk, -⟩ := samplerTick_eq e r s
  rw [eq_samplerTick he h]
  exact hk

/-- Settles O12: at the end of a cycle each port is published with the slots that the tick leaves; within one
nothing is. -/
theorem samplerPublication : Obligations.SamplerPublication := by
  intro s t r h
  obtain ⟨e, -, rfl⟩ := tickS_next h
  obtain ⟨-, -, -, -, -, -, -, hin, hsh, hsho⟩ := samplerTick_eq e r s
  refine ⟨fun hend => ⟨fun i hi => ?_, fun j hj => ?_, fun i hi => ?_⟩,
    fun hend => ⟨fun i => ?_, fun j => ?_, fun i => ?_⟩⟩
  · rw [hsh i, if_pos ⟨hend, hi⟩]
  · rw [hsho j, if_pos ⟨hend, hj⟩]
  · rw [hin i]
    refine (samplerPort_ring_end e r hend hi).imp_left fun hring => ?_
    rw [hring, ← ringEntry_samplerTick]
    rfl
  · rw [hsh i, if_neg fun h => hend h.1]
  · rw [hsho j, if_neg fun h => hend h.1]
  · rw [hin i]
    exact samplerPort_ring_within e r i hend

/-- Settles O13: an input record changes in three fields, an output record in none, and a port's part of `Sh` in its
update flag. -/
theorem samplerFrame : Obligations.SamplerFrame := by
  intro s t r h
  obtain ⟨e, -, rfl⟩ := tickS_next h
  obtain ⟨-, -, -, -, hout, -, -, -, hsh, hsho⟩ := samplerTick_eq e r s
  refine ⟨fun i => ?_, hout, fun i => ?_, fun j => ?_⟩
  · obtain ⟨d, g, k, hp⟩ := (tickS_next_inAt h).2 i
    rw [hp]
  · rw [hsh i]
    split <;> rfl
  · rw [hsho j]
    split <;> rfl

/-- Settles O14: the ticks serve the table's entries in order to the end of the cycle, and in a slot the last entry that
names it stands. -/
theorem fullCycleRefreshesSlots : Obligations.FullCycleRefreshesSlots := by
  intro s rs hptr hlen
  cases rs with
  | nil => cases hlen
  | cons r rs =>
    obtain ⟨t, ht, h0, hin, hout, hslot⟩ := ticksS_to_end rs r s (by rw [hptr, hlen, Nat.zero_add])
    refine ⟨t, ht, h0, hin, hout, fun x hx => ?_⟩
    rw [hslot x, hptr, List.drop_zero]
    exact slotAfter_zip_last x (s.bufAt x) hlen hx

/-- Settles O51: row by row, those other than `TICK_S` leave what the sampler owns. -/
theorem onlySamplerWritesSamplerFields : Obligations.OnlySamplerWritesSamplerFields := fun _ _ _ hne h =>
  have ⟨hs, hb, hr, hk⟩ := KeepsSampler.exec hne h
  ⟨hs, hb, hr, hk⟩

/-- Settles O60: the launch's test of its tables is R121, and the depth is tested after it. -/
theorem launchRefusesIllFormedTables : Obligations.LaunchRefusesIllFormedTables := by
  intro p d ok
  have hok : p.tablesWellFormed = true ↔ ok := by
    rw [Params.tablesWellFormed_iff]
    simp only [Schedule.aims_iff, Schedule.covers_iff, and_assoc]
    rfl
  refine ⟨fun h hring => ?_, fun h => ?_, fun h hring => ?_⟩
  · rw [launch, hok.2 h, if_neg nofun, if_neg (Nat.one_le_iff_ne_zero.1 hring)]
  · rw [launch, if_pos (Bool.eq_false_of_not_eq_true (mt hok.1 h))]
  · rw [launch, hok.2 h, if_neg nofun, if_pos hring]
end

section
/-! SUPPORT. The event words bit by bit (R150, R151); what the mode updates and the transition reset make of a view (R152,
R154, R155); the platform invariant port by port (R194); then the statements of the comparator and the debouncer. -/

namespace Sys2Proof.Machine

open Sys2Proof Config

/-! ## The event words -/

/-- The four weighted bits of an input's event word are its bits 0 to 3. -/
theorem getLsbD_eventBits4 : ∀ a b d e : Bool,
    let w : BitVec 4 := eventBit a 1 ||| eventBit b 2 ||| eventBit d 4 ||| eventBit e 8
    w.getLsbD 0 = a ∧ w.getLsbD 1 = b ∧ w.getLsbD 2 = d ∧ w.getLsbD 3 = e := by decide

/-- The two weighted bits of an output's event word are its bits 0 and 1. -/
theorem getLsbD_eventBits2 : ∀ a b : Bool,
    let w : BitVec 2 := eventBit a 1 ||| eventBit b 2
    w.getLsbD 0 = a ∧ w.getLsbD 1 = b := by decide

/-- A sample is the low 12 bits of its cell (R92). -/
theorem toNat_sample12 (v : Cell16) : (sample12 v).toNat = v.toNat % 4096 := BitVec.toNat_setWidth 12 v

/-! ## A rule as a function of its view -/

/-- A rule of input port `i` completes with the view that it makes. -/
theorem completesIn_of_view {ins : Instr} {i : Nat} {s : State} {f : InCtx → InView → InView} {w : InView}
    (h : exec ins s = .next (s.runIn i f)) (hw : f (s.ctxIn i) (s.viewIn i) = w) :
    CompletesIn ins i s w.port w.sh w.calls := hw ▸ completesIn_of_runIn h

/-- The mode update without a change of the event word counts the timer up (R152). -/
theorem tick_deb_of_eq {c : InCtx} {v : InView} (h : evIn c = v.port.event) :
    v.tick .deb c = { v with port := { v.port with timer := tickUp c.cfg v.port.timer } } := by
  simp [InView.tick, debounce, h]

/-- The mode update on a changed event word latches it and restarts the timer (R152). -/
theorem tick_deb_of_ne {c : InCtx} {v : InView} (h : evIn c ≠ v.port.event) :
    v.tick .deb c = { v with port := { v.port with event := evIn c, timer := 0 } } := by
  simp [InView.tick, debounce, h]

/-- A rule that has left its state starts the next one with timer 0 (R155). -/
theorem settle_of_ne {s0 : BitVec 5} {v : InView} (h : v.port.state ≠ s0) :
    v.settle s0 = { v with port := { v.port with timer := 0 } } := if_pos h

/-- A rule that stays in its state keeps its timer (R155). -/
theorem settle_of_eq {s0 : BitVec 5} {v : InView} (h : v.port.state = s0) : v.settle s0 = v := if_neg (not_not.2 h)

/-- `PIN2_LOW` latches pin 1 and connects, and every outcome of its tree leaves the state (R155, R179, R180). -/
theorem inPin2LowRule_eq (t : Pin2Tree) (c : InCtx) {v : InView} (hs : v.port.state = 4) :
    inRule .none (inPin2LowBody t) c v =
      pin2Effect c (pin2TreeEval t (evPin5 v.port.event) (evPin6 v.port.event) c.x1)
        { v with port := { v.port with value := c.x1, connected := true, timer := 0 } } := by
  have hleft : ∀ (o : Pin2Outcome) (w : InView), (pin2Effect c o w).settle 4 =
      pin2Effect c o { w with port := { w.port with timer := 0 } } := by
    intro o w
    cases o <;> exact settle_of_ne (by simp [pin2Effect, InState.code])
  rw [inRule, hs]
  exact hleft _ _

/-- `CONNECTED_WAITING_FOR_PIN2_HIGH` on a changed event word only latches it (R188). -/
theorem inWaitPin2HighRule_of_ne {c : InCtx} {v : InView} (h : evIn c ≠ v.port.event) :
    inRule .deb inWaitPin2HighBody c v = { v with port := { v.port with event := evIn c, timer := 0 } } := by
  have hstay : ¬ reached 0 disconnectTicks := by decide
  rw [inRule, tick_deb_of_ne h, inWaitPin2HighBody, if_neg fun hgo => hstay hgo.2.2]
  exact settle_of_eq rfl

/-- `CONNECTED_WAITING_FOR_PIN2_HIGH` on the same event word goes to `INIT` on the firing test, else counts on (R154,
R155, R188). -/
theorem inWaitPin2HighRule_of_eq {c : InCtx} {v : InView} (hs : v.port.state = 12) (h : evIn c = v.port.event) :
    inRule .deb inWaitPin2HighBody c v =
      { v with port :=
          if c.cfg.pin2Detect = true ∧ v.port.event.getLsbD 1 = false ∧ 10 ≤ tickUp c.cfg v.port.timer then
            { v.port with state := 0, timer := 0 }
          else { v.port with timer := tickUp c.cfg v.port.timer } } := by
  have hfire : ∀ n, reached n disconnectTicks = true ↔ 10 ≤ n := fun n => decide_eq_true_iff
  rw [inRule, tick_deb_of_eq h, inWaitPin2HighBody]
  by_cases hgo : c.cfg.pin2Detect = true ∧ v.port.event.getLsbD 1 = false ∧ 10 ≤ tickUp c.cfg v.port.timer
  · obtain ⟨hdet, hpin, hcount⟩ := hgo
    rw [if_pos ⟨hdet, hpin, (hfire _).2 hcount⟩, if_pos ⟨hdet, hpin, hcount⟩]
    exact settle_of_ne (by rw [hs]; exact nofun)
  · rw [if_neg fun ⟨hdet, hpin, hcount⟩ => hgo ⟨hdet, hpin, (hfire _).1 hcount⟩, if_neg hgo]
    exact settle_of_eq rfl

/-! ## The platform invariant, port by port -/

/-- The codes of the states that R194 lists: those a port may hold with pin-2 detection disabled. -/
def platformStates : List (BitVec 5) := [0, 1, 2, 3, 9, 10, 11, 13, 14, 15, 16]

theorem disabled_mem_platformStates : InState.disabled.code ∈ platformStates := by decide

theorem init_mem_platformStates : InState.init.code ∈ platformStates := by decide

/-- What the platform invariant asks of one input record (R194). -/
structure PlatformOk (p : InPort) : Prop where
  state : p.state ∈ platformStates
  event : p.event.getLsbD 1 = false
  color : p.colorActive = false

theorem platformInv_iff (s : State) :
    PlatformInv s ↔
      s.cfg.pin2Detect = false ∧ s.samp.sel = .short ∧ ∀ i < s.cfg.numIn, PlatformOk (s.inAt i) :=
  ⟨fun ⟨hd, hs, hst, hev, hco⟩ => ⟨hd, hs, fun i hi => ⟨hst i hi, hev i hi, hco i hi⟩⟩,
    fun ⟨hd, hs, h⟩ => ⟨hd, hs, fun i hi => (h i hi).state, fun i hi => (h i hi).event, fun i hi => (h i hi).color⟩⟩

/-- The override leaves a port in `DISABLED`, in `INIT` or as it was (R171). -/
theorem PlatformOk.fsmOverride {p : InPort} (h : PlatformOk p) : PlatformOk (fsmOverride p) := by
  unfold Machine.fsmOverride
  split_ifs
  · exact ⟨disabled_mem_platformStates, h.event, h.color⟩
  · exact ⟨init_mem_platformStates, h.event, h.color⟩
  · exact h

/-- The rule of a listed state leaves its port in a listed one: only `CONNECTION` with the pin-2 bit would lead out of
them (R178, R194). -/
theorem platformStates_successors {x : InState} {st : BitVec 5} (hx : x.code ∈ platformStates)
    (hst : st ∈ successors x) (h4 : x = .connection → st ≠ 4) : st ∈ platformStates := by
  revert hx hst h4
  cases x <;> revert st <;> decide

/-- The rule of a listed state keeps what the platform invariant asks of the port: an event word is latched without the
pin-2 bit, and only `NXT_COLOR_BUSY` makes a port colour-active (R150, R184, R194). -/
theorem PlatformOk.of_facts {x : InState} {c : InCtx} {v w : InView} (hd : c.cfg.pin2Detect = false)
    (h : PlatformOk v.port) (hx : v.port.state = x.code) (hf : RuleFacts x c v w) : PlatformOk w.port := by
  have hlisted : x.code ∈ platformStates := hx ▸ h.state
  refine ⟨platformStates_successors hlisted hf.state fun hc h4 => ?_, ?_, Bool.eq_false_of_not_eq_true fun hw => ?_⟩
  · exact ne_true_of_eq_false h.event (hf.pin2 hc h4)
  · obtain e | e | e := hf.event <;> rw [e]
    · exact h.event
    · exact evIn_pin2 hd
    · exact BitVec.getLsbD_zero
  · obtain rfl | ⟨hv, -⟩ := hf.color hw
    · exact absurd hlisted (by decide)
    · exact ne_true_of_eq_false h.color hv

/-- One input port's step keeps what the platform invariant asks of the port. -/
theorem PlatformOk.step {c : InCtx} {v w : InView} (hd : c.cfg.pin2Detect = false) (h : PlatformOk v.port)
    (hw : inStepView c v = some w) : PlatformOk w.port := by
  have hle : ∀ st ∈ platformStates, st.toNat ≤ 16 := by decide
  have ho : PlatformOk (Machine.fsmOverride { v.port with oldState := v.port.state }) :=
    PlatformOk.fsmOverride ⟨h.state, h.event, h.color⟩
  obtain ⟨x, hx⟩ := inStateOf_of_le (hle _ ho.state)
  exact PlatformOk.of_facts (v := { v with port := Machine.fsmOverride { v.port with oldState := v.port.state } }) hd ho
    (code_of_inStateOf hx) (inDispatchView_facts hx hw)

/-- An `'e'` character leaves a port in `DISABLED`, in `INIT` or as it was (R262). -/
theorem PlatformOk.eCharView {c : InCtx} {v : InView} (h : PlatformOk v.port) (ch : Byte) :
    PlatformOk (eCharView ch c v).port := by
  rcases eCharView_cases ch c v with ⟨-, e⟩ | ⟨-, e⟩ | e <;> rw [e]
  · exact ⟨disabled_mem_platformStates, BitVec.getLsbD_zero, h.color⟩
  · exact ⟨init_mem_platformStates, h.event, h.color⟩
  · exact h

theorem PlatformOk.bareChange {p q : InPort} (h : PlatformOk p) (hb : BareChange p q) : PlatformOk q := by
  obtain rfl | ⟨-, d, o, rfl⟩ := hb
  · exact h
  · exact ⟨h.state, h.event, h.color⟩

/-- While no port is colour-active the sampler stays on the short table (R117). -/
theorem samplerTick_sel_short {s : State} (hsel : s.samp.sel = .short)
    (hcolor : ∀ i < s.cfg.numIn, (s.inAt i).colorActive = false) (e : ScheduleEntry) (r : Cell16) :
    (samplerTick e r s).samp.sel = .short := by
  obtain ⟨-, -, -, -, -, -, hsamp, -⟩ := samplerTick_eq e r s
  have hany : ¬ anyColorActive s := fun h => by
    obtain ⟨i, hi, hca⟩ := (anyColorActive_iff s).1 h
    exact ne_true_of_eq_false (hcolor i hi) hca
  rw [hsamp, if_neg hany]
  split
  · rfl
  · exact hsel

/-- A row that a request comes to keeps what the platform invariant asks of each port (R194). -/
theorem PlatformInv.exec_port {s t : State} (h : PlatformInv s) {ins : Instr} (hr : Requested ins)
    (ht : Machine.exec ins s = .next t) {i : Nat} (hi : i < s.cfg.numIn) : PlatformOk (t.inAt i) := by
  obtain ⟨hd, -, hports⟩ := (platformInv_iff s).1 h
  have hp := hports i hi
  have hq := hr Platform.standard
  cases hf : (encode Platform.standard ins).format with
  | strobe =>
    obtain ⟨r, rfl⟩ | rfl := strobe_cases hf
    · obtain ⟨d, g, k, e⟩ := (tickS_next_inAt ht).2 i
      rw [e]
      exact ⟨hp.state, hp.event, hp.color⟩
    · obtain ⟨-, -, -, -, -, -, -, -, hin, -⟩ := tickD_next ht
      obtain ⟨w, hw, e, -⟩ := hin i hi
      rw [e]
      exact PlatformOk.step (c := s.ctxIn i) (v := s.viewIn i) hd hp hw
  | hostWrite =>
    obtain ⟨cs, rfl⟩ | ⟨ks, rfl⟩ := hostWrite_cases hf
    · obtain e | ⟨ch, e⟩ := (writeE_next ht).2 i <;> rw [e]
      · exact hp
      · exact PlatformOk.eCharView (v := s.viewIn i) hp ch
    · rw [(writeT_next ht).2 i]; exact hp
  | bareByte =>
    obtain ⟨k, hk, hb⟩ := exec_bareByte hf ht
    exact hp.bareChange (hk.forall_inAt (fun _ => .inl rfl) hb i)
  | hostStore => rw [(exec_hostStore hf ht).2 i]; exact hp
  | echar => simp [hf] at hq
  | inState => simp [hf] at hq
  | outState => simp [hf] at hq

/-- A row keeps the short table while the platform invariant holds: only `TICK_S` writes the sampler's registers
(R113, R117). -/
theorem PlatformInv.exec_sel {s t : State} (h : PlatformInv s) {ins : Instr} (ht : Machine.exec ins s = .next t) :
    t.samp.sel = .short := by
  by_cases hs : ∃ r, ins = .tickS r
  · obtain ⟨r, rfl⟩ := hs
    obtain ⟨e, -, rfl⟩ := tickS_next ht
    exact samplerTick_sel_short h.sel h.color e r
  · rw [(KeepsSampler.exec (fun r hr => hs ⟨r, hr⟩) ht).samp]
    exact h.sel

/-- Every row that a request comes to keeps the platform invariant. -/
theorem PlatformInv.exec {s t : State} (h : PlatformInv s) {ins : Instr} (hr : Requested ins)
    (ht : Machine.exec ins s = .next t) : PlatformInv t := by
  have hc := (exec_sameInputs ht).cfg
  rw [platformInv_iff, hc]
  exact ⟨h.detect, h.exec_sel ht, fun i hi => h.exec_port hr ht hi⟩

end Sys2Proof.Machine

open Sys2Proof Sys2Proof.Config Sys2Proof.Machine

/-- Settles O58: taking a request changes neither table nor record, and every row that it comes to keeps the short table
and what the invariant asks of each port. -/
theorem stepKeepsPlatformInv : Obligations.StepKeepsPlatformInv := fun _ _ hs h =>
  step_induct (fun _ _ _ h _ => ⟨h.detect, h.sel, h.states, h.event, h.color⟩)
    (fun _ _ _ hr h ht => h.exec hr ht) hs h

/-- Settles O16: each weighted bit is the word's bit, and its comparator is a bound on the slot's low 12 bits. -/
theorem eventWords : Obligations.EventWords := by
  refine ⟨fun s i => ?_, fun s j => ?_⟩
  · obtain ⟨h0, h1, h2, h3⟩ := getLsbD_eventBits4 (below (s.ctxIn i).x1.toNat tIn1Near5v)
      (s.cfg.pin2Detect && !(s.inAnswers i).pin2) (!(s.inAnswers i).pin5) (s.inAnswers i).pin6
    refine ⟨h0.trans ?_, h1, h2, h3⟩
    rw [below, InCtx.x1, toNat_sample12, ctxIn_sample, counts_and_ticks.1]
  · obtain ⟨h0, h1⟩ := getLsbD_eventBits2 (!inband (s.ctxOut j).x5.toNat tOut5BalLow tOut5BalHigh)
      (!(s.outAnswers j).pin6)
    refine ⟨h0.trans ?_, h1⟩
    obtain ⟨-, -, -, hhigh, hlow, -⟩ := counts_and_ticks
    rw [OutCtx.x5, toNat_sample12, ctxOut_sample, hhigh, hlow, decide_not, Bool.eq_iff_iff]
    simp only [Bool.not_eq_true', ← Bool.not_eq_true, inband_iff, decide_eq_true_eq]
    omega

/-- Settles O21: the rule is the effect of the tree's outcome on the latched and connected port. -/
theorem inPin2LowOutcomes : Obligations.InPin2LowOutcomes := by
  intro s i tree hi hs htree
  have hexec : exec (.inPin2Low i) s = .next (s.runIn i (inRule .none (inPin2LowBody tree))) := by
    show execInPin2Low i s = _
    rw [execInPin2Low, onIn_of_lt hi, htree]
  intro x1 p k
  generalize ho : pin2TreeEval tree ((s.inAt i).event.getLsbD 2) ((s.inAt i).event.getLsbD 3) x1 = o
  have hrule := completesIn_of_view hexec
    ((inPin2LowRule_eq tree (s.ctxIn i) (v := s.viewIn i) hs).trans (congrArg (pin2Effect (s.ctxIn i) · _) ho))
  cases o <;> exact hrule

/-- Settles O27: the rule on a changed event word, and on the same one. -/
theorem inWaitPin2High : Obligations.InWaitPin2High := by
  intro s i hi hs
  have hexec : exec (.inWaitPin2High i) s = .next (s.runIn i (inRule .deb inWaitPin2HighBody)) := onIn_of_lt hi _
  exact ⟨fun h => completesIn_of_view hexec (inWaitPin2HighRule_of_ne (v := s.viewIn i) h),
    fun h => completesIn_of_view hexec (inWaitPin2HighRule_of_eq (v := s.viewIn i) hs h)⟩

/-- Settles O23: each rule leaves its state, so its view is its pseudocode's with timer 0. -/
theorem inColorSession : Obligations.InColorSession := by
  refine ⟨fun s i hi hs => ?_, fun s i hi hs => ?_⟩
  · have hexec : exec (.inNxtColorInit i) s = .next (s.runIn i (inRule .none inNxtColorInitBody)) := onIn_of_lt hi _
    have hleft : InState.nxtColorWait.code ≠ (s.inAt i).state := by rw [hs]; decide
    exact completesIn_of_view hexec (settle_of_ne hleft)
  · have hexec : exec (.inNxtColorBusy i) s = .next (s.runIn i (inRule .none inNxtColorBusyBody)) := onIn_of_lt hi _
    have hleft : InState.waitPin2High.code ≠ (s.inAt i).state := by rw [hs]; decide
    exact completesIn_of_view hexec (settle_of_ne hleft)
end

section
/-! SUPPORT. The rules of the input states as functions of their views (R176 to R192), the three debounced waits said once;
then the statements about the single rules. -/

namespace Sys2Proof.Machine

open Sys2Proof Config

/-! ## Firing and leaving -/

theorem reached_iff (t n : Nat) : reached t n = true ↔ n ≤ t := decide_eq_true_iff

/-- A rule that stays or goes to another state restarts the timer only when it goes (R155). -/
theorem settle_ite_goto {p : Prop} [Decidable p] {v : InView} {st : InState} {s0 : BitVec 5} (hs : v.port.state = s0)
    (hst : st.code ≠ s0) :
    (if p then v.goto st else v).settle s0 =
      { v with port := if p then { v.port with state := st.code, timer := 0 } else v.port } := by
  by_cases hp : p
  · rw [if_pos hp, if_pos hp]; exact settle_of_ne hst
  · rw [if_neg hp, if_neg hp]; exact settle_of_eq hs

/-! ## The debounced waits (R177, R189 to R191) -/

/-- The pseudocode of a debounced wait: go to `st` once the latched word meets `fires` and the count has reached `n`. -/
def FiresTo (body : InCtx → InView → InView) (fires : BitVec 4 → Prop) [DecidablePred fires] (n : Nat) (st : InState) :
    Prop :=
  ∀ c v, body c v = if fires v.port.event ∧ reached v.port.timer n then v.goto st else v

theorem inFloatingBody_fires : FiresTo inFloatingBody (· ≠ 0) connectTicks .connection := fun _ _ => rfl

theorem inWaitPin1ToFloatBody_fires : FiresTo inWaitPin1ToFloatBody (·.getLsbD 0 = false) disconnectTicks .init :=
  fun _ _ => rfl

theorem inWaitPin6LowBody_fires : FiresTo inWaitPin6LowBody (·.getLsbD 3 = false) disconnectTicks .init := fun _ _ => rfl

theorem inWaitPin5HighBody_fires : FiresTo inWaitPin5HighBody (·.getLsbD 2 = false) disconnectTicks .init :=
  fun _ _ => rfl

section Debounced

variable {body : InCtx → InView → InView} {fires : BitVec 4 → Prop} [DecidablePred fires] {n : Nat} {st : InState}

/-- On a changed event word a debounced wait only latches it (R152, R154). -/
theorem FiresTo.rule_of_ne (hb : FiresTo body fires n st) (hn : 0 < n) {c : InCtx} {v : InView}
    (h : evIn c ≠ v.port.event) :
    inRule .deb body c v = { v with port := { v.port with event := evIn c, timer := 0 } } := by
  have hstay : ¬ reached 0 n = true := fun hr => Nat.not_le.2 hn ((reached_iff 0 n).1 hr)
  rw [inRule, tick_deb_of_ne h, hb, if_neg fun hgo => hstay hgo.2]
  exact settle_of_eq rfl

/-- On the same event word it goes to `st` on the firing test, else counts on (R152, R154, R155). -/
theorem FiresTo.rule_of_eq (hb : FiresTo body fires n st) {c : InCtx} {v : InView} (hst : st.code ≠ v.port.state)
    (h : evIn c = v.port.event) :
    inRule .deb body c v =
      { v with port :=
          if fires v.port.event ∧ n ≤ tickUp c.cfg v.port.timer then { v.port with state := st.code, timer := 0 }
          else { v.port with timer := tickUp c.cfg v.port.timer } } := by
  rw [inRule, tick_deb_of_eq h, hb]
  refine (settle_ite_goto (v := { v with port := { v.port with timer := tickUp c.cfg v.port.timer } }) rfl hst).trans ?_
  simp only [reached_iff]

/-- The row of a debounced wait, on a changed event word and on the same one. -/
theorem FiresTo.completes (hb : FiresTo body fires n st) (hn : 0 < n) {ins : Instr} {s : State} {i : Nat}
    (hexec : exec ins s = .next (s.runIn i (inRule .deb body))) (hst : st.code ≠ (s.inAt i).state) :
    (evIn (s.ctxIn i) ≠ (s.inAt i).event →
      CompletesIn ins i s { s.inAt i with event := evIn (s.ctxIn i), timer := 0 } (s.shInAt i) []) ∧
    (evIn (s.ctxIn i) = (s.inAt i).event →
      CompletesIn ins i s
        (if fires (s.inAt i).event ∧ n ≤ tickUp s.cfg (s.inAt i).timer then
          { s.inAt i with state := st.code, timer := 0 }
         else { s.inAt i with timer := tickUp s.cfg (s.inAt i).timer }) (s.shInAt i) []) :=
  ⟨fun h => completesIn_of_view hexec (hb.rule_of_ne hn (v := s.viewIn i) h),
    fun h => completesIn_of_view hexec (hb.rule_of_eq (v := s.viewIn i) hst h)⟩

end Debounced

/-! ## The delays (R176, R181, R183, R222) -/

/-- `FLOATING_DELAY` of an input port goes to `FLOATING` when the count reaches 2, else counts on (R153, R155, R176). -/
theorem inFloatingDelayRule_eq (c : InCtx) {v : InView} (hs : v.port.state = 1) :
    inRule .dly inFloatingDelayBody c v =
      { v with port :=
          if 2 ≤ tickUp c.cfg v.port.timer then { v.port with state := 2, timer := 0 }
          else { v.port with timer := tickUp c.cfg v.port.timer } } := by
  have hst : InState.floating.code ≠ v.port.state := by rw [hs]; decide
  refine (settle_ite_goto (v := v.tick .dly c) rfl hst).trans ?_
  simp only [reached_iff]
  rfl

/-- The same of an output port (R153, R155, R222). -/
theorem outFloatingDelayRule_eq (c : OutCtx) {v : OutView} (hs : v.port.state = 1) :
    outRule .dly outFloatingDelayBody c v =
      { v with port :=
          if 2 ≤ tickUp c.cfg v.port.timer then { v.port with state := 2, timer := 0 }
          else { v.port with timer := tickUp c.cfg v.port.timer } } := by
  have hfire : reached (tickUp c.cfg v.port.timer) floatTicks = true ↔ 2 ≤ tickUp c.cfg v.port.timer := reached_iff _ _
  have hst : OutState.floating.code ≠ v.port.state := by rw [hs]; decide
  by_cases hgo : 2 ≤ tickUp c.cfg v.port.timer
  · rw [outRule, outFloatingDelayBody, if_pos hgo]
    exact (congrArg _ (if_pos (hfire.2 hgo))).trans (if_pos hst)
  · rw [outRule, outFloatingDelayBody, if_neg hgo]
    exact (congrArg _ (if_neg (mt hfire.1 hgo))).trans (if_neg (not_not.2 rfl))

/-- `NXT_TOUCH_CHECK` counts on below 2 (R153, R181). -/
theorem inNxtTouchCheckRule_of_lt {c : InCtx} {v : InView} (h : tickUp c.cfg v.port.timer < 2) :
    inRule .dly inNxtTouchCheckBody c v = { v with port := { v.port with timer := tickUp c.cfg v.port.timer } } := by
  have hwait : ¬ reached (tickUp c.cfg v.port.timer) touchTicks = true := fun hr =>
    Nat.not_le.2 h ((reached_iff _ _).1 hr)
  exact (congrArg _ (if_neg hwait)).trans (settle_of_eq rfl)

/-- At 2 it tells touch from sound by the latched count (R155, R181). -/
theorem inNxtTouchCheckRule_of_le {c : InCtx} {v : InView} (hs : v.port.state = 5) (h : 2 ≤ tickUp c.cfg v.port.timer) :
    inRule .dly inNxtTouchCheckBody c v =
      { v with
        port := { v.port with timer := 0, state := 12 }
        sh := { v.sh with
          connClass := c.cfg.codes.connNxtDumb
          devType := if near c.x1.toNat v.port.value.toNat touchTol then c.cfg.codes.typeNxtTouch
            else c.cfg.codes.typeNxtSound } } := by
  have hfire : reached (tickUp c.cfg v.port.timer) touchTicks = true := (reached_iff _ _).2 h
  have hst : InState.waitPin2High.code ≠ v.port.state := by rw [hs]; decide
  refine (congrArg _ (if_pos hfire)).trans ((settle_of_ne hst).trans ?_)
  by_cases hn : near c.x1.toNat v.port.value.toNat touchTol = true <;> simp [hn, InState.code]

/-- `NXT_COLOR_WAIT` on a ready answer goes to `NXT_COLOR_BUSY` (R155, R183). -/
theorem inNxtColorWaitRule_of_ready {c : InCtx} {v : InView} (hs : v.port.state = 7) (hr : c.ans.ready = true) :
    inRule .dly inNxtColorWaitBody c v = { v with port := { v.port with state := 8, timer := 0 } } := by
  have hst : InState.nxtColorBusy.code ≠ v.port.state := by rw [hs]; decide
  exact (congrArg _ (if_pos hr)).trans (settle_of_ne hst)

/-- Without one it stops the session on the 50th tick (R153, R155, R183). -/
theorem inNxtColorWaitRule_of_le {c : InCtx} {v : InView} (hs : v.port.state = 7) (hr : c.ans.ready = false)
    (h : 50 ≤ tickUp c.cfg v.port.timer) :
    inRule .dly inNxtColorWaitBody c v =
      { v with
        port := { v.port with sessionOpen := false, state := 12, timer := 0 }
        calls := v.calls ++ [.colorStop c.idx] } := by
  have hfire : reached (tickUp c.cfg v.port.timer) colorTimeoutTicks = true := (reached_iff _ _).2 h
  have hst : InState.waitPin2High.code ≠ v.port.state := by rw [hs]; decide
  exact (congrArg _ ((if_neg (ne_true_of_eq_false hr)).trans (if_pos hfire))).trans (settle_of_ne hst)

/-- Before that it counts on (R153, R183). -/
theorem inNxtColorWaitRule_of_lt {c : InCtx} {v : InView} (hr : c.ans.ready = false)
    (h : tickUp c.cfg v.port.timer < 50) :
    inRule .dly inNxtColorWaitBody c v = { v with port := { v.port with timer := tickUp c.cfg v.port.timer } } := by
  have hwait : ¬ reached (tickUp c.cfg v.port.timer) colorTimeoutTicks = true := fun hf =>
    Nat.not_le.2 h ((reached_iff _ _).1 hf)
  exact (congrArg _ ((if_neg (ne_true_of_eq_false hr)).trans (if_neg hwait))).trans (settle_of_eq rfl)

/-! ## The rules that always leave their state (R178, R185 to R187) -/

/-- `CONNECTION` goes to the state of the first set bit in the order pin 2, pin 1, pin 6, pin 5, else to `INIT`
(R155, R178). -/
theorem inConnectionRule_eq (c : InCtx) {v : InView} (hs : v.port.state = 3) :
    inRule .none inConnectionBody c v =
      { v with port := { v.port with
          timer := 0
          state :=
            if v.port.event.getLsbD 1 then 4
            else if v.port.event.getLsbD 0 then 9
            else if v.port.event.getLsbD 3 then 10
            else if v.port.event.getLsbD 2 then 11
            else 0 } } := by
  have hleft : ∀ st : InState, st.code ≠ 3 →
      (v.goto st).settle v.port.state = { v with port := { v.port with timer := 0, state := st.code } } :=
    fun st hst => settle_of_ne (hs ▸ hst)
  show (inConnectionBody c v).settle v.port.state = _
  unfold inConnectionBody evPin2 evValue evPin6 evPin5
  split_ifs <;> exact hleft _ (by decide)

/-- `PIN1_LOADED` latches pin 1, connects and classifies by the two thresholds (R155, R185). -/
theorem inPin1LoadedRule_eq (c : InCtx) {v : InView} (hs : v.port.state = 9) :
    inRule .none inPin1LoadedBody c v =
      { v with
        port := { v.port with value := c.x1, connected := true, state := 13, timer := 0 }
        sh := { v.sh with
          devType := if 2538 < c.x1.toNat then c.cfg.codes.typeError else c.cfg.codes.typeUnknown
          connClass := if 2538 < c.x1.toNat then c.cfg.codes.connError
            else if c.x1.toNat < 81 then c.cfg.codes.connInputUart else c.cfg.codes.connInputDumb } } := by
  have habove : above c.x1.toNat tIn1NearPin2 = true ↔ 2538 < c.x1.toNat := decide_eq_true_iff
  have hbelow : below c.x1.toNat tIn1NearGnd = true ↔ c.x1.toNat < 81 := decide_eq_true_iff
  have hst : InState.waitPin1ToFloat.code ≠ v.port.state := by rw [hs]; decide
  refine (settle_of_ne hst).trans ?_
  by_cases ha : 2538 < c.x1.toNat
  · simp [inPin1LoadedBody, habove.2 ha, ha, InState.code]
  · by_cases hb : c.x1.toNat < 81 <;> simp [inPin1LoadedBody, habove, hbelow, ha, hb, InState.code]

end Sys2Proof.Machine

open Sys2Proof Sys2Proof.Config Sys2Proof.Machine

/-- Settles O18: each rule is its delay's, with nothing of `Sh` written and no call made. -/
theorem floatingDelayWaits : Obligations.FloatingDelayWaits := by
  refine ⟨fun s i hi hs => ?_, fun s j hj hs => ?_⟩
  · have hexec : exec (.inFloatingDelay i) s = .next (s.runIn i (inRule .dly inFloatingDelayBody)) := onIn_of_lt hi _
    exact completesIn_of_view hexec (inFloatingDelayRule_eq (s.ctxIn i) (v := s.viewIn i) hs)
  · have hexec : exec (.outFloatingDelay j) s = .next (s.runOut j (outRule .dly outFloatingDelayBody)) :=
      onOut_of_lt hj _
    have hrun := completesOut_of_runOut hexec
    rwa [outFloatingDelayRule_eq (s.ctxOut j) (v := s.viewOut j) hs] at hrun

/-- Settles O19: the row is a debounced wait for any event bit, of 35 ticks. -/
theorem inFloatingDebounces : Obligations.InFloatingDebounces := by
  intro s i hi hs
  have hst : InState.connection.code ≠ (s.inAt i).state := by rw [hs]; decide
  exact inFloatingBody_fires.completes (by decide) (onIn_of_lt hi _) hst

/-- Settles O20: the rule leaves the state for that of the first set bit. -/
theorem inConnectionPriority : Obligations.InConnectionPriority := by
  intro s i hi hs
  have hexec : exec (.inConnection i) s = .next (s.runIn i (inRule .none inConnectionBody)) := onIn_of_lt hi _
  exact completesIn_of_view hexec (inConnectionRule_eq (s.ctxIn i) (v := s.viewIn i) hs)

/-- Settles O22: the rule below 2 ticks and at 2, where `near` is the half-open tolerance over the integers. -/
theorem inTouchCheck : Obligations.InTouchCheck := by
  intro s i hi hs x1 ref
  have hexec : exec (.inNxtTouchCheck i) s = .next (s.runIn i (inRule .dly inNxtTouchCheckBody)) := onIn_of_lt hi _
  have hnear : near (s.ctxIn i).x1.toNat (s.inAt i).value.toNat touchTol = true ↔ ref - 10 ≤ x1 ∧ x1 < ref + 10 := by
    rw [near_iff, InCtx.x1, toNat_sample12]
    exact Iff.rfl
  refine ⟨fun h => completesIn_of_view hexec (inNxtTouchCheckRule_of_lt (v := s.viewIn i) h), fun h => ?_⟩
  have hrun := completesIn_of_view hexec (inNxtTouchCheckRule_of_le (v := s.viewIn i) hs h)
  simp only [viewIn_port, hnear] at hrun
  exact hrun

/-- Settles O24: the rule on a ready answer, and without one at the timeout and before it. -/
theorem inColorWait : Obligations.InColorWait := by
  intro s i hi hs
  have hexec : exec (.inNxtColorWait i) s = .next (s.runIn i (inRule .dly inNxtColorWaitBody)) := onIn_of_lt hi _
  exact ⟨fun hr => completesIn_of_view hexec (inNxtColorWaitRule_of_ready (v := s.viewIn i) hs hr),
    fun hr h => completesIn_of_view hexec (inNxtColorWaitRule_of_le (v := s.viewIn i) hs hr h),
    fun hr h => completesIn_of_view hexec (inNxtColorWaitRule_of_lt (v := s.viewIn i) hr h)⟩

/-- Settles O25: the rule's pin-1 count is the low 12 bits of the port's slot. -/
theorem inPin1LoadedBands : Obligations.InPin1LoadedBands := by
  intro s i hi hs x1 k
  have hexec : exec (.inPin1Loaded i) s = .next (s.runIn i (inRule .none inPin1LoadedBody)) := onIn_of_lt hi _
  have hx1 : (s.ctxIn i).x1.toNat = x1 := toNat_sample12 _
  have hrun := completesIn_of_view hexec (inPin1LoadedRule_eq (s.ctxIn i) (v := s.viewIn i) hs)
  rwa [hx1] at hrun

/-- Settles O28: each row is a debounced wait for its bit to clear, of 10 ticks. -/
theorem inWaitForRelease : Obligations.InWaitForRelease := by
  intro s i hi w hw hs
  simp only [List.mem_cons, List.not_mem_nil, or_false] at hw
  obtain rfl | rfl | rfl := hw
  · exact inWaitPin1ToFloatBody_fires.completes (by decide) (onIn_of_lt hi _) fun e => nomatch e.trans hs
  · exact inWaitPin6LowBody_fires.completes (by decide) (onIn_of_lt hi _) fun e => nomatch e.trans hs
  · exact inWaitPin5HighBody_fires.completes (by decide) (onIn_of_lt hi _) fun e => nomatch e.trans hs

/-- Settles O26: each rule leaves its state, so its view is its pseudocode's with timer 0. -/
theorem inPin6HighAndPin5Low : Obligations.InPin6HighAndPin5Low := by
  refine ⟨fun s i hi hs => ?_, fun s i hi hs => ?_⟩
  · have hexec : exec (.inPin6High i) s = .next (s.runIn i (inRule .none inPin6HighBody)) := onIn_of_lt hi _
    have hleft : InState.waitPin6Low.code ≠ (s.inAt i).state := by rw [hs]; decide
    exact completesIn_of_view hexec (settle_of_ne hleft)
  · have hexec : exec (.inPin5Low i) s = .next (s.runIn i (inRule .none inPin5LowBody)) := onIn_of_lt hi _
    have hleft : InState.waitPin5High.code ≠ (s.inAt i).state := by rw [hs]; decide
    exact completesIn_of_view hexec (settle_of_ne hleft)

/-- Settles O29: the rule stays in its state, so its view is its pseudocode's. -/
theorem inDisabledForcesConnected : Obligations.InDisabledForcesConnected := by
  intro s i hi _
  have hexec : exec (.inDisabled i) s = .next (s.runIn i (inRule .none inDisabledBody)) := onIn_of_lt hi _
  exact completesIn_of_view hexec (settle_of_eq rfl)
end

section
/-! SUPPORT. One port's step by the state it is in (R170 to R172); then the statements about the DCM tick. -/

namespace Sys2Proof.Machine

open Sys2Proof Config

/-- The row that the held code decodes to is the one that the dispatch runs (R172). -/
theorem exec_decodeInState (i : Nat) (s : State) : exec (decodeInState i (s.inAt i).state) s = dispatchIn i s := by
  unfold decodeInState dispatchIn
  cases inStateOf (s.inAt i).state with
  | none => rfl
  | some x => cases x <;> rfl

/-- The same for output ports (R220). -/
theorem exec_decodeOutState (j : Nat) (s : State) : exec (decodeOutState j (s.outAt j).state) s = dispatchOut j s := by
  unfold decodeOutState dispatchOut
  cases outStateOf (s.outAt j).state with
  | none => rfl
  | some x => cases x <;> rfl

/-- The override writes the state register and nothing else: `DISABLED` where the FSM is disabled, `INIT` where it is
enabled and the port was `DISABLED` (R171). -/
theorem fsmOverride_eq (p : InPort) :
    fsmOverride p = { p with state := if p.fsmEnabled = false then 16 else if p.state = 16 then 0 else p.state } := by
  obtain ⟨state, oldState, event, timer, value, connected, drv, fsmEnabled, rest⟩ := p
  cases fsmEnabled <;> by_cases hs : state = 16#5 <;> simp [fsmOverride, hs, InState.code]

/-- The next tick needs no tree that is not there unless it has none and an enabled port is in `PIN2_LOW`. -/
theorem not_treeReady_iff (s : State) :
    ¬ TreeReady s ↔
      s.cfg.pin2Tree = none ∧ ∃ i < s.cfg.numIn, (s.inAt i).fsmEnabled = true ∧ (s.inAt i).state = 4 := by
  simp [TreeReady, not_or]

end Sys2Proof.Machine

open Sys2Proof Sys2Proof.Config Sys2Proof.Machine

/-- Settles O37: the step begins with the override, and the dispatch runs the row of the code then held. -/
theorem portStepOverridesThenDispatches : Obligations.PortStepOverridesThenDispatches := by
  refine ⟨fun s i => ?_, fun s j => ?_⟩
  · intro st
    have hbegin : beginIn i s = s.setIn i { s.inAt i with oldState := (s.inAt i).state, state := st } :=
      congrArg _ (fsmOverride_eq _)
    have hst : ((beginIn i s).inAt i).state = st := by rw [hbegin, inAt_setIn, if_pos rfl]
    rw [stepIn, ← exec_decodeInState, hst, hbegin]
  · have hst : ((beginOut j s).outAt j).state = (s.outAt j).state := by rw [beginOut, outAt_setOut, if_pos rfl]
    rw [stepOut, ← exec_decodeOutState, hst, beginOut]

/-- Settles O38: the tick's views and calls are those of each port's own step from the same state. -/
theorem dcmTickStepsEachPortAlone : Obligations.DcmTickStepsEachPortAlone := by
  intro s hready
  obtain ⟨t, ht, hc, he, hp, hs, hb, hk, -, -, hin, hout⟩ :=
    execTickD_next s fun _ hi => inStepView_ne_none hready hi
  refine ⟨t, inStepCalls s, outStepCalls s, ht, ⟨hc, he, hp⟩, hs, hb, fun i hi => ?_, fun j hj => ?_, hk⟩
  · obtain ⟨v, hv, hport, hsh⟩ := hin i hi
    refine ⟨s.putIn i v, by rw [stepIn_eq i s hi, hv], ?_, ?_, ?_⟩
    · rw [hport, inAt_putIn, if_pos rfl]
    · rw [hsh, shInAt_putIn, if_pos rfl]
    · rw [calls_putIn, inStepCalls, hv]; rfl
  · obtain ⟨hport, hsh⟩ := hout j hj
    refine ⟨_, stepOut_eq j s hj, ?_, ?_, rfl⟩
    · rw [hport, outAt_putOut, if_pos rfl]
    · rw [hsh, shOutAt_putOut, if_pos rfl]

/-- Settles O39: a tick that is ready completes, and one that is not is refused at the port that lacks its tree. -/
theorem dcmTickStopsOnlyForMissingTree : Obligations.DcmTickStopsOnlyForMissingTree := by
  intro s
  have hnext (hr : TreeReady s) : ∃ t, exec .tickD s = .next t := by
    obtain ⟨t, ht, -⟩ := execTickD_next s fun _ hi => inStepView_ne_none hr hi
    exact ⟨t, ht⟩
  have hstop (hr : ¬ TreeReady s) : exec .tickD s = .refused .pin2TreeAbsent := by
    obtain ⟨htree, i, hi, hmiss⟩ := (not_treeReady_iff s).1 hr
    exact execTickD_refused s i hi ((inStepView_eq_none (s.ctxIn i) (s.viewIn i)).2 ⟨htree, hmiss⟩)
  rw [← not_treeReady_iff]
  refine ⟨⟨fun h hr => ?_, hstop⟩, fun h => hnext (not_not.1 (mt hstop h)), fun i hi htree => ?_⟩
  · obtain ⟨t, ht⟩ := hnext hr
    rw [ht] at h
    cases h
  · show execInPin2Low i s = _
    rw [execInPin2Low, onIn_of_lt hi, htree]
end

section
/-! SUPPORT. An enabled port that starts in `INIT` while its event word stays as it is, tick by tick (R175 to R178, R185):
up to `FLOATING`, there for ever with no event, and on to its class with the pin-1 bit; then the two statements. -/

namespace Sys2Proof.Machine

open Sys2Proof Config

/-! ## One step of an enabled port -/

/-- The view of a port held in `st`, with that recorded as the old state. -/
def InView.heldIn (v : InView) (st : BitVec 5) : InView := { v with port := { v.port with state := st, oldState := st } }

/-- An enabled port's step runs the rule of its state, with the old state recorded (R170 to R172). -/
theorem inStepView_enabled {c : InCtx} {v : InView} {st : BitVec 5} (he : v.port.fsmEnabled = true)
    (hs : v.port.state = st) (hst : st ≠ 16) : inStepView c v = inDispatchView c (v.heldIn st) := by
  subst hs
  have ho : fsmOverride { v.port with oldState := v.port.state } = { v.port with oldState := v.port.state } :=
    fsmOverride_agree (by simpa [he] using hst)
  rw [inStepView, ho]
  rfl

theorem tickUp_of_lt {p : Params} {t : Nat} (h : t + 1 < 2 ^ p.timerBits) : tickUp p t = t + 1 :=
  Nat.min_eq_left (Nat.le_sub_one_of_lt h)

/-- An enabled port that shows no device. -/
structure Unclassified (c : InCtx) (p : InPort) (h : InShared) : Prop where
  enabled : p.fsmEnabled = true
  connected : p.connected = false
  devType : h.devType = c.cfg.codes.typeNone
  connClass : h.connClass = c.cfg.codes.connNone

/-- `INIT` leaves the port without a class, at the start of the delay (R175). -/
theorem inStepView_of_init {c : InCtx} {v w : InView} (he : v.port.fsmEnabled = true) (hs : v.port.state = 0)
    (h : inStepView c v = some w) :
    Unclassified c w.port w.sh ∧ w.port.state = 1 ∧ w.port.event = 0 ∧ w.port.timer = 0 := by
  rw [inStepView_enabled he hs (by decide)] at h
  obtain rfl : inRule .none inInitBody c (v.heldIn 0) = w := Option.some.inj h
  rw [inInitRule_eq]
  exact ⟨⟨he, rfl, rfl, rfl⟩, rfl, rfl, rfl⟩

/-- `FLOATING_DELAY` leaves class and event as they are and counts to 2 (R176). -/
theorem inStepView_of_floatingDelay {c : InCtx} {v w : InView} (hu : Unclassified c v.port v.sh) (hs : v.port.state = 1)
    (h : inStepView c v = some w) :
    Unclassified c w.port w.sh ∧ w.port.event = v.port.event ∧
      (2 ≤ tickUp c.cfg v.port.timer ∧ w.port.state = 2 ∨
        tickUp c.cfg v.port.timer < 2 ∧ w.port.state = 1 ∧ w.port.timer = tickUp c.cfg v.port.timer) := by
  rw [inStepView_enabled hu.enabled hs (by decide)] at h
  obtain rfl : inRule .dly inFloatingDelayBody c (v.heldIn 1) = w := Option.some.inj h
  rw [inFloatingDelayRule_eq c rfl]
  obtain ⟨henabled, hconn, htype, hclass⟩ := hu
  split_ifs with hgo
  · exact ⟨⟨henabled, hconn, htype, hclass⟩, rfl, .inl ⟨hgo, rfl⟩⟩
  · exact ⟨⟨henabled, hconn, htype, hclass⟩, rfl, .inr ⟨Nat.not_le.1 hgo, rfl, rfl⟩⟩

/-- `FLOATING` on a changed event word latches it and starts to count (R177). -/
theorem inStepView_of_floating_ne {c : InCtx} {v w : InView} (hu : Unclassified c v.port v.sh) (hs : v.port.state = 2)
    (hev : evIn c ≠ v.port.event) (h : inStepView c v = some w) :
    Unclassified c w.port w.sh ∧ w.port.state = 2 ∧ w.port.event = evIn c ∧ w.port.timer = 0 := by
  rw [inStepView_enabled hu.enabled hs (by decide)] at h
  obtain rfl : inRule .deb inFloatingBody c (v.heldIn 2) = w := Option.some.inj h
  rw [inFloatingBody_fires.rule_of_ne (v := v.heldIn 2) (by decide) hev]
  exact ⟨⟨hu.enabled, hu.connected, hu.devType, hu.connClass⟩, rfl, rfl, rfl⟩

/-- `FLOATING` on the same event word goes to `CONNECTION` when a nonzero word has lasted for 35 ticks (R177). -/
theorem inStepView_of_floating_eq {c : InCtx} {v w : InView} (hu : Unclassified c v.port v.sh) (hs : v.port.state = 2)
    (hev : evIn c = v.port.event) (h : inStepView c v = some w) :
    Unclassified c w.port w.sh ∧ w.port.event = v.port.event ∧
      ((v.port.event ≠ 0 ∧ 35 ≤ tickUp c.cfg v.port.timer) ∧ w.port.state = 3 ∨
        ¬ (v.port.event ≠ 0 ∧ 35 ≤ tickUp c.cfg v.port.timer) ∧ w.port.state = 2 ∧
          w.port.timer = tickUp c.cfg v.port.timer) := by
  rw [inStepView_enabled hu.enabled hs (by decide)] at h
  obtain rfl : inRule .deb inFloatingBody c (v.heldIn 2) = w := Option.some.inj h
  rw [inFloatingBody_fires.rule_of_eq (v := v.heldIn 2) (show InState.connection.code ≠ 2 by decide) hev]
  obtain ⟨henabled, hconn, htype, hclass⟩ := hu
  split_ifs with hgo
  · exact ⟨⟨henabled, hconn, htype, hclass⟩, rfl, .inl ⟨hgo, rfl⟩⟩
  · exact ⟨⟨henabled, hconn, htype, hclass⟩, rfl, .inr ⟨hgo, rfl, rfl⟩⟩

/-- `CONNECTION` with the pin-1 bit and without the pin-2 bit goes to `PIN1_LOADED` (R178). -/
theorem inStepView_of_connection_pin1 {c : InCtx} {v w : InView} (hu : Unclassified c v.port v.sh) (hs : v.port.state = 3)
    (h0 : v.port.event.getLsbD 0 = true) (h1 : v.port.event.getLsbD 1 = false) (h : inStepView c v = some w) :
    Unclassified c w.port w.sh ∧ w.port.state = 9 := by
  rw [inStepView_enabled hu.enabled hs (by decide)] at h
  obtain rfl : inRule .none inConnectionBody c (v.heldIn 3) = w := Option.some.inj h
  rw [inConnectionRule_eq c rfl]
  refine ⟨⟨hu.enabled, hu.connected, hu.devType, hu.connClass⟩, ?_⟩
  exact (if_neg (ne_true_of_eq_false h1)).trans (if_pos h0)

/-- What `PIN1_LOADED` makes of its port (R185). -/
structure ClassifiedByPin1 (c : InCtx) (p : InPort) (h : InShared) : Prop where
  state : p.state = 13
  oldState : p.oldState = 9
  connected : p.connected = true
  timer : p.timer = 0
  value : p.value = c.x1
  devType : h.devType = if 2538 < c.x1.toNat then c.cfg.codes.typeError else c.cfg.codes.typeUnknown
  connClass : h.connClass = if 2538 < c.x1.toNat then c.cfg.codes.connError
    else if c.x1.toNat < 81 then c.cfg.codes.connInputUart else c.cfg.codes.connInputDumb

/-- `PIN1_LOADED` classifies its port by pin 1 (R185). -/
theorem inStepView_of_pin1Loaded {c : InCtx} {v w : InView} (he : v.port.fsmEnabled = true) (hs : v.port.state = 9)
    (h : inStepView c v = some w) : ClassifiedByPin1 c w.port w.sh := by
  rw [inStepView_enabled he hs (by decide)] at h
  obtain rfl : inRule .none inPin1LoadedBody c (v.heldIn 9) = w := Option.some.inj h
  rw [inPin1LoadedRule_eq c rfl]
  exact ⟨rfl, rfl, rfl, rfl, rfl, rfl, rfl⟩

/-! ## From `INIT` to `FLOATING` -/

/-- A port that was in `INIT`, after each of the first 3 ticks. -/
inductive Starting (c : InCtx) (p : InPort) (h : InShared) : Nat → Prop
  | init (he : p.fsmEnabled = true) (hs : p.state = 0) : Starting c p h 0
  | delay {k : Nat} (hk : k < 2) (hu : Unclassified c p h) (hs : p.state = 1) (hev : p.event = 0) (ht : p.timer = k) :
      Starting c p h (k + 1)
  | floating (hu : Unclassified c p h) (hs : p.state = 2) (hev : p.event = 0) : Starting c p h 3

theorem Starting.step {c : InCtx} {v w : InView} {n : Nat} (hbits : 2 < 2 ^ c.cfg.timerBits)
    (h : Starting c v.port v.sh n) (hn : n < 3) (hw : inStepView c v = some w) : Starting c w.port w.sh (n + 1) := by
  cases h with
  | init he hs =>
    obtain ⟨hu, hst, hev, ht⟩ := inStepView_of_init he hs hw
    exact .delay Nat.zero_lt_two hu hst hev ht
  | @delay k hk hu hs hev ht =>
    obtain ⟨hu', hev', hgo⟩ := inStepView_of_floatingDelay hu hs hw
    rw [ht, tickUp_of_lt (by omega)] at hgo
    obtain ⟨hfire, hst⟩ | ⟨hwait, hst, ht'⟩ := hgo
    · obtain rfl : k = 1 := by omega
      exact .floating hu' hst (hev'.trans hev)
    · exact .delay hwait hu' hst (hev'.trans hev) ht'
  | floating => exact absurd hn (Nat.lt_irrefl 3)

/-- After at least one tick it shows no device. -/
theorem Starting.unclassified {c : InCtx} {p : InPort} {h : InShared} {n : Nat} (hp : Starting c p h n) (hn : 1 ≤ n) :
    Unclassified c p h := by
  cases hp with
  | init => exact absurd hn (Nat.not_succ_le_zero 0)
  | delay _ hu => exact hu
  | floating hu => exact hu

/-! ## No event -/

/-- A port that was in `INIT`, after `n` ticks with no event: starting up, then in `FLOATING` for ever. -/
def SettlesEmpty (c : InCtx) (n : Nat) (p : InPort) (h : InShared) : Prop :=
  n < 3 ∧ Starting c p h n ∨ 3 ≤ n ∧ Unclassified c p h ∧ p.state = 2 ∧ p.event = 0

theorem SettlesEmpty.step {c : InCtx} {v w : InView} {n : Nat} (hbits : 2 < 2 ^ c.cfg.timerBits) (hc : evIn c = 0)
    (h : SettlesEmpty c n v.port v.sh) (hw : inStepView c v = some w) : SettlesEmpty c (n + 1) w.port w.sh := by
  obtain ⟨hn, hstart⟩ | ⟨hn, hu, hs, hev⟩ := h
  · have hnext := hstart.step hbits hn hw
    by_cases hlast : n + 1 < 3
    · exact .inl ⟨hlast, hnext⟩
    · obtain rfl : n = 2 := by omega
      cases hnext with
      | delay hk => exact absurd hk (Nat.lt_irrefl 2)
      | floating hu hs hev => exact .inr ⟨Nat.le_refl 3, hu, hs, hev⟩
  · obtain ⟨hu', hev', hgo⟩ := inStepView_of_floating_eq hu hs (hc.trans hev.symm) hw
    obtain ⟨⟨hne, -⟩, -⟩ | ⟨-, hst, -⟩ := hgo
    · exact absurd hev hne
    · exact .inr ⟨Nat.le_succ_of_le hn, hu', hst, hev'.trans hev⟩

/-! ## A steady device on pin 1 -/

/-- A port that was in `INIT`, after `n` ticks with a steady event word: starting up, counting the word to 35, then through
`CONNECTION` and `PIN1_LOADED` to its class on tick 41. -/
inductive Connecting (c : InCtx) (p : InPort) (h : InShared) : Nat → Prop
  | starting {n : Nat} (hp : Starting c p h n) : Connecting c p h n
  | counting {k : Nat} (hk : k < 35) (hu : Unclassified c p h) (hs : p.state = 2) (hev : p.event = evIn c)
      (ht : p.timer = k) : Connecting c p h (k + 4)
  | connection (hu : Unclassified c p h) (hs : p.state = 3) (hev : p.event = evIn c) : Connecting c p h 39
  | loaded (hu : Unclassified c p h) (hs : p.state = 9) : Connecting c p h 40
  | classified (hp : ClassifiedByPin1 c p h) : Connecting c p h 41
  | later {n : Nat} (hn : 41 < n) : Connecting c p h n

theorem Connecting.step {c : InCtx} {v w : InView} {n : Nat} (hbits : 35 < 2 ^ c.cfg.timerBits)
    (h0 : (evIn c).getLsbD 0 = true) (h1 : (evIn c).getLsbD 1 = false) (h : Connecting c v.port v.sh n)
    (hw : inStepView c v = some w) : Connecting c w.port w.sh (n + 1) := by
  have hne : evIn c ≠ 0 := fun e => by rw [e] at h0; cases h0
  cases h with
  | starting hp =>
    by_cases hn : n < 3
    · exact .starting (hp.step (by omega) hn hw)
    · cases hp with
      | init => exact absurd (by decide) hn
      | delay hk => omega
      | floating hu hs hev =>
        obtain ⟨hu', hst, hev', ht⟩ := inStepView_of_floating_ne hu hs (hev ▸ hne) hw
        exact .counting (by decide) hu' hst hev' ht
  | @counting k hk hu hs hev ht =>
    obtain ⟨hu', hev', hgo⟩ := inStepView_of_floating_eq hu hs hev.symm hw
    rw [ht, tickUp_of_lt (by omega)] at hgo
    obtain ⟨⟨-, hfire⟩, hst⟩ | ⟨hwait, hst, ht'⟩ := hgo
    · obtain rfl : k = 34 := by omega
      exact .connection hu' hst (hev'.trans hev)
    · have hk' : k + 1 < 35 := Nat.not_le.1 fun hfire => hwait ⟨hev ▸ hne, hfire⟩
      exact .counting hk' hu' hst (hev'.trans hev) ht'
  | connection hu hs hev =>
    obtain ⟨hu', hst⟩ := inStepView_of_connection_pin1 hu hs (hev ▸ h0) (hev ▸ h1) hw
    exact .loaded hu' hst
  | loaded hu hs => exact .classified (inStepView_of_pin1Loaded hu.enabled hs hw)
  | classified => exact .later (Nat.lt_succ_self 41)
  | later hn => exact .later (Nat.lt_succ_of_lt hn)

/-- After each of ticks 1 to 40 the port shows no device. -/
theorem Connecting.unclassified {c : InCtx} {p : InPort} {h : InShared} {n : Nat} (hp : Connecting c p h n) (h1 : 1 ≤ n)
    (h40 : n ≤ 40) : Unclassified c p h := by
  cases hp with
  | starting hp => exact hp.unclassified h1
  | counting _ hu => exact hu
  | connection hu => exact hu
  | loaded hu => exact hu
  | classified => exact absurd h40 (by decide)
  | later hn => omega

/-- After tick 41 it is classified. -/
theorem Connecting.classified_of_41 {c : InCtx} {p : InPort} {h : InShared} (hp : Connecting c p h 41) :
    ClassifiedByPin1 c p h := by
  cases hp with
  | starting hp => cases hp with | delay hk => exact absurd hk (by decide)
  | counting hk => exact absurd hk (by decide)
  | classified hp => exact hp
  | later hn => exact absurd hn (Nat.lt_irrefl 41)

end Sys2Proof.Machine

open Sys2Proof Sys2Proof.Config Sys2Proof.Machine

/-- Settles O40: the run of ticks keeps the port where `Connecting` puts it after each of them. -/
theorem inputConnectionLatency : Obligations.InputConnectionLatency := by
  intro s i hi htree hbits he hs h0 h1
  have hrun := ticksD_in s i hi htree (fun n p h => Connecting (s.ctxIn i) p h n) (.starting (.init he hs))
    fun _ _ _ _ hp hw => hp.step (v := ⟨_, _, []⟩) hbits h0 h1 hw
  refine ⟨fun n hn hn' => ?_, ?_⟩
  · obtain ⟨u, hu, -, -, -, -, hp⟩ := hrun n
    obtain ⟨-, hconn, htype, hclass⟩ := hp.unclassified hn hn'
    exact ⟨u, hu, htype, hclass, hconn⟩
  · obtain ⟨t, ht, -, -, -, -, hp⟩ := hrun 41
    obtain ⟨hstate, hold, hconn, htimer, hvalue, htype, hclass⟩ := hp.classified_of_41
    rw [InCtx.x1, toNat_sample12] at htype hclass
    exact ⟨t, ht, hstate, hold, hconn, htimer, hvalue, htype, hclass⟩

/-- Settles O42: the run of ticks keeps the port where `SettlesEmpty` puts it after each of them. -/
theorem emptyPortSettlesInFloating : Obligations.EmptyPortSettlesInFloating := by
  intro s i n hi htree hbits he hs hev hn
  obtain ⟨t, ht, -, -, -, -, hp⟩ := ticksD_in s i hi htree (SettlesEmpty (s.ctxIn i))
    (.inl ⟨Nat.zero_lt_succ 2, .init he hs⟩) (fun _ _ _ _ hp hw => hp.step (v := ⟨_, _, []⟩) hbits hev hw) n
  obtain ⟨hlt, -⟩ | ⟨-, ⟨-, hconn, htype, hclass⟩, hstate, hevent⟩ := hp
  · exact absurd hn (Nat.not_le.2 hlt)
  · exact ⟨t, ht, hstate, hevent, hconn, htype, hclass⟩
end

section
/-! SUPPORT. The rules of the output states as functions of their views (R221 to R227), each by whether it stays in its
state or leaves it (R155); then the statements about the single rules and the band tables. -/

namespace Sys2Proof.Machine

open Sys2Proof Config

/-! ## A rule as a function of its view -/

/-- A rule of output port `j` completes with the view that it makes. -/
theorem completesOut_of_view {ins : Instr} {j : Nat} {s : State} {f : OutCtx → OutView → OutView} {w : OutView}
    (h : exec ins s = .next (s.runOut j f)) (hw : f (s.ctxOut j) (s.viewOut j) = w) :
    CompletesOut ins j s w.port w.sh w.calls := hw ▸ completesOut_of_runOut h

section

variable {m : TimerMode} {body : OutCtx → OutView → OutView} {c : OutCtx} {v w : OutView}

/-- A rule that stays in its state is its pseudocode after the mode update (R155). -/
theorem outRule_of_stays (hb : body c (v.tick m c) = w) (hw : w.port.state = v.port.state) :
    outRule m body c v = w := by
  rw [outRule, hb]
  exact if_neg (not_not.2 hw)

/-- A rule that leaves its state starts the next one with timer 0 (R155). -/
theorem outRule_of_leaves (hb : body c (v.tick m c) = w) (hw : w.port.state ≠ v.port.state) :
    outRule m body c v = { w with port := { w.port with timer := 0 } } := by
  rw [outRule, hb]
  exact if_pos hw

/-- The mode update without a change of the event word counts the timer up (R152). -/
theorem out_tick_deb_of_eq (h : evOut c = v.port.event) :
    v.tick .deb c = { v with port := { v.port with timer := tickUp c.cfg v.port.timer } } := by
  simp [OutView.tick, debounce, h]

/-- The mode update on a changed event word latches it and restarts the timer (R152). -/
theorem out_tick_deb_of_ne (h : evOut c ≠ v.port.event) :
    v.tick .deb c = { v with port := { v.port with event := evOut c, timer := 0 } } := by
  simp [OutView.tick, debounce, h]

end

/-! ## The rules -/

/-- `INIT` floats pin 5, then pin 6, and clears the port, from whichever state it runs (R221, R228). -/
theorem outInitRule_eq (c : OutCtx) (v : OutView) :
    outRule .none outInitBody c v =
      { port := { v.port with
          state := 1, event := 0, connEvent := 0, timer := 0, connected := false,
          drv := { pin5 := .float, pin6 := .float } }
        sh := { v.sh with devType := c.cfg.codes.typeNone, connClass := c.cfg.codes.connNone }
        calls := v.calls ++ [.drive (.outPin5 c.idx) .float] ++ [.drive (.outPin6 c.idx) .float] } := by
  by_cases h : OutState.floatingDelay.code = v.port.state
  · exact outRule_of_stays rfl h
  · exact outRule_of_leaves rfl h

/-- `FLOATING` on a changed event word latches it and pin 5 (R152, R154, R223). -/
theorem outFloatingRule_of_ne {c : OutCtx} {v : OutView} (h : evOut c ≠ v.port.event) :
    outRule .deb outFloatingBody c v =
      { v with port := { v.port with value5Float := c.x5, event := evOut c, timer := 0 } } := by
  have hstay : ¬ reached 0 connectTicks = true := by decide
  refine outRule_of_stays ?_ rfl
  rw [out_tick_deb_of_ne h]
  exact if_neg fun hgo => hstay hgo.2

/-- `FLOATING` on the same nonzero event word for 35 ticks latches it as `ConnEvent` and drives pin 5 low (R154, R155,
R223). -/
theorem outFloatingRule_of_fires {c : OutCtx} {v : OutView} (hs : v.port.state = 2) (h : evOut c = v.port.event)
    (hgo : v.port.event ≠ 0 ∧ 35 ≤ tickUp c.cfg v.port.timer) :
    outRule .deb outFloatingBody c v =
      { v with
        port := { v.port with
          value5Float := c.x5, connEvent := evOut c, drv := { v.port.drv with pin5 := .low }, state := 3, timer := 0 }
        calls := v.calls ++ [.drive (.outPin5 c.idx) .low] } := by
  have hst : OutState.waitPin6Low.code ≠ v.port.state := by rw [hs]; decide
  have hbody := congrArg (outFloatingBody c) (out_tick_deb_of_eq h)
  rw [h]
  exact (outRule_of_leaves (hbody.trans (if_pos (hgo.imp_right (reached_iff _ connectTicks).2))) hst).trans rfl

/-- `FLOATING` on the same event word without that latches pin 5 and counts on (R154, R223). -/
theorem outFloatingRule_of_waits {c : OutCtx} {v : OutView} (h : evOut c = v.port.event)
    (hwait : ¬ (v.port.event ≠ 0 ∧ 35 ≤ tickUp c.cfg v.port.timer)) :
    outRule .deb outFloatingBody c v =
      { v with port := { v.port with value5Float := c.x5, timer := tickUp c.cfg v.port.timer } } := by
  refine outRule_of_stays ?_ rfl
  rw [out_tick_deb_of_eq h]
  exact if_neg fun hgo => hwait (hgo.imp_right (reached_iff _ connectTicks).1)

/-- `WAITING_FOR_PIN6_LOW` latches the driven-low pin 5 when the count reaches 2 (R153, R155, R224). -/
theorem outWaitPin6LowRule_eq (c : OutCtx) {v : OutView} (hs : v.port.state = 3) :
    outRule .dly outWaitPin6LowBody c v =
      { v with port :=
          if 2 ≤ tickUp c.cfg v.port.timer then { v.port with value5Low := c.x5, state := 4, timer := 0 }
          else { v.port with timer := tickUp c.cfg v.port.timer } } := by
  have hfire : reached (tickUp c.cfg v.port.timer) lowTicks = true ↔ 2 ≤ tickUp c.cfg v.port.timer := reached_iff _ _
  have hst : OutState.connection.code ≠ v.port.state := by rw [hs]; decide
  by_cases hgo : 2 ≤ tickUp c.cfg v.port.timer
  · rw [if_pos hgo]
    exact (outRule_of_leaves (if_pos (hfire.2 hgo)) hst).trans rfl
  · rw [if_neg hgo]
    exact outRule_of_stays (if_neg (mt hfire.1 hgo)) rfl

/-- The band between counts that are natural numbers. -/
theorem inband_natCast (x lo hi : Nat) : inband x lo hi = true ↔ lo ≤ x ∧ x < hi := by
  rw [inband_iff, Int.ofNat_le, Int.ofNat_lt]

/-- The balance band in counts (R8, R151, R225). -/
theorem balanced_iff (x : Nat) : inband x tOut5BalLow tOut5BalHigh = true ↔ 1965 ≤ x ∧ x < 2129 := inband_natCast _ _ _

/-- `CONNECTION` with pin 5 balanced floats it again and goes to `INIT` (R155, R225). -/
theorem outConnectionRule_of_balanced (c : OutCtx) {v : OutView} (hs : v.port.state = 4)
    (hbal : 1965 ≤ v.port.value5Float.toNat ∧ v.port.value5Float.toNat < 2129) :
    outRule .none outConnectionBody c v =
      { v with
        port := { v.port with state := 0, timer := 0, drv := { v.port.drv with pin5 := .float } }
        calls := v.calls ++ [.drive (.outPin5 c.idx) .float] } := by
  have hst : OutState.init.code ≠ v.port.state := by rw [hs]; decide
  exact (outRule_of_leaves (if_pos ((balanced_iff _).2 hbal)) hst).trans rfl

/-- `CONNECTION` with pin 5 the same floating and driven low classifies by the float bands (R142, R155, R225). -/
theorem outConnectionRule_of_near (c : OutCtx) {v : OutView} (hs : v.port.state = 4)
    (hbal : ¬ (1965 ≤ v.port.value5Float.toNat ∧ v.port.value5Float.toNat < 2129))
    (hnear : near v.port.value5Float.toNat v.port.value5Low.toNat 50 = true) :
    outRule .none outConnectionBody c v =
      { port := { v.port with
          state := 6, timer := 0, connected := true, drv := { v.port.drv with pin5 := .float } }
        sh := { v.sh with
          devType := (floatBands c.cfg.codes v.port.value5Float.toNat (v.port.connEvent.getLsbD 1)).1
          connClass := (floatBands c.cfg.codes v.port.value5Float.toNat (v.port.connEvent.getLsbD 1)).2 }
        calls := v.calls ++ [.drive (.outPin5 c.idx) .float] } := by
  have hst : OutState.waitPortOpen.code ≠ v.port.state := by rw [hs]; decide
  exact (outRule_of_leaves ((if_neg (mt (balanced_iff _).1 hbal)).trans (if_pos hnear)) hst).trans rfl

/-- `CONNECTION` with pin 5 changed by driving it low goes on to re-measure it (R142, R155, R225). -/
theorem outConnectionRule_of_far (c : OutCtx) {v : OutView} (hs : v.port.state = 4)
    (hbal : ¬ (1965 ≤ v.port.value5Float.toNat ∧ v.port.value5Float.toNat < 2129))
    (hfar : ¬ near v.port.value5Float.toNat v.port.value5Low.toNat 50 = true) :
    outRule .none outConnectionBody c v = { v with port := { v.port with state := 5, timer := 0 } } := by
  have hst : OutState.waitPin5Low.code ≠ v.port.state := by rw [hs]; decide
  exact (outRule_of_leaves ((if_neg (mt (balanced_iff _).1 hbal)).trans (if_neg hfar)) hst).trans rfl

/-- `WAITING_FOR_PIN5_LOW` counts on below 2 (R153, R226). -/
theorem outWaitPin5LowRule_of_lt {c : OutCtx} {v : OutView} (h : tickUp c.cfg v.port.timer < 2) :
    outRule .dly outWaitPin5LowBody c v = { v with port := { v.port with timer := tickUp c.cfg v.port.timer } } := by
  have hwait : ¬ reached (tickUp c.cfg v.port.timer) lowTicks = true := fun hr =>
    Nat.not_le.2 h ((reached_iff _ _).1 hr)
  exact outRule_of_stays (if_neg hwait) rfl

/-- At 2 it re-measures pin 5 and classifies by the driven-low bands (R155, R226). -/
theorem outWaitPin5LowRule_of_le {c : OutCtx} {v : OutView} (hs : v.port.state = 5)
    (h : 2 ≤ tickUp c.cfg v.port.timer) :
    outRule .dly outWaitPin5LowBody c v =
      { port := { v.port with
          value5Low := c.x5, state := 6, timer := 0, connected := true, drv := { v.port.drv with pin5 := .float } }
        sh := { v.sh with
          devType := (lowBands c.cfg.codes c.x5.toNat).1, connClass := (lowBands c.cfg.codes c.x5.toNat).2 }
        calls := v.calls ++ [.drive (.outPin5 c.idx) .float] } := by
  have hfire : reached (tickUp c.cfg v.port.timer) lowTicks = true := (reached_iff _ _).2 h
  have hst : OutState.waitPortOpen.code ≠ v.port.state := by rw [hs]; decide
  exact (outRule_of_leaves (if_pos hfire) hst).trans rfl

/-- `CONNECTED_WAITING_FOR_PORT_OPEN` on a changed event word only latches it (R152, R154, R227). -/
theorem outWaitPortOpenRule_of_ne {c : OutCtx} {v : OutView} (h : evOut c ≠ v.port.event) :
    outRule .deb outWaitPortOpenBody c v = { v with port := { v.port with event := evOut c, timer := 0 } } := by
  have hstay : ¬ reached 0 disconnectTicks = true := by decide
  refine outRule_of_stays ?_ rfl
  rw [out_tick_deb_of_ne h]
  exact if_neg fun hgo => hstay hgo.2

/-- On the same event word it goes to `INIT` when the word has differed from `ConnEvent` for 10 ticks, else counts on
(R154, R155, R227). -/
theorem outWaitPortOpenRule_of_eq {c : OutCtx} {v : OutView} (hs : v.port.state = 6) (h : evOut c = v.port.event) :
    outRule .deb outWaitPortOpenBody c v =
      { v with port :=
          if v.port.event ≠ v.port.connEvent ∧ 10 ≤ tickUp c.cfg v.port.timer then
            { v.port with state := 0, timer := 0 }
          else { v.port with timer := tickUp c.cfg v.port.timer } } := by
  have hst : OutState.init.code ≠ v.port.state := by rw [hs]; decide
  have hbody := congrArg (outWaitPortOpenBody c) (out_tick_deb_of_eq h)
  by_cases hgo : v.port.event ≠ v.port.connEvent ∧ 10 ≤ tickUp c.cfg v.port.timer
  · rw [if_pos hgo]
    exact (outRule_of_leaves (hbody.trans (if_pos (hgo.imp_right (reached_iff _ disconnectTicks).2))) hst).trans rfl
  · rw [if_neg hgo]
    exact outRule_of_stays (hbody.trans (if_neg fun hf => hgo (hf.imp_right (reached_iff _ disconnectTicks).1))) rfl

end Sys2Proof.Machine

open Sys2Proof Sys2Proof.Config Sys2Proof.Machine

/-- Settles O31: the rule on a changed event word, and on the same one when it fires and when it waits. -/
theorem outFloatingDebounces : Obligations.OutFloatingDebounces := by
  intro s j hj hs
  have hexec : exec (.outFloating j) s = .next (s.runOut j (outRule .deb outFloatingBody)) := onOut_of_lt hj _
  exact ⟨fun h => completesOut_of_view hexec (outFloatingRule_of_ne (v := s.viewOut j) h),
    fun h hgo => completesOut_of_view hexec (outFloatingRule_of_fires (v := s.viewOut j) hs h hgo),
    fun h hwait => completesOut_of_view hexec (outFloatingRule_of_waits (v := s.viewOut j) h hwait)⟩

/-- Settles O32: the rule is a delay of 2 ticks that then latches pin 5. -/
theorem outWaitPin6Low : Obligations.OutWaitPin6Low := by
  intro s j hj hs
  have hexec : exec (.outWaitPin6Low j) s = .next (s.runOut j (outRule .dly outWaitPin6LowBody)) := onOut_of_lt hj _
  exact completesOut_of_view hexec (outWaitPin6LowRule_eq (s.ctxOut j) (v := s.viewOut j) hs)

/-- Settles O33: the rule with pin 5 balanced, near its driven-low count, and far from it, where `near` is the half-open
tolerance over the integers. -/
theorem outConnectionDecides : Obligations.OutConnectionDecides := by
  intro s j hj hs v l
  have hexec : exec (.outConnection j) s = .next (s.runOut j (outRule .none outConnectionBody)) := onOut_of_lt hj _
  have hnear : near v (s.outAt j).value5Low.toNat 50 = true ↔ l - 50 ≤ v ∧ (v : Int) < l + 50 := near_iff _ _ _
  exact ⟨fun hbal => completesOut_of_view hexec (outConnectionRule_of_balanced (s.ctxOut j) (v := s.viewOut j) hs hbal),
    fun hbal h => completesOut_of_view hexec
      (outConnectionRule_of_near (s.ctxOut j) (v := s.viewOut j) hs hbal (hnear.2 h)),
    fun hbal h => completesOut_of_view hexec
      (outConnectionRule_of_far (s.ctxOut j) (v := s.viewOut j) hs hbal (mt hnear.1 h))⟩

/-- Settles O34: the rule below 2 ticks and at 2, where its pin-5 count is the low 12 bits of the port's slot. -/
theorem outWaitPin5Low : Obligations.OutWaitPin5Low := by
  intro s j hj hs x5
  have hexec : exec (.outWaitPin5Low j) s = .next (s.runOut j (outRule .dly outWaitPin5LowBody)) := onOut_of_lt hj _
  have hx5 : (s.ctxOut j).x5.toNat = x5 := toNat_sample12 _
  refine ⟨fun h => completesOut_of_view hexec (outWaitPin5LowRule_of_lt (v := s.viewOut j) h), fun h => ?_⟩
  have hrun := completesOut_of_view hexec (outWaitPin5LowRule_of_le (v := s.viewOut j) hs h)
  rwa [hx5] at hrun

/-- Settles O35: the rule on a changed event word, and on the same one. -/
theorem outWaitPortOpen : Obligations.OutWaitPortOpen := by
  intro s j hj hs
  have hexec : exec (.outWaitPortOpen j) s = .next (s.runOut j (outRule .deb outWaitPortOpenBody)) := onOut_of_lt hj _
  exact ⟨fun h => completesOut_of_view hexec (outWaitPortOpenRule_of_ne (v := s.viewOut j) h),
    fun h => completesOut_of_view hexec (outWaitPortOpenRule_of_eq (v := s.viewOut j) hs h)⟩

/-- Settles O30: the reserved code's row runs the `INIT` rule, which is the same from every state. -/
theorem outInitClearsPort : Obligations.OutInitClearsPort := by
  intro s j ins hj hins
  have hexec : exec ins s = .next (s.runOut j (outRule .none outInitBody)) := by
    obtain ⟨rfl, -⟩ | ⟨rfl, -⟩ := hins <;> exact onOut_of_lt hj _
  exact completesOut_of_view hexec (outInitRule_eq (s.ctxOut j) (s.viewOut j))

/-- Settles O36: each row's comparators are bounds by the thresholds of R8. -/
theorem outputBandTables : Obligations.OutputBandTables := by
  intro k v e6
  obtain ⟨-, -, -, -, -, -, hbal, hiicHigh, hiicLow, hgnd, hnew, hmini, -⟩ := thresholdsAndTicks
  have hbelow : ∀ t, below v t = true ↔ v < t := fun t => decide_eq_true_iff
  constructor
  · simp only [floatBands, inband_natCast, Bool.and_eq_true, hbelow, ge_iff_le, decide_eq_true_eq, and_assoc,
      hbal, hiicHigh, hiicLow, hgnd, hnew, hmini]
  · simp only [lowBands, Bool.and_eq_true, hbelow, ge_iff_le, decide_eq_true_eq, hbal, hnew, hmini]
end

section
/-! SUPPORT. An output port that starts in `INIT` while its event word and pin 5 stay as they are, pin 5 not balanced,
tick by tick (R221 to R225): up to `FLOATING`, counting the event word there, then measuring pin 5 driven low, and on
to its class; then the statement. -/

namespace Sys2Proof.Machine

open Sys2Proof Config

/-! ## One step of an output port -/

/-- The view of a port held in `st`, with that recorded as the old state. -/
def OutView.heldIn (v : OutView) (st : BitVec 3) : OutView :=
  { v with port := { v.port with state := st, oldState := st } }

/-- A port's step runs the rule of its state, with the old state recorded (R220). -/
theorem outStepView_eq {c : OutCtx} {v : OutView} {st : BitVec 3} (hs : v.port.state = st) :
    outStepView c v = outDispatchView c (v.heldIn st) := by
  subst hs
  rfl

/-- An output port that shows no device. -/
structure OutUnclassified (c : OutCtx) (p : OutPort) (h : OutShared) : Prop where
  connected : p.connected = false
  devType : h.devType = c.cfg.codes.typeNone
  connClass : h.connClass = c.cfg.codes.connNone

/-- What `CONNECTION` makes of a port whose pin 5 reads the same floating and driven low (R225). -/
structure ClassifiedByPin5 (c : OutCtx) (p : OutPort) (h : OutShared) : Prop where
  state : p.state = 6
  connected : p.connected = true
  pin5 : p.drv.pin5 = .float
  devType : h.devType = (floatBands c.cfg.codes c.x5.toNat ((evOut c).getLsbD 1)).1
  connClass : h.connClass = (floatBands c.cfg.codes c.x5.toNat ((evOut c).getLsbD 1)).2

/-- A port that was in `INIT`, after `n` ticks with a steady event word and a steady pin 5: starting up, counting the
word to 35, measuring pin 5 driven low, then its class on tick 42. -/
inductive OutConnecting (c : OutCtx) (p : OutPort) (h : OutShared) : Nat → Prop
  | init (hs : p.state = 0) : OutConnecting c p h 0
  | delay {k : Nat} (hk : k < 2) (hu : OutUnclassified c p h) (hs : p.state = 1) (hev : p.event = 0)
      (ht : p.timer = k) : OutConnecting c p h (k + 1)
  | floating (hu : OutUnclassified c p h) (hs : p.state = 2) (hev : p.event = 0) : OutConnecting c p h 3
  | counting {k : Nat} (hk : k < 35) (hu : OutUnclassified c p h) (hs : p.state = 2) (hev : p.event = evOut c)
      (ht : p.timer = k) : OutConnecting c p h (k + 4)
  | measuring {k : Nat} (hk : k < 2) (hu : OutUnclassified c p h) (hs : p.state = 3) (hf : p.value5Float = c.x5)
      (hce : p.connEvent = evOut c) (ht : p.timer = k) : OutConnecting c p h (k + 39)
  | measured (hu : OutUnclassified c p h) (hs : p.state = 4) (hf : p.value5Float = c.x5) (hl : p.value5Low = c.x5)
      (hce : p.connEvent = evOut c) : OutConnecting c p h 41
  | classified (hp : ClassifiedByPin5 c p h) : OutConnecting c p h 42
  | later {n : Nat} (hn : 42 < n) : OutConnecting c p h n

section

variable {c : OutCtx} {v : OutView}

/-- `INIT` leaves the port without a class, at the start of the delay (R221). -/
theorem OutConnecting.step_init (hs : v.port.state = 0) :
    OutConnecting c (outStepView c v).port (outStepView c v).sh 1 := by
  have hrule : outStepView c v = outRule .none outInitBody c (v.heldIn 0) := outStepView_eq hs
  rw [hrule, outInitRule_eq]
  exact .delay Nat.zero_lt_two ⟨rfl, rfl, rfl⟩ rfl rfl rfl

/-- `FLOATING_DELAY` lasts 2 ticks (R222). -/
theorem OutConnecting.step_delay {k : Nat} (hbits : 2 < 2 ^ c.cfg.timerBits) (hk : k < 2)
    (hu : OutUnclassified c v.port v.sh) (hs : v.port.state = 1) (hev : v.port.event = 0) (ht : v.port.timer = k) :
    OutConnecting c (outStepView c v).port (outStepView c v).sh (k + 2) := by
  have hrule : outStepView c v = outRule .dly outFloatingDelayBody c (v.heldIn 1) := outStepView_eq hs
  have hcount : tickUp c.cfg (v.heldIn 1).port.timer = k + 1 :=
    (congrArg _ ht).trans (tickUp_of_lt (by omega))
  obtain ⟨hconn, htype, hclass⟩ := hu
  rw [hrule, outFloatingDelayRule_eq c rfl, hcount]
  split_ifs with hfire
  · obtain rfl : k = 1 := by omega
    exact .floating ⟨hconn, htype, hclass⟩ rfl hev
  · exact .delay (Nat.not_le.1 hfire) ⟨hconn, htype, hclass⟩ rfl hev rfl

/-- `FLOATING` latches the event word and starts to count it (R223). -/
theorem OutConnecting.step_floating (hne : evOut c ≠ 0) (hu : OutUnclassified c v.port v.sh) (hs : v.port.state = 2)
    (hev : v.port.event = 0) : OutConnecting c (outStepView c v).port (outStepView c v).sh 4 := by
  have hrule : outStepView c v = outRule .deb outFloatingBody c (v.heldIn 2) := outStepView_eq hs
  rw [hrule, outFloatingRule_of_ne (v := v.heldIn 2) (hev ▸ hne)]
  exact .counting (by decide) ⟨hu.connected, hu.devType, hu.connClass⟩ rfl rfl rfl

/-- `FLOATING` counts the word to 35, then latches it, drives pin 5 low and starts to measure (R223). -/
theorem OutConnecting.step_counting {k : Nat} (hbits : 35 < 2 ^ c.cfg.timerBits) (hne : evOut c ≠ 0) (hk : k < 35)
    (hu : OutUnclassified c v.port v.sh) (hs : v.port.state = 2) (hev : v.port.event = evOut c)
    (ht : v.port.timer = k) : OutConnecting c (outStepView c v).port (outStepView c v).sh (k + 5) := by
  have hrule : outStepView c v = outRule .deb outFloatingBody c (v.heldIn 2) := outStepView_eq hs
  have hcount : tickUp c.cfg (v.heldIn 2).port.timer = k + 1 :=
    (congrArg _ ht).trans (tickUp_of_lt (by omega))
  obtain ⟨hconn, htype, hclass⟩ := hu
  by_cases hlast : 35 ≤ k + 1
  · obtain rfl : k = 34 := by omega
    rw [hrule, outFloatingRule_of_fires (v := v.heldIn 2) rfl hev.symm ⟨hev ▸ hne, hcount.symm ▸ hlast⟩]
    exact .measuring Nat.zero_lt_two ⟨hconn, htype, hclass⟩ rfl rfl rfl rfl
  · rw [hrule, outFloatingRule_of_waits (v := v.heldIn 2) hev.symm fun hgo => hlast (hcount ▸ hgo.2), hcount]
    exact .counting (Nat.not_le.1 hlast) ⟨hconn, htype, hclass⟩ rfl hev rfl

/-- `WAITING_FOR_PIN6_LOW` lasts 2 ticks and then latches pin 5 driven low (R224). -/
theorem OutConnecting.step_measuring {k : Nat} (hbits : 2 < 2 ^ c.cfg.timerBits) (hk : k < 2)
    (hu : OutUnclassified c v.port v.sh) (hs : v.port.state = 3) (hf : v.port.value5Float = c.x5)
    (hce : v.port.connEvent = evOut c) (ht : v.port.timer = k) :
    OutConnecting c (outStepView c v).port (outStepView c v).sh (k + 40) := by
  have hrule : outStepView c v = outRule .dly outWaitPin6LowBody c (v.heldIn 3) := outStepView_eq hs
  have hcount : tickUp c.cfg (v.heldIn 3).port.timer = k + 1 :=
    (congrArg _ ht).trans (tickUp_of_lt (by omega))
  obtain ⟨hconn, htype, hclass⟩ := hu
  rw [hrule, outWaitPin6LowRule_eq c rfl, hcount]
  split_ifs with hfire
  · obtain rfl : k = 1 := by omega
    exact .measured ⟨hconn, htype, hclass⟩ rfl hf rfl hce
  · exact .measuring (Nat.not_le.1 hfire) ⟨hconn, htype, hclass⟩ rfl hf hce rfl

/-- `CONNECTION` classifies the port: pin 5 is not balanced, and reads the same floating and driven low (R225). -/
theorem ClassifiedByPin5.step_measured (hbal : ¬ (1965 ≤ c.x5.toNat ∧ c.x5.toNat < 2129)) (hs : v.port.state = 4)
    (hf : v.port.value5Float = c.x5) (hl : v.port.value5Low = c.x5) (hce : v.port.connEvent = evOut c) :
    ClassifiedByPin5 c (outStepView c v).port (outStepView c v).sh := by
  have hrule : outStepView c v = outRule .none outConnectionBody c (v.heldIn 4) := outStepView_eq hs
  have hnear : near v.port.value5Float.toNat v.port.value5Low.toNat 50 = true := by
    rw [hf, hl, near_iff]
    omega
  rw [hrule, outConnectionRule_of_near c (v := v.heldIn 4) rfl (show ¬ _ from hf.symm ▸ hbal) hnear]
  refine ⟨rfl, rfl, rfl, ?_, ?_⟩ <;> rw [← hf, ← hce] <;> rfl

end

/-! ## The run -/

/-- Each tick takes the port to its next place in the run. -/
theorem OutConnecting.step {c : OutCtx} {v : OutView} {n : Nat} (hbits : 35 < 2 ^ c.cfg.timerBits)
    (hne : evOut c ≠ 0) (hbal : ¬ (1965 ≤ c.x5.toNat ∧ c.x5.toNat < 2129)) (h : OutConnecting c v.port v.sh n) :
    OutConnecting c (outStepView c v).port (outStepView c v).sh (n + 1) := by
  have hbits2 : 2 < 2 ^ c.cfg.timerBits := Nat.lt_trans (by decide) hbits
  cases h with
  | init hs => exact .step_init hs
  | delay hk hu hs hev ht => exact .step_delay hbits2 hk hu hs hev ht
  | floating hu hs hev => exact .step_floating hne hu hs hev
  | counting hk hu hs hev ht => exact .step_counting hbits hne hk hu hs hev ht
  | measuring hk hu hs hf hce ht => exact .step_measuring hbits2 hk hu hs hf hce ht
  | measured hu hs hf hl hce => exact .classified (.step_measured hbal hs hf hl hce)
  | classified => exact .later (Nat.lt_succ_self 42)
  | later hn => exact .later (Nat.lt_succ_of_lt hn)

/-- After each of ticks 1 to 41 the port shows no device. -/
theorem OutConnecting.unclassified {c : OutCtx} {p : OutPort} {h : OutShared} {n : Nat} (hp : OutConnecting c p h n)
    (h1 : 1 ≤ n) (h41 : n ≤ 41) : OutUnclassified c p h := by
  cases hp with
  | init => exact absurd h1 (Nat.not_succ_le_zero 0)
  | delay _ hu => exact hu
  | floating hu => exact hu
  | counting _ hu => exact hu
  | measuring _ hu => exact hu
  | measured hu => exact hu
  | classified => exact absurd h41 (by decide)
  | later hn => omega

/-- After tick 42 it is classified. -/
theorem OutConnecting.classified_of_42 {c : OutCtx} {p : OutPort} {h : OutShared} (hp : OutConnecting c p h 42) :
    ClassifiedByPin5 c p h := by
  cases hp with
  | delay hk => exact absurd hk (by decide)
  | counting hk => exact absurd hk (by decide)
  | measuring hk => exact absurd hk (by decide)
  | classified hp => exact hp
  | later hn => exact absurd hn (Nat.lt_irrefl 42)

end Sys2Proof.Machine

open Sys2Proof Sys2Proof.Config Sys2Proof.Machine

/-- Settles O41: the run of ticks keeps the port where `OutConnecting` puts it after each of them. -/
theorem outputConnectionLatency : Obligations.OutputConnectionLatency := by
  intro s j hj htree hbits hs h0 v tc
  obtain ⟨hbit0, hbit1⟩ := eventWords.2 s j
  have hx5 : (s.ctxOut j).x5.toNat = v := toNat_sample12 _
  have hne : evOut (s.ctxOut j) ≠ 0 := fun e => by rw [e] at h0; cases h0
  have hbal : ¬ (1965 ≤ (s.ctxOut j).x5.toNat ∧ (s.ctxOut j).x5.toNat < 2129) := by
    rw [hx5]
    exact of_decide_eq_true (hbit0.symm.trans h0)
  have hrun := ticksD_out s j hj htree (fun n p h => OutConnecting (s.ctxOut j) p h n) (.init hs)
    fun _ _ _ hp => hp.step (v := ⟨_, _, []⟩) hbits hne hbal
  refine ⟨fun n hn hn' => ?_, ?_⟩
  · obtain ⟨u, hu, -, -, -, hp⟩ := hrun n
    obtain ⟨hconn, htype, hclass⟩ := hp.unclassified hn hn'
    exact ⟨u, hu, htype, hclass, hconn⟩
  · obtain ⟨t, ht, -, -, -, hp⟩ := hrun 42
    obtain ⟨hstate, hconn, hpin5, htype, hclass⟩ := hp.classified_of_42
    rw [hx5, hbit1] at htype hclass
    exact ⟨t, ht, hstate, hconn, hpin5, htype, hclass⟩
end

section
/-! SUPPORT. The host's command rows case by case (R262, R266), what an `'e'` character does to the view of a port, and the
requests that are refused (R268, R270, R295); then the statements about them. -/

namespace Sys2Proof.Machine

open Sys2Proof Config

/-! ## The rows of one port, by its enable -/

section

variable {s : State} {i : Nat}

theorem exec_eDisable_of_enabled (hi : i < s.cfg.numIn) (he : (s.inAt i).fsmEnabled = true) :
    exec (.eDisable i) s = .next (s.runIn i disableView) :=
  (onIn_of_lt hi _).trans (congrArg _ (if_pos he))

theorem exec_eDisable_of_disabled (hi : i < s.cfg.numIn) (he : (s.inAt i).fsmEnabled = false) :
    exec (.eDisable i) s = .next s :=
  (onIn_of_lt hi _).trans (congrArg _ (if_neg (Bool.eq_false_iff.1 he)))

theorem exec_eEnable_of_disabled (hi : i < s.cfg.numIn) (he : (s.inAt i).fsmEnabled = false) :
    exec (.eEnable i) s = .next (s.runIn i fun _ v => enableView v) :=
  (onIn_of_lt hi _).trans (congrArg _ (if_neg (Bool.eq_false_iff.1 he)))

theorem exec_eEnable_of_enabled (hi : i < s.cfg.numIn) (he : (s.inAt i).fsmEnabled = true) :
    exec (.eEnable i) s = .next s :=
  (onIn_of_lt hi _).trans (congrArg _ (if_pos he))

theorem exec_eNop (hi : i < s.cfg.numIn) : exec (.eNop i) s = .next s := onIn_of_lt hi _

theorem exec_eOther (hi : i < s.cfg.numIn) (c : Byte) : exec (.eOther i c) s = .next s := onIn_of_lt hi _

theorem bareColor_of_disabled (hi : i < s.cfg.numIn) (he : (s.inAt i).fsmEnabled = false) (b : Byte) :
    bareColor b i s = .next (s.runIn i fun c v => v.openSession c b) :=
  (onIn_of_lt hi _).trans (congrArg _ (if_neg (Bool.eq_false_iff.1 he)))

theorem bareColor_of_enabled (hi : i < s.cfg.numIn) (he : (s.inAt i).fsmEnabled = true) (b : Byte) :
    bareColor b i s = .next s :=
  (onIn_of_lt hi _).trans (congrArg _ (if_pos he))

end

/-! ## The `'e'` and `'t'` writes -/

/-- The disabling character on an enabled port takes the disabling branch (R262). -/
theorem eCharView_of_disable {ch : Byte} {c : InCtx} {v : InView} (hd : ch = c.cfg.eCharDisable)
    (he : v.port.fsmEnabled = true) : eCharView ch c v = disableView c v := if_pos ⟨hd, he⟩

/-- The enabling character on a disabled port takes the enabling branch (R262). -/
theorem eCharView_of_enable {ch : Byte} {c : InCtx} {v : InView} (hn : ch = c.cfg.eCharEnable)
    (he : v.port.fsmEnabled = false) : eCharView ch c v = enableView v := by
  rw [hn, eCharView_enable he]

/-- A character that asks for no change of the enable changes nothing (R262). -/
theorem eCharView_unchanged {ch : Byte} {c : InCtx} {v : InView}
    (hd : ch = c.cfg.eCharDisable → v.port.fsmEnabled = false)
    (he : ch = c.cfg.eCharEnable → v.port.fsmEnabled = true) : eCharView ch c v = v := by
  rw [eCharView, if_neg fun h => Bool.eq_false_iff.1 (hd h.1) h.2, if_neg fun h => Bool.eq_false_iff.1 h.2 (he h.1)]

/-- Where the platform's two characters differ, a character's own row gives its port what the character does in a write
(R83, R262). -/
theorem exec_decodeEChar {s : State} {i : Nat} (hi : i < s.cfg.numIn) (hde : s.cfg.eCharDisable ≠ s.cfg.eCharEnable)
    (ch : Byte) :
    ∃ u, exec (decodeEChar s.cfg.toPlatform i ch) s = .next u ∧
      u.inAt i = (eCharView ch (s.ctxIn i) (s.viewIn i)).port ∧
      u.shInAt i = (eCharView ch (s.ctxIn i) (s.viewIn i)).sh := by
  by_cases hd : ch = s.cfg.eCharDisable
  · rw [hd, decodeEChar_eDisable, ← hd]
    cases he : (s.inAt i).fsmEnabled with
    | true =>
      rw [eCharView_of_disable (c := s.ctxIn i) (v := s.viewIn i) hd he]
      exact ⟨_, exec_eDisable_of_enabled hi he, inAt_runIn_self _ _ _, shInAt_runIn_self _ _ _⟩
    | false =>
      rw [eCharView_unchanged (c := s.ctxIn i) (v := s.viewIn i) (fun _ => he) fun hn => absurd (hd.symm.trans hn) hde]
      exact ⟨s, exec_eDisable_of_disabled hi he, rfl, rfl⟩
  by_cases hn : ch = s.cfg.eCharEnable
  · rw [hn, decodeEChar_eEnable hde.symm, ← hn]
    cases he : (s.inAt i).fsmEnabled with
    | true =>
      rw [eCharView_unchanged (c := s.ctxIn i) (v := s.viewIn i) (fun h => absurd h hd) fun _ => he]
      exact ⟨s, exec_eEnable_of_enabled hi he, rfl, rfl⟩
    | false =>
      rw [eCharView_of_enable (c := s.ctxIn i) (v := s.viewIn i) hn he]
      exact ⟨_, exec_eEnable_of_disabled hi he, inAt_runIn_self _ _ _, shInAt_runIn_self _ _ _⟩
  · rw [eCharView_other (c := s.ctxIn i) hd hn, decodeEChar, if_neg hd, if_neg hn]
    refine ⟨s, ?_, rfl, rfl⟩
    split_ifs
    · exact exec_eNop hi
    · exact exec_eOther hi ch

/-- An `'e'` write of another length is ignored whole (R82, R261). -/
theorem exec_writeE_of_ne {cs : List Byte} {s : State} (hl : cs.length ≠ s.cfg.numIn) :
    exec (.writeE cs) s = .next s := congrArg _ (if_neg hl)

/-- A `'t'` write of another length is ignored whole (R84, R263). -/
theorem exec_writeT_of_ne {ks : List Byte} {s : State} (hl : ks.length ≠ s.cfg.numIn) :
    exec (.writeT ks) s = .next s := congrArg _ (if_neg hl)

/-! ## Refused requests -/

/-- A store to a field that is no update flag of the block is no operation, whatever the value (R268). -/
theorem decodeStore_of_no_flag {p : Platform} {f : HostField} (hin : ∀ i < p.numIn, f ≠ .inUpd i)
    (hout : ∀ j < p.numOut, f ≠ .outUpd j) (v : Nat) : decodeStore p f v = .error .hostStore := by
  unfold decodeStore
  split
  · exact if_neg fun hi => hin _ hi rfl
  · exact if_neg fun hj => hout _ hj rfl
  · rfl

/-- A rejected request stops the step under the refusal of its rejection (R295). -/
theorem step_of_rejected {s : State} {a : Arrival} {rest : List Arrival} {r : Reject} (hp : s.pending = a :: rest)
    (hd : decodeRequest s.cfg.toPlatform a.request = .rejected r) : step s = .refused (refusalOf r) := by
  simp only [step, hp, hd]

end Sys2Proof.Machine

open Sys2Proof Sys2Proof.Config Sys2Proof.Machine

/-- Settles O44: the write runs each port's character on its view; the branches of R262 are those of `eCharView`, and the
character's own row takes the same one. -/
theorem enableWriteIsPerPort : Obligations.EnableWriteIsPerPort := by
  refine fun s cs => ⟨exec_writeE_of_ne, fun hl => ?_⟩
  obtain ⟨t, ht, hc, hs, he, hp, hb, ho, hso, hk, hin, hsh⟩ := execWriteE_eq cs s hl
  refine ⟨t, ht, ⟨hc, he, hp⟩, hs, hk, fun x => congrArg (·.read x) hb, fun j => congrArg (portAt · j) ho,
    fun j => congrArg (portAt · j) hso, fun i c hci => ?_⟩
  obtain ⟨hil, rfl⟩ := List.getElem?_eq_some_iff.1 hci
  have hi : i < s.cfg.numIn := hl ▸ hil
  have hport := hin i
  have hshared := hsh i
  rw [if_pos hi, List.getD_eq_getElem _ _ hil] at hport hshared
  rw [hport, hshared]
  refine ⟨fun hd hen => ?_, fun hn hdis => ?_, fun hd hn => ?_, fun hde => ?_⟩
  · rw [eCharView_of_disable (c := s.ctxIn i) (v := s.viewIn i) hd hen]
    exact ⟨rfl, rfl⟩
  · rw [eCharView_of_enable (c := s.ctxIn i) (v := s.viewIn i) hn hdis]
    exact ⟨rfl, rfl⟩
  · rw [eCharView_unchanged (c := s.ctxIn i) (v := s.viewIn i) hd hn]
    exact ⟨rfl, rfl⟩
  · obtain ⟨u, hu, huport, hushared⟩ := exec_decodeEChar hi hde cs[i]
    exact ⟨u, hu, huport.symm, hushared.symm⟩

/-- Settles O45: the write forces each port's code on its view, which changes the class of a disabled port alone. -/
theorem forceWriteIsPerPort : Obligations.ForceWriteIsPerPort := by
  refine fun s ks => ⟨exec_writeT_of_ne, fun hl => ?_⟩
  obtain ⟨t, ht, hc, hs, he, hp, hb, ho, hso, hk, hin, hsh⟩ := execWriteT_eq ks s hl
  refine ⟨t, ht, ⟨hc, he, hp⟩, hs, hk, fun x => congrArg (·.read x) hb, fun j => congrArg (portAt · j) ho,
    fun j => congrArg (portAt · j) hso, hin, fun i k hki => ?_⟩
  obtain ⟨hil, rfl⟩ := List.getElem?_eq_some_iff.1 hki
  rw [hsh i, List.getD_eq_getElem _ _ hil]
  cases hen : (s.inAt i).fsmEnabled with
  | true => exact if_neg fun h => nomatch h.2
  | false => exact if_pos ⟨hl ▸ hil, rfl⟩

/-- Settles O7: such a store is no operation and no ioctl is one, and a rejected request stops the step. -/
theorem otherHostStoresAndIoctlsRefused : Obligations.OtherHostStoresAndIoctlsRefused := by
  refine ⟨fun s a rest f v hp hr hin hout => ?_, fun s a rest n hp hr => ?_⟩
  · refine step_of_rejected (r := .hostStore) hp ?_
    rw [hr, decodeRequest, decodeStore_of_no_flag hin hout v]
  · refine step_of_rejected (r := .ioctl) hp ?_
    rw [hr, decodeRequest]

/-- Settles O43: the row of each character, on an enabled and on a disabled port. -/
theorem enableCharacterEffects : Obligations.EnableCharacterEffects := fun _ _ hi =>
  ⟨fun he => completesIn_of_runIn (exec_eDisable_of_enabled hi he), exec_eDisable_of_disabled hi,
    fun he => completesIn_of_runIn (exec_eEnable_of_disabled hi he), exec_eEnable_of_enabled hi, exec_eNop hi,
    exec_eOther hi⟩

/-- Settles O46: the five rows are `bareColor` with their byte. -/
theorem bareColorCommands : Obligations.BareColorCommands := by
  intro s i hi w hw
  have hrow : exec w.1 s = bareColor w.2 i s := by fin_cases hw <;> rfl
  exact ⟨fun he => completesIn_of_runIn (hrow.trans (bareColor_of_disabled hi he w.2)),
    fun he => hrow.trans (bareColor_of_enabled hi he w.2)⟩
end

section
/-! SUPPORT. What R307 gives to the DCM alone, on the view of an input port and over the whole state, and that neither the
sampler nor the host writes it; then the statement. -/

namespace Sys2Proof.Machine

open Sys2Proof Config

/-! ## The view of an input port -/

/-- From `v` to `w` the fields of an input port that the DCM alone writes are as before. -/
structure KeepsDcmIn (v w : InView) : Prop where
  oldState : w.port.oldState = v.port.oldState
  value : w.port.value = v.port.value
  connected : w.port.connected = v.port.connected
  colorActive : w.port.colorActive = v.port.colorActive
  colorRes : w.sh.colorRes = v.sh.colorRes

theorem KeepsDcmIn.refl (v : InView) : KeepsDcmIn v v := ⟨rfl, rfl, rfl, rfl, rfl⟩

theorem KeepsDcmIn.trans {u v w : InView} (h : KeepsDcmIn u v) (k : KeepsDcmIn v w) : KeepsDcmIn u w :=
  ⟨k.oldState.trans h.oldState, k.value.trans h.value, k.connected.trans h.connected,
    k.colorActive.trans h.colorActive, k.colorRes.trans h.colorRes⟩

/-- The calls of a view have no part in it. -/
theorem KeepsDcmIn.congr {u v w : InView} (h : KeepsDcmIn u v) (hp : w.port = v.port) (hs : w.sh = v.sh) :
    KeepsDcmIn u w :=
  h.trans ⟨congrArg (·.oldState) hp, congrArg (·.value) hp, congrArg (·.connected) hp, congrArg (·.colorActive) hp,
    congrArg (·.colorRes) hs⟩

/-- Disabling a port writes its enable, event word, timer, state and class (R262). -/
theorem KeepsDcmIn.disableView (c : InCtx) (v : InView) : KeepsDcmIn v (disableView c v) := ⟨rfl, rfl, rfl, rfl, rfl⟩

/-- Enabling a port writes its enable, timer and state (R262). -/
theorem KeepsDcmIn.enableView (v : InView) : KeepsDcmIn v (enableView v) := ⟨rfl, rfl, rfl, rfl, rfl⟩

theorem KeepsDcmIn.eCharView (ch : Byte) (c : InCtx) (v : InView) : KeepsDcmIn v (eCharView ch c v) := by
  rcases eCharView_cases ch c v with ⟨-, e⟩ | ⟨-, e⟩ | e <;> rw [e]
  · exact .disableView c v
  · exact .enableView v
  · exact .refl v

/-- A forced code is the class of a disabled port (R264). -/
theorem KeepsDcmIn.forceView (k : Byte) (c : InCtx) (v : InView) : KeepsDcmIn v (forceView k c v) := by
  unfold Machine.forceView
  split
  · exact .refl v
  · exact ⟨rfl, rfl, rfl, rfl, rfl⟩

theorem KeepsDcmIn.openSession (c : InCtx) (v : InView) (b : Byte) : KeepsDcmIn v (v.openSession c b) :=
  ⟨rfl, rfl, rfl, rfl, rfl⟩

theorem KeepsDcmIn.driveView (ds : List (Role × ClockFlag)) (c : InCtx) (v : InView) :
    KeepsDcmIn v (driveView ds c v) := by
  obtain ⟨hsh, hport, -⟩ := driveView_frame c ds v
  have hdrv (d : Drives) : KeepsDcmIn v { v with port := { v.port with drv := d } } := ⟨rfl, rfl, rfl, rfl, rfl⟩
  exact (hdrv _).congr hport hsh

/-! ## The whole state -/

/-- From `s` to `t` what R307 gives to the DCM alone is as before: the output records and classifications, and the DCM's
fields of the input ports. -/
structure KeepsDcm (s t : State) : Prop where
  out : ∀ j, t.outAt j = s.outAt j
  shOut : ∀ j, (t.shOutAt j).devType = (s.shOutAt j).devType ∧ (t.shOutAt j).connClass = (s.shOutAt j).connClass
  inp : ∀ i, KeepsDcmIn (s.viewIn i) (t.viewIn i)

theorem KeepsDcm.refl (s : State) : KeepsDcm s s := ⟨fun _ => rfl, fun _ => ⟨rfl, rfl⟩, fun _ => .refl _⟩

theorem KeepsDcm.trans {s t u : State} (h : KeepsDcm s t) (k : KeepsDcm t u) : KeepsDcm s u :=
  ⟨fun j => (k.out j).trans (h.out j),
    fun j => ⟨(k.shOut j).1.trans (h.shOut j).1, (k.shOut j).2.trans (h.shOut j).2⟩,
    fun i => (h.inp i).trans (k.inp i)⟩

/-- An operation on one input port's view keeps it where it keeps the view's part. -/
theorem KeepsDcm.runIn {s : State} {i : Nat} {f : InCtx → InView → InView} (hf : ∀ c v, KeepsDcmIn v (f c v)) :
    KeepsDcm s (s.runIn i f) := by
  refine ⟨fun _ => rfl, fun _ => ⟨rfl, rfl⟩, fun k => ?_⟩
  by_cases hk : k = i
  · subst hk
    exact (hf (s.ctxIn k) (s.viewIn k)).congr (inAt_runIn_self s k f) (shInAt_runIn_self s k f)
  · rw [State.runIn, viewIn_putIn_ne s _ hk]
    exact .refl _

/-- Such an operation on one port after another. -/
theorem KeepsDcm.foldl_runIn {f : Nat → InCtx → InView → InView} (hf : ∀ i c v, KeepsDcmIn v (f i c v)) (l : List Nat)
    (s : State) : KeepsDcm s (l.foldl (fun s i => s.runIn i (f i)) s) := by
  induction l generalizing s with
  | nil => exact .refl s
  | cons i l ih => exact (KeepsDcm.runIn (hf i)).trans (ih _)

/-- A row for a port keeps it where its meaning does. -/
theorem KeepsDcm.onIn {i : Nat} {s t u : State} (h : onIn i s (.next u) = .next t) (hu : KeepsDcm s u) :
    KeepsDcm s t := by
  obtain ⟨-, h⟩ := onIn_eq_next h
  cases h
  exact hu

/-- An operation that is run or not, as a condition on the state has it. -/
theorem KeepsDcm.ite {p : Prop} [Decidable p] {s t u : State} (ht : KeepsDcm s t) (hu : KeepsDcm s u) :
    KeepsDcm s (if p then t else u) := by
  split
  · exact ht
  · exact hu

/-! ## The rows -/

/-- A sampler tick writes drives and rings of input records, and update flags (R113). -/
theorem KeepsDcm.tickS {r : Cell16} {s t : State} (h : exec (.tickS r) s = .next t) : KeepsDcm s t := by
  have hin := (tickS_next_inAt h).2
  obtain ⟨e, -, rfl⟩ := tickS_next h
  obtain ⟨-, -, -, -, hout, -, -, -, hshin, hshout⟩ := samplerTick_eq e r s
  refine ⟨hout, fun j => ?_, fun i => ?_⟩
  · rw [hshout j]
    split <;> exact ⟨rfl, rfl⟩
  · obtain ⟨d, g, k, hp⟩ := hin i
    have hres : ((samplerTick e r s).shInAt i).colorRes = (s.shInAt i).colorRes := by
      rw [hshin i]
      split <;> rfl
    exact ⟨congrArg (·.oldState) hp, congrArg (·.value) hp, congrArg (·.connected) hp, congrArg (·.colorActive) hp, hres⟩

theorem KeepsDcm.writeE {cs : List Byte} {s t : State} (h : exec (.writeE cs) s = .next t) : KeepsDcm s t := by
  have h : execWriteE cs s = .next t := h
  cases h
  exact .ite (.foldl_runIn (fun _ => .eCharView _) _ s) (.refl s)

theorem KeepsDcm.writeT {ks : List Byte} {s t : State} (h : exec (.writeT ks) s = .next t) : KeepsDcm s t := by
  have h : execWriteT ks s = .next t := h
  cases h
  exact .ite (.foldl_runIn (fun _ => .forceView _) _ s) (.refl s)

theorem KeepsDcm.bareColor {b : Byte} {i : Nat} {s t : State} (h : bareColor b i s = .next t) : KeepsDcm s t :=
  .onIn h (.ite (.refl s) (.runIn fun c v => .openSession c v b))

theorem KeepsDcm.bareRawpin {b : Byte} {i : Nat} {s t : State} (h : exec (.bareRawpin i b) s = .next t) :
    KeepsDcm s t := by
  obtain ⟨-, h⟩ := onIn_eq_next h
  split at h
  · cases h; exact .refl s
  · split at h
    · cases h; exact .runIn (.driveView _)
    · cases h

/-- Clearing an input port's update flag (R268). -/
theorem KeepsDcm.clrupdIn {i : Nat} {s t : State} (h : exec (.clrupdIn i) s = .next t) : KeepsDcm s t := by
  refine .onIn h ⟨fun _ => rfl, fun _ => ⟨rfl, rfl⟩, fun k => ⟨rfl, rfl, rfl, rfl, ?_⟩⟩
  rw [viewIn_sh, shInAt_setShIn]
  split
  · next e => rw [e]; rfl
  · rfl

/-- Clearing an output port's update flag (R268). -/
theorem KeepsDcm.clrupdOut {j : Nat} {s t : State} (h : exec (.clrupdOut j) s = .next t) : KeepsDcm s t := by
  obtain ⟨-, h⟩ := onOut_eq_next h
  cases h
  refine ⟨fun _ => rfl, fun k => ?_, fun _ => .refl _⟩
  rw [shOutAt_setShOut]
  split
  · next e => rw [e]; exact ⟨rfl, rfl⟩
  · exact ⟨rfl, rfl⟩

/-- Every row but `TICK_D` and the state rows keeps what R307 gives to the DCM alone. -/
theorem KeepsDcm.exec {ins : Instr} {s t : State} (hne : ins ≠ .tickD) (hin : ∀ p, (encode p ins).format ≠ .inState)
    (hout : ∀ p, (encode p ins).format ≠ .outState) (h : Machine.exec ins s = .next t) : KeepsDcm s t := by
  cases ins
  case tickS => exact .tickS h
  case tickD => exact absurd rfl hne
  case writeE => exact .writeE h
  case writeT => exact .writeT h
  case eDisable => exact .onIn h (.ite (.runIn .disableView) (.refl s))
  case eEnable => exact .onIn h (.ite (.refl s) (.runIn fun _ => .enableView))
  case eNop | eOther => exact .onIn h (.refl s)
  case bareColor0D | bareColor0E | bareColor0F | bareColor10 | bareColor11 => exact .bareColor h
  case bareRawpin => exact .bareRawpin h
  case clrupdIn => exact .clrupdIn h
  case clrupdOut => exact .clrupdOut h
  case outInit | outFloatingDelay | outFloating | outWaitPin6Low | outConnection | outWaitPin5Low | outWaitPortOpen |
      outReserved => exact absurd rfl (hout Platform.standard)
  all_goals exact absurd rfl (hin Platform.standard)

end Sys2Proof.Machine

open Sys2Proof Sys2Proof.Config Sys2Proof.Machine

/-- Settles O53: row by row, those of the sampler and of the host leave what the DCM alone writes. -/
theorem onlyDcmWritesDcmFields : Obligations.OnlyDcmWritesDcmFields := fun _ _ _ hne hin hout h =>
  have ⟨ho, hso, hi⟩ := KeepsDcm.exec hne hin hout h
  ⟨ho, hso, fun i =>
    have ⟨hold, hvalue, hconn, hactive, hres⟩ := hi i
    ⟨hold, hvalue, hconn, hactive, hres⟩⟩
end

section
/-! What a port's drives and the output ports' fields of `Sh` hold after reset (R320). -/

namespace Sys2Proof.Machine

open Sys2Proof Config

/-- After reset every role floats, whichever cell the layout gives it. -/
theorem drvAt_resetWith (p : Params) (d : ResetDraws) {i : Nat} (hi : i < p.numIn) (role : Role) :
    (State.resetWith p d).drvAt i role = .float := by
  rw [State.drvAt, inAt_resetWith p d hi]
  cases cellOf (State.resetWith p d).cfg role <;> rfl

theorem shOutAt_resetWith (p : Params) (d : ResetDraws) {j : Nat} (hj : j < p.numOut) :
    (State.resetWith p d).shOutAt j =
      { devType := p.codes.typeNone, connClass := p.codes.connNone, upd := false } := portAt_replicate _ hj

end Sys2Proof.Machine

open Sys2Proof Sys2Proof.Config Sys2Proof.Machine

/-- Settles O59: each list of ports that `RESET` builds is read at one place, where it holds the record of R320. -/
theorem resetValues : Obligations.ResetValues := by
  intro p d
  refine ⟨rfl, rfl, shaped_resetWith p d, bufAt_resetWith_lt p d, fun i hi => ?input,
    fun j hj => outAt_resetWith p d hj, fun i hi => ?sharedInput, fun j hj => shOutAt_resetWith p d hj, rfl⟩
  case input =>
    have hdrv := drvAt_resetWith p d hi
    have hring : (resetInPort p d i).ring.length = p.ringDepth := by simp [resetInPort]
    rw [inAt_resetWith p d hi]
    exact ⟨rfl, rfl, rfl, rfl, rfl, rfl, hdrv, rfl, rfl, rfl, hring, rfl⟩
  case sharedInput =>
    rw [shInAt_resetWith p d hi]
    exact ⟨rfl, rfl, rfl, by simp⟩
end
